-- ==== Sys2Proof/Word.lean ====
section
/-! DEFINITION. The word types of the HCE (spec/00_scope.md R9 REG_BITS, R11, R12).

A symbol is an unsigned integer below 2^SYMBOL_BITS (00_scope.md R11, 20_memory.md R54). The engine holds it zero-extended
(40_commands_common.md R94) and only ever compares it, so the model holds symbols as `Nat`. -/

namespace Sys2Proof

/-- One byte of buffer memory (20_memory.md R51). -/
abbrev Byte := BitVec 8

/-- One register or command word: REG_BITS = 32 (00_scope.md R9, 30_encoding.md R69). -/
abbrev Word := BitVec 32

/-- A bitstring, first bit first (00_scope.md R12). -/
abbrev Bits := List Bool

end Sys2Proof
end

