-- ==== Sys2Proof/Config.lean ====
section
/-! DEFINITION. What one build of the HCE fixes (spec/00_scope.md R4, R9) and the free values the spec leaves open
(spec/93_implementation_defined.md V1 to V5, V7). -/

namespace Sys2Proof

/-- SYMBOL_BITS is 8 or 16 (00_scope.md R9, 92_eei_decisions.md D2). -/
inductive SymbolBits where
  | bits8
  | bits16
deriving DecidableEq, Repr

/-- The two build-time parameters (00_scope.md R4). `logExtra` is log2(BUF_SIZE) - 12, so every value of this type is an
admitted configuration: BUF_SIZE is a power of two from 2^12 to 2^28 (00_scope.md R9). -/
structure Params where
  symbolBits : SymbolBits
  logExtra : Fin 17
deriving DecidableEq, Repr

/-- The reference configuration: SYMBOL_BITS = 8, BUF_SIZE = 65536 (00_scope.md R10). -/
def Params.reference : Params := { symbolBits := .bits8, logExtra := 4 }

/-- SB, the bytes per stored symbol (00_scope.md R9). -/
def Params.sb (p : Params) : Nat :=
  match p.symbolBits with
  | .bits8 => 1
  | .bits16 => 2

/-- SYMBOL_BITS as a number. -/
def Params.symBits (p : Params) : Nat := 8 * p.sb

/-- log2(BUF_SIZE), 12 to 28. -/
def Params.logBuf (p : Params) : Nat := 12 + p.logExtra.val

/-- BUF_SIZE in bytes. -/
def Params.bufSize (p : Params) : Nat := 2 ^ p.logBuf

/-- ALPHABET_MAX, the number of symbol values. -/
def Params.alphabetMax (p : Params) : Nat := 2 ^ p.symBits

/-- MAX_CODE_LEN (00_scope.md R9, 41_huffman.md R101). -/
def maxCodeLen : Nat := 64

/-- Free value: the byte that draw number `k` gives address `a`. It stands for the buffer's contents after power-on (93 V1),
for a destination byte after a body error (V2) or an abandoned command (V3), and for a destination byte read while BUSY (V5).
It has no body: no proof can see a value of it (DESIGN CHOICE, entries 4, 5). -/
opaque Config.freeByte : Nat → Nat → Byte

/-- Free value: the word that draw number `k` gives a result register read while BUSY (93 V4, 10_state.md R43;
DESIGN CHOICE, entry 5). -/
opaque Config.freeWord : Nat → Word

/-- Free value: how many host transactions draw number `k` lets pass between the acceptance of a command and its completion
step (93 V7, 70_reset_and_hazards.md R140; DESIGN CHOICE, entry 2). -/
opaque Config.freeWait : Nat → Nat

end Sys2Proof
end

