-- ==== Sys2Proof/Syntax.lean ====
section
/-! DEFINITION. The syntax the HCE is driven by: commands (spec/30_encoding.md R72), host transactions
(spec/10_state.md R16), the register names (R20) and the LZ token (spec/42_lz.md R112). -/

namespace Sys2Proof

/-- The commands of HCE command set version 1, one per row of opcode_table.json. No command has an operand field
(30_encoding.md R69, R70). -/
inductive Instr where
  | nop
  | hbuild
  | henc
  | hdec
  | hdiscard
  | lzc
  | lzd
  | lzmatch
deriving DecidableEq, Repr

/-- What the host can do to the HCE (10_state.md R16). Widths are in bytes. `resetAssert` and `resetRelease` are the two edges
of the RESET input (70_reset_and_hazards.md R137). -/
inductive HostTxn where
  | regRead (off width : Nat)
  | regWrite (off width : Nat) (v : Word)
  | bufRead (addr width : Nat)
  | bufWrite (addr width : Nat) (v : Word)
  | resetAssert
  | resetRelease
deriving DecidableEq, Repr

/-- The registers of the map of 10_state.md R20. -/
inductive Reg where
  | id
  | param
  | ctrl
  | status
  | cmd
  | srcAddr
  | srcLen
  | dstAddr
  | dstCap
  | lzCfg
  | cursor
  | symSel
  | resultLen
  | matchOff
  | errInfo
  | alphabet
  | codecLen
  | qFreq
  | qCodeLen
  | qCodeLo
  | qCodeHi
deriving DecidableEq, Repr

/-- An LZ token (42_lz.md R112). -/
structure Token where
  offset : Nat
  length : Nat
  literal : Nat
deriving DecidableEq, Repr

end Sys2Proof
end

