-- ==== Sys2Proof/WellFormed.lean ====
section
/-! DEFINITION. Which terms of the syntax are well formed. -/

namespace Sys2Proof

/-- A command has no operand field, so every command is well formed (30_encoding.md R69). -/
def Instr.wellFormed : Instr → Bool
  | .nop => true
  | .hbuild => true
  | .henc => true
  | .hdec => true
  | .hdiscard => true
  | .lzc => true
  | .lzd => true
  | .lzmatch => true

/-- A register access is a 32-bit access at a 4-byte-aligned offset below 0x100 (10_state.md R21). -/
def legalRegAccess (off width : Nat) : Bool := width == 4 && off % 4 == 0 && decide (off < 0x100)

/-- A buffer access has width 1, 2 or 4 and stays below BUF_SIZE (20_memory.md R52). -/
def legalBufAccess (p : Params) (addr width : Nat) : Bool :=
  (width == 1 || width == 2 || width == 4) && decide (addr + width ≤ p.bufSize)

/-- The transactions that violations 1 and 2 of 60_exceptions.md R132 leave legal. -/
def HostTxn.wellFormed (p : Params) : HostTxn → Bool
  | .regRead off width => legalRegAccess off width
  | .regWrite off width _ => legalRegAccess off width
  | .bufRead addr width => legalBufAccess p addr width
  | .bufWrite addr width _ => legalBufAccess p addr width
  | .resetAssert => true
  | .resetRelease => true

/-- Offset and length are below 2^32 and the literal is a symbol (42_lz.md R112). -/
def Token.wellFormed (p : Params) (t : Token) : Bool :=
  decide (t.offset < 2 ^ 32) && decide (t.length < 2 ^ 32) && decide (t.literal < p.alphabetMax)

end Sys2Proof
end

