-- ==== Sys2Proof/Decode.lean ====
section
/-! DEFINITION. The command word CMD32 (spec/30_encoding.md R69 to R73): decoder, then encoder. -/

namespace Sys2Proof

/-- Why a word is no command: OP in 0x8 to 0xF, or RSV not 0 (30_encoding.md R73). -/
inductive Reject where
  | reservedOpcode
  | reservedBits
deriving DecidableEq, Repr

/-- OP, bits 3:0 of the command word (30_encoding.md R69). -/
def opField (w : Word) : BitVec 4 := w.extractLsb' 0 4

/-- RSV, bits 31:4 of the command word (30_encoding.md R69). -/
def rsvField (w : Word) : BitVec 28 := w.extractLsb' 4 28

/-- One row of opcode_table.json: a word is this command when its bits under `mask` are `pattern`. -/
structure OpRow where
  pattern : Word
  mask : Word
  instr : Instr
deriving DecidableEq, Repr

/-- The opcode map (30_encoding.md R72). -/
def opcodeRows : List OpRow :=
  [ { pattern := 0x00000000#32, mask := 0xFFFFFFFF#32, instr := .nop },
    { pattern := 0x00000001#32, mask := 0xFFFFFFFF#32, instr := .hbuild },
    { pattern := 0x00000002#32, mask := 0xFFFFFFFF#32, instr := .henc },
    { pattern := 0x00000003#32, mask := 0xFFFFFFFF#32, instr := .hdec },
    { pattern := 0x00000004#32, mask := 0xFFFFFFFF#32, instr := .hdiscard },
    { pattern := 0x00000005#32, mask := 0xFFFFFFFF#32, instr := .lzc },
    { pattern := 0x00000006#32, mask := 0xFFFFFFFF#32, instr := .lzd },
    { pattern := 0x00000007#32, mask := 0xFFFFFFFF#32, instr := .lzmatch } ]

/-- Does a word match a row of the map? -/
def OpRow.selects (r : OpRow) (w : Word) : Bool := w &&& r.mask == r.pattern

/-- The command a word stands for, or why it is illegal. Total on all 2^32 words (30_encoding.md R73). -/
def decodeWord (w : Word) : Except Reject Instr :=
  match opcodeRows.find? (fun r => r.selects w) with
  | some r => .ok r.instr
  | none => .error (if rsvField w = 0#28 then .reservedOpcode else .reservedBits)

/-- The instruction read from a table word of `nbits` bits (bits above them are 0). A command word is 32 bits and one register
write, so it has no byte order (30_encoding.md R69, 20_memory.md R53) and a longer word is no command (DEDUCED, entry 17). -/
def decodeTableWord (nbits w : Nat) : Option Instr :=
  if nbits ≤ 32 then (decodeWord (BitVec.ofNat 32 (w % 2 ^ nbits))).toOption else none

/-- OP of a command (30_encoding.md R72). -/
def opcode : Instr → BitVec 4
  | .nop => 0x0#4
  | .hbuild => 0x1#4
  | .henc => 0x2#4
  | .hdec => 0x3#4
  | .hdiscard => 0x4#4
  | .lzc => 0x5#4
  | .lzd => 0x6#4
  | .lzmatch => 0x7#4

/-- The word of a command: OP in bits 3:0 under RSV = 0 (30_encoding.md R69). -/
def encode (i : Instr) : Word := 0#28 ++ opcode i

end Sys2Proof
end

