-- ==== Sys2Proof/Machine/State.lean ====
section
/-! DEFINITION. Everything the spec gives the HCE (spec/10_state.md, spec/20_memory.md R51), as plain data, and its state when
RESET is released (spec/70_reset_and_hazards.md R137). -/

namespace Sys2Proof.Machine

/-- The error codes of 60_exceptions.md R125. `none` is NONE; 0xD to 0xF have no name, since they are never produced. -/
inductive ErrCode where
  | none
  | illegalCmd
  | misaligned
  | addrRange
  | overlap
  | noCodec
  | emptyInput
  | unknownSymbol
  | malformedEncoding
  | malformedToken
  | dstOverflow
  | codeTooLong
  | badCursor
deriving DecidableEq, Repr

/-- The engine phase (10_state.md R19): IDLE, or BUSY with the accepted command word. `wait` is the model's own: how many
host transactions come before the completion step (DESIGN CHOICE, entry 2). -/
inductive Phase where
  | idle
  | busy (w : Word) (wait : Nat)
deriving DecidableEq, Repr

/-- A decode tree (10_state.md R46). `node` has both children. `lone` is the Node whose right child is ABSENT, the virtual
root of a single-symbol alphabet (41_huffman.md R99; DEDUCED, entry 9). -/
inductive DTree where
  | leaf (s : Nat) (f : Nat)
  | node (left right : DTree) (f : Nat)
  | lone (left : DTree) (f : Nat)
deriving DecidableEq, Repr

/-- The components of a valid codec context (10_state.md R45). `freq` lists the keys of the FrequencyTable with their counts,
symbols rising; `code` lists the CodeTable in the order of the tree walk; `distinct` is D and `total` is N
(DEDUCED, entry 8). -/
structure Codec where
  freq : List (Nat × Nat)
  dtree : DTree
  code : List (Nat × Bits)
  distinct : Nat
  total : Nat
deriving DecidableEq, Repr

/-- Buffer memory as the bytes that have been stored since power-on, addresses strictly rising. An unlisted address holds no
stored byte: `State.readByte` reads it as the power-on draw (DESIGN CHOICE, entry 4). -/
abbrev Memory := List Host.Cell

/-- The canonical form: strictly rising addresses. (An unlisted address holds no stored byte and an entry always holds one, so
no entry equals what an unlisted address holds.) -/
abbrev Memory.wf (m : Memory) : Prop := m.Pairwise (fun c d => c.1 < d.1)

/-- The state of the HCE. INVENTORY.md lists each field with its rule and reset value. -/
structure State where
  params : Params
  resetLine : Bool
  phase : Phase
  irqEn : Bool
  done : Bool
  err : Bool
  wbusy : Bool
  errCode : ErrCode
  lastOp : BitVec 4
  srcAddr : Word
  srcLen : Word
  dstAddr : Word
  dstCap : Word
  lzCfg : Word
  cursor : Word
  symSel : Word
  resultLen : Word
  matchOff : Word
  errInfo : Word
  codec : Option Codec
  mem : Memory
  memDraw : Nat
  draws : Nat
  pending : List HostTxn
  answer : Option Word
deriving DecidableEq, Repr

/-- The model's FAULT state (60_exceptions.md R132): host protocol violations, each with no successor. Stopping is safe: the
spec gives no behaviour for them, and a proof must show that a program never reaches one. -/
inductive Fault where
  /-- Raised by a RegRead or RegWrite that is not a 32-bit access at a 4-byte-aligned offset below 0x100 (R132 item 1). Safe. -/
  | badRegAccess
  /-- Raised by a BufRead or BufWrite of a width other than 1, 2 or 4, or past BUF_SIZE (R132 item 2). Safe. -/
  | badBufAccess
  /-- Raised by a BufWrite that touches the source or destination region of the running command (R132 item 3). Safe. -/
  | activeRegionWrite
deriving DecidableEq, Repr

/-- Why the model gives no meaning. No instruction of the HCE is refused. -/
inductive Refusal where
  /-- Raised by an arm of `exec` whose instruction has no meaning yet. Safe: the machine stops. No arm raises it. -/
  | notModelled (mnemonic : String)
deriving DecidableEq, Repr

/-- What a transaction, a command or a step answers. -/
abbrev Outcome := Host.Outcome State Fault Refusal

/-- LZ_CFG after reset: WINDOW = 100, LOOKAHEAD = 8 (10_state.md R31). -/
def lzCfgReset : Word := 0x00080064#32

/-- The state when RESET is released after power-on (70_reset_and_hazards.md R137), for every configuration. The buffer lists
nothing: every byte is draw 0 (DESIGN CHOICE, entries 4, 6). `pending` and `answer` are the model's host port
(DESIGN CHOICE, entry 1). -/
def State.powerOn (p : Params) : State where
  params := p
  resetLine := false
  phase := .idle
  irqEn := false
  done := false
  err := false
  wbusy := false
  errCode := .none
  lastOp := 0#4
  srcAddr := 0#32
  srcLen := 0#32
  dstAddr := 0#32
  dstCap := 0#32
  lzCfg := lzCfgReset
  cursor := 0#32
  symSel := 0#32
  resultLen := 0#32
  matchOff := 0#32
  errInfo := 0#32
  codec := none
  mem := []
  memDraw := 0
  draws := 1
  pending := []
  answer := none

/-- The machine right after reset, in the reference configuration (00_scope.md R10; DESIGN CHOICE, entry 3). -/
def State.reset : State := State.powerOn Params.reference

end Sys2Proof.Machine
end

