-- ==== Sys2Proof/Machine/Flags.lean ====
section
/-! DEFINITION. The status bits: error codes and their information (spec/60_exceptions.md R125 to R127), the STATUS and CTRL
words (spec/10_state.md R24, R25), the W1C bits and the IRQ level (R131). -/

namespace Sys2Proof.Machine

/-- ERR_CODE of an error (60_exceptions.md R125). -/
def ErrCode.value : ErrCode → BitVec 4
  | .none => 0x0#4
  | .illegalCmd => 0x1#4
  | .misaligned => 0x2#4
  | .addrRange => 0x3#4
  | .overlap => 0x4#4
  | .noCodec => 0x5#4
  | .emptyInput => 0x6#4
  | .unknownSymbol => 0x7#4
  | .malformedEncoding => 0x8#4
  | .malformedToken => 0x9#4
  | .dstOverflow => 0xA#4
  | .codeTooLong => 0xB#4
  | .badCursor => 0xC#4

/-- Which operand a common check found at fault (60_exceptions.md R126). -/
inductive Side where
  | source
  | destination
deriving DecidableEq, Repr

/-- `E(info)` of the pseudocode's `raise` (00_scope.md R13): the error with what it reports. -/
inductive CmdError where
  | illegalCmd (w : Word)
  | misaligned (side : Side)
  | addrRange (side : Side)
  | overlap
  | noCodec
  | emptyInput
  | unknownSymbol (index : Nat)
  | malformedEncoding (bit : Nat)
  | malformedToken (index : Nat)
  | dstOverflow (index : Nat)
  | codeTooLong (s : Nat)
  | badCursor (c : Word)
deriving DecidableEq, Repr

/-- 0 for the source, 1 for the destination (60_exceptions.md R126). -/
def Side.value : Side → Word
  | .source => 0#32
  | .destination => 1#32

/-- The error's code (60_exceptions.md R125). -/
def CmdError.code : CmdError → ErrCode
  | .illegalCmd _ => .illegalCmd
  | .misaligned _ => .misaligned
  | .addrRange _ => .addrRange
  | .overlap => .overlap
  | .noCodec => .noCodec
  | .emptyInput => .emptyInput
  | .unknownSymbol _ => .unknownSymbol
  | .malformedEncoding _ => .malformedEncoding
  | .malformedToken _ => .malformedToken
  | .dstOverflow _ => .dstOverflow
  | .codeTooLong _ => .codeTooLong
  | .badCursor _ => .badCursor

/-- ERR_INFO of the error (60_exceptions.md R126). -/
def CmdError.info : CmdError → Word
  | .illegalCmd w => w
  | .misaligned side => side.value
  | .addrRange side => side.value
  | .overlap => 0#32
  | .noCodec => 0#32
  | .emptyInput => 0#32
  | .unknownSymbol i => BitVec.ofNat 32 i
  | .malformedEncoding i => BitVec.ofNat 32 i
  | .malformedToken i => BitVec.ofNat 32 i
  | .dstOverflow i => BitVec.ofNat 32 i
  | .codeTooLong s => BitVec.ofNat 32 s
  | .badCursor c => c

/-- Is the error of class 5 or 6 of 60_exceptions.md R127, raised in a command's body? Classes 1 to 4 are the illegal word and
the common checks. -/
def CmdError.inBody : CmdError → Bool
  | .illegalCmd _ => false
  | .misaligned _ => false
  | .addrRange _ => false
  | .overlap => false
  | .noCodec => true
  | .emptyInput => true
  | .unknownSymbol _ => true
  | .malformedEncoding _ => true
  | .malformedToken _ => true
  | .dstOverflow _ => true
  | .codeTooLong _ => true
  | .badCursor _ => true

/-- STATUS.BUSY: 1 exactly when the phase is BUSY (10_state.md R19). -/
def State.busy (s : State) : Bool :=
  match s.phase with
  | .idle => false
  | .busy _ _ => true

/-- STATUS.CODEC_VALID mirrors the codec's valid bit (10_state.md R45). -/
def State.codecValid (s : State) : Bool := s.codec.isSome

/-- STATUS = BUSY | DONE<<1 | ERR<<2 | CODEC_VALID<<3 | WBUSY<<4 | ERR_CODE<<8 | LAST_OP<<12 (10_state.md R25). -/
def statusWord (s : State) : Word :=
  BitVec.ofNat 32 (s.busy.toNat + s.done.toNat * 2 + s.err.toNat * 4 + s.codecValid.toNat * 8 + s.wbusy.toNat * 16
    + s.errCode.value.toNat * 256 + s.lastOp.toNat * 4096)

/-- CTRL reads IRQ_EN in bit 0; SOFT_RESET and the reserved bits read 0 (40_commands_common.md R81). -/
def ctrlWord (s : State) : Word := BitVec.ofNat 32 s.irqEn.toNat

/-- The IRQ output, a level: STATUS.DONE and CTRL.IRQ_EN (60_exceptions.md R131). -/
def State.irq (s : State) : Bool := s.done && s.irqEn

/-- A write to STATUS clears DONE where bit 1 is 1 and WBUSY where bit 4 is 1 (40_commands_common.md R82). -/
def writeStatus (v : Word) (s : State) : State :=
  { s with done := s.done && !v.getLsbD 1, wbusy := s.wbusy && !v.getLsbD 4 }

/-- A write that BUSY = 1 loses sets WBUSY and changes nothing else (10_state.md R42). -/
def loseWrite (s : State) : State := { s with wbusy := true }

end Sys2Proof.Machine
end

