-- ==== Sys2Proof/Machine/Operands.lean ====
section
/-! DEFINITION. Where a command's operands lie and the common operand checks (spec/40_commands_common.md R86 to R90,
spec/30_encoding.md R70, R71). All bounds are exact numbers (R86): nothing wraps at 2^32. -/

namespace Sys2Proof.Machine

/-- Does the command have a source region? (40_commands_common.md R86) -/
def hasSource : Instr → Bool
  | .nop => false
  | .hbuild => true
  | .henc => true
  | .hdec => true
  | .hdiscard => false
  | .lzc => true
  | .lzd => true
  | .lzmatch => true

/-- Does the command have a destination region? (40_commands_common.md R86) -/
def hasDestination : Instr → Bool
  | .nop => false
  | .hbuild => false
  | .henc => true
  | .hdec => true
  | .hdiscard => false
  | .lzc => true
  | .lzd => true
  | .lzmatch => false

/-- Is the command's source a symbol region? HDEC's is a bitstring (30_encoding.md R71). -/
def symbolSource : Instr → Bool
  | .nop => false
  | .hbuild => true
  | .henc => true
  | .hdec => false
  | .hdiscard => false
  | .lzc => true
  | .lzd => true
  | .lzmatch => true

/-- Is the command's destination a symbol region? HENC's is a bitstring (30_encoding.md R71). -/
def symbolDestination : Instr → Bool
  | .nop => false
  | .hbuild => false
  | .henc => false
  | .hdec => true
  | .hdiscard => false
  | .lzc => true
  | .lzd => true
  | .lzmatch => false

/-- The bytes of the source (30_encoding.md R71): SRC_LEN counts symbols, or bits for HDEC. -/
def sourceBytes (i : Instr) (s : State) : Nat :=
  match i with
  | .nop => 0
  | .hbuild => s.srcLen.toNat * s.params.sb
  | .henc => s.srcLen.toNat * s.params.sb
  | .hdec => (s.srcLen.toNat + 7) / 8
  | .hdiscard => 0
  | .lzc => s.srcLen.toNat * s.params.sb
  | .lzd => s.srcLen.toNat * s.params.sb
  | .lzmatch => s.srcLen.toNat * s.params.sb

/-- Is byte `a` in the interval of `n` bytes at `base`? -/
def inInterval (base n a : Nat) : Bool := decide (base ≤ a) && decide (a < base + n)

/-- Is byte `a` in the command's source region [SRC_ADDR, SRC_ADDR + srcBytes)? (40_commands_common.md R86) -/
def inSource (i : Instr) (s : State) (a : Nat) : Bool :=
  hasSource i && inInterval s.srcAddr.toNat (sourceBytes i s) a

/-- Is byte `a` in the command's destination region [DST_ADDR, DST_ADDR + DST_CAP)? (40_commands_common.md R86) -/
def inDestination (i : Instr) (s : State) (a : Nat) : Bool :=
  hasDestination i && inInterval s.dstAddr.toNat s.dstCap.toNat a

/-- The symbol capacity of the destination, floor(DST_CAP / SB) (30_encoding.md R71). -/
def symbolCapacity (s : State) : Nat := s.dstCap.toNat / s.params.sb

/-- WINDOW = LZ_CFG[15:0] (10_state.md R31, 30_encoding.md R70). -/
def window (s : State) : Nat := (s.lzCfg.extractLsb' 0 16).toNat

/-- LOOKAHEAD = LZ_CFG[23:16] (10_state.md R31, 30_encoding.md R70). -/
def lookahead (s : State) : Nat := (s.lzCfg.extractLsb' 16 8).toNat

/-- SYM = SYM_SEL[SYMBOL_BITS-1:0] (10_state.md R33, 30_encoding.md R70). -/
def selectedSymbol (s : State) : Nat := s.symSel.toNat % s.params.alphabetMax

/-- CheckAlign (40_commands_common.md R87): the source's address, then the destination's. -/
def checkAlign (i : Instr) (s : State) : Option CmdError :=
  if symbolSource i && s.srcAddr.toNat % s.params.sb != 0 then some (.misaligned .source)
  else if symbolDestination i && s.dstAddr.toNat % s.params.sb != 0 then some (.misaligned .destination)
  else none

/-- CheckRange (40_commands_common.md R88): the source region, then the destination region. -/
def checkRange (i : Instr) (s : State) : Option CmdError :=
  if hasSource i && decide (s.params.bufSize < s.srcAddr.toNat + sourceBytes i s) then some (.addrRange .source)
  else if hasDestination i && decide (s.params.bufSize < s.dstAddr.toNat + s.dstCap.toNat) then
    some (.addrRange .destination)
  else none

/-- CheckOverlap (40_commands_common.md R89): two non-empty regions that share a byte. -/
def checkOverlap (i : Instr) (s : State) : Option CmdError :=
  if hasSource i && hasDestination i && decide (0 < sourceBytes i s) && decide (0 < s.dstCap.toNat)
      && decide (s.srcAddr.toNat < s.dstAddr.toNat + s.dstCap.toNat)
      && decide (s.dstAddr.toNat < s.srcAddr.toNat + sourceBytes i s) then
    some .overlap
  else none

/-- The common checks in their fixed order (40_commands_common.md R84, 60_exceptions.md R127): the first error, or none. -/
def commonError (i : Instr) (s : State) : Option CmdError :=
  match checkAlign i s with
  | some e => some e
  | none =>
    match checkRange i s with
    | some e => some e
    | none => checkOverlap i s

end Sys2Proof.Machine
end

