-- ==== Sys2Proof/Machine/Ops.lean ====
section
/-! DEFINITION. The shared operations: buffer memory (spec/00_scope.md R13, spec/20_memory.md), draws of free values,
acceptance (spec/40_commands_common.md R83), `complete` (R85), `raise` (spec/60_exceptions.md R128) and the two resets
(spec/70_reset_and_hazards.md R137, R138). -/

namespace Sys2Proof.Machine

/-- The byte stored at `x` since power-on, if any. -/
def Memory.lookup : Memory → Nat → Option Byte
  | [], _ => none
  | c :: m, x => if c.1 = x then some c.2 else Memory.lookup m x

/-- Store one byte, keeping addresses strictly rising. -/
def Memory.write : Memory → Nat → Byte → Memory
  | [], x, v => [(x, v)]
  | c :: m, x, v =>
    if x < c.1 then (x, v) :: c :: m
    else if c.1 = x then (x, v) :: m
    else c :: Memory.write m x v

/-- Store bytes at `x`, `x + 1`, ... -/
def Memory.writeBytes : Memory → Nat → List Byte → Memory
  | m, _, [] => m
  | m, x, b :: bs => Memory.writeBytes (Memory.write m x b) (x + 1) bs

/-- The byte of buffer memory at `a`: what was stored there, else its power-on draw (70_reset_and_hazards.md R137, 93 V1;
DESIGN CHOICE, entry 4). -/
def State.readByte (s : State) (a : Nat) : Byte := (Memory.lookup s.mem a).getD (Config.freeByte s.memDraw a)

/-- Store bytes at `a`, `a + 1`, ... Every write to buffer memory goes through here. -/
def writeBytes (a : Nat) (bs : List Byte) (s : State) : State := { s with mem := Memory.writeBytes s.mem a bs }

/-- The unsigned number of bytes in little-endian order (20_memory.md R53). -/
def leValue : List Byte → Nat
  | [] => 0
  | b :: bs => b.toNat + 256 * leValue bs

/-- The `n` low bytes of a number in little-endian order (20_memory.md R53). -/
def leBytes : Nat → Nat → List Byte
  | 0, _ => []
  | n + 1, v => BitVec.ofNat 8 v :: leBytes n (v / 256)

/-- The `n` bytes at `a`. -/
def readBytes (s : State) (a n : Nat) : List Byte := (List.range n).map (fun k => s.readByte (a + k))

/-- MemRead (00_scope.md R13). -/
def memRead (s : State) (a n : Nat) : Nat := leValue (readBytes s a n)

/-- MemWrite (00_scope.md R13); it stores v mod 2^(8n) (20_memory.md R52). -/
def memWrite (a n v : Nat) (s : State) : State := writeBytes a (leBytes n v) s

/-- SymRead (00_scope.md R13, 20_memory.md R54; DEDUCED, entry 10). -/
def symRead (s : State) (base i : Nat) : Nat := memRead s (base + i * s.params.sb) s.params.sb

/-- The text of `n` symbols at `base` (20_memory.md R54). -/
def readText (s : State) (base n : Nat) : List Nat := (List.range n).map (symRead s base)

/-- SymWrite of symbols 0, 1, ... at `base` (00_scope.md R13): each stores exactly SYMBOL_BITS bits (40_commands_common.md
R94). -/
def writeText (base : Nat) (text : List Nat) (s : State) : State :=
  writeBytes base (text.flatMap (leBytes s.params.sb)) s

/-- BitRead (00_scope.md R13): bit i is bit 7 - (i mod 8) of byte floor(i/8) (20_memory.md R55). -/
def bitRead (s : State) (base i : Nat) : Bool := (s.readByte (base + i / 8)).getLsbD (7 - i % 8)

/-- The bitstring of `m` bits at `base` (20_memory.md R55). -/
def readBits (s : State) (base m : Nat) : Bits := (List.range m).map (bitRead s base)

/-- Eight bits as a byte, most significant first; a missing bit is 0. -/
def packByte (b : Nat → Bool) : Byte :=
  BitVec.ofNat 8 ((b 0).toNat * 128 + (b 1).toNat * 64 + (b 2).toNat * 32 + (b 3).toNat * 16
    + (b 4).toNat * 8 + (b 5).toNat * 4 + (b 6).toNat * 2 + (b 7).toNat)

/-- A bitstring packed MSB first, ceil(m/8) bytes, the unused low bits of the last byte 0 (20_memory.md R55). -/
def packBits (bits : Bits) : List Byte :=
  (List.range ((bits.length + 7) / 8)).map (fun k => packByte (fun j => bits.getD (8 * k + j) false))

/-- What BitWrite of bits 0, 1, ... and the zero padding leave (41_huffman.md R107, 00_scope.md R14; DEDUCED, entry 12). -/
def writeBits (base : Nat) (bits : Bits) (s : State) : State := writeBytes base (packBits bits) s

/-- The source text of a command: SRC_LEN symbols at SRC_ADDR (40_commands_common.md R94). -/
def sourceText (s : State) : List Nat := readText s s.srcAddr.toNat s.srcLen.toNat

/-- The source bitstring of HDEC: SRC_LEN bits at SRC_ADDR (40_commands_common.md R94). -/
def sourceBits (s : State) : Bits := readBits s s.srcAddr.toNat s.srcLen.toNat

/-- One draw has been taken (DESIGN CHOICE, entry 6). -/
def takeDraw (s : State) : State := { s with draws := s.draws + 1 }

/-- The bytes of draw number `k` at `a`, `a + 1`, ... -/
def freeBytes (k a n : Nat) : List Byte := (List.range n).map (fun j => Config.freeByte k (a + j))

/-- Every byte of [DST_ADDR, DST_ADDR + DST_CAP) becomes any value (60_exceptions.md R128, 93 V2, V3; DESIGN CHOICE, entry 5). -/
def drawDestination (s : State) : State :=
  takeDraw (writeBytes s.dstAddr.toNat (freeBytes s.draws s.dstAddr.toNat s.dstCap.toNat) s)

/-- `complete(n)` (40_commands_common.md R85). ERR and ERR_CODE stay as acceptance left them. -/
def complete (n : Nat) (s : State) : State :=
  { s with resultLen := BitVec.ofNat 32 n, done := true, phase := .idle }

/-- What `raise E(info)` records (60_exceptions.md R128). -/
def recordError (e : CmdError) (s : State) : State :=
  { s with
    resultLen := 0#32, matchOff := 0#32, errInfo := e.info, errCode := e.code, err := true, done := true, phase := .idle }

/-- `raise E(info)` in command `i` (60_exceptions.md R128): a body error of a command with a destination draws it. A failed
HBUILD leaves no codec because its acceptance cleared it. -/
def raise (i : Instr) (e : CmdError) (s : State) : State :=
  recordError e (if e.inBody && hasDestination i then drawDestination s else s)

/-- The acceptance of a command word (40_commands_common.md R83); `wait` is the model's (DESIGN CHOICE, entry 2). -/
def accept (w : Word) (wait : Nat) (s : State) : State :=
  { s with
    done := false, err := false, errCode := .none, lastOp := opField w,
    resultLen := 0#32, matchOff := 0#32, errInfo := 0#32,
    codec := if w = encode .hbuild then none else s.codec,
    phase := .busy w wait }

/-- The value a host transaction returns. -/
def respond (v : Option Word) (s : State) : State := { s with answer := v }

/-- Every register at its value of 70_reset_and_hazards.md R137, the phase IDLE and no codec; the buffer, the configuration,
the RESET input and the model's own fields stay. -/
def resetRegisters (s : State) : State :=
  { State.powerOn s.params with
    resetLine := s.resetLine, mem := s.mem, memDraw := s.memDraw, draws := s.draws, pending := s.pending,
    answer := s.answer }

/-- Power-on reset (70_reset_and_hazards.md R137): resetRegisters, and every byte of the buffer any value: a fresh draw
(DESIGN CHOICE, entry 7). -/
def powerOnReset (line : Bool) (s : State) : State :=
  takeDraw { resetRegisters s with resetLine := line, mem := [], memDraw := s.draws }

/-- The word BUSY holds, decoded: the running command, if it is a legal word (DEDUCED, entry 15). -/
def runningCommand (s : State) : Option Instr :=
  match s.phase with
  | .idle => none
  | .busy w _ => (decodeWord w).toOption

/-- Does a soft reset now abandon a command whose output region is defined? (70_reset_and_hazards.md R138) -/
def abandonsOutput (s : State) : Bool :=
  match runningCommand s with
  | none => false
  | some i => hasDestination i && (commonError i s).isNone

/-- SoftReset() (70_reset_and_hazards.md R138). -/
def softReset (s : State) : State := resetRegisters (if abandonsOutput s then drawDestination s else s)

/-- Execute(w) of a legal word (40_commands_common.md R84): the common checks, then the body. Every body ends in `complete` (it
answers the state left) or in `raise`. -/
def execute (i : Instr) (body : State → Except CmdError State) (s : State) : Outcome :=
  match commonError i s with
  | some e => .next (raise i e s)
  | none =>
    match body s with
    | .ok t => .next t
    | .error e => .next (raise i e s)

end Sys2Proof.Machine
end

