-- ==== Sys2Proof/Machine/Common.lean ====
section
/-! DEFINITION. The two commands with no codec meaning (spec/40_commands_common.md section 4): NOP and an illegal word. -/

namespace Sys2Proof.Machine

/-- NOP's body (40_commands_common.md R91). -/
def nopBody (s : State) : Except CmdError State := .ok (complete 0 s)

/-- NOP (40_commands_common.md R91). -/
def execNop (s : State) : Outcome := execute .nop nopBody s

/-- An illegal word completes with ILLEGAL_CMD and ERR_INFO = the word, and has no other effect (40_commands_common.md R92,
30_encoding.md R73). -/
def execIllegal (w : Word) (s : State) : Outcome := .next (recordError (.illegalCmd w) s)

end Sys2Proof.Machine
end

