-- ==== Sys2Proof/Machine/Huffman.lean ====
section
/-! DEFINITION. The Huffman family (spec/41_huffman.md): symbol counting, the tree builder, the code table, and HBUILD, HENC,
HDEC, HDISCARD. -/

namespace Sys2Proof.Machine

/-- Count one more occurrence of `s`; the table keeps its symbols rising. -/
def bump (s : Nat) : List (Nat × Nat) → List (Nat × Nat)
  | [] => [(s, 1)]
  | e :: t =>
    if s < e.1 then (s, 1) :: e :: t
    else if e.1 = s then (s, e.2 + 1) :: t
    else e :: bump s t

/-- FrequencyAnalyzer (41_huffman.md R96). The table lists its keys, the symbols with a count above 0. -/
def frequencies (text : List Nat) : List (Nat × Nat) := text.foldl (fun t s => bump s t) []

/-- The priority key (f, 0, s) of a leaf or (f, 1, j) of the j-th merge (41_huffman.md R97). -/
structure Key where
  freq : Nat
  kind : Nat
  rank : Nat
deriving DecidableEq, Repr

/-- A node of the builder's collection with its key. -/
structure QNode where
  key : Key
  tree : DTree
deriving DecidableEq, Repr

/-- Lexicographic order of keys (41_huffman.md R97). -/
def Key.less (a b : Key) : Bool :=
  decide (a.freq < b.freq)
    || (a.freq == b.freq && (decide (a.kind < b.kind) || (a.kind == b.kind && decide (a.rank < b.rank))))

/-- The node of a leaf. -/
def leafNode (e : Nat × Nat) : QNode := { key := { freq := e.2, kind := 0, rank := e.1 }, tree := .leaf e.1 e.2 }

/-- The node of the j-th merge: the first node removed is the left child (41_huffman.md R98). -/
def mergeNode (j : Nat) (x y : QNode) : QNode where
  key := { freq := x.key.freq + y.key.freq, kind := 1, rank := j }
  tree := .node x.tree y.tree (x.key.freq + y.key.freq)

/-- Put a node into the collection, kept in key order, so that the node with the least key is the first. -/
def insertNode (z : QNode) : List QNode → List QNode
  | [] => [z]
  | x :: q => if z.key.less x.key then z :: x :: q else x :: insertNode z q

/-- The collection of all leaves (41_huffman.md R98). -/
def leafQueue (freq : List (Nat × Nat)) : List QNode := freq.foldr (fun e q => insertNode (leafNode e) q) []

/-- The merge loop (41_huffman.md R98), from merge `j` on; `fuel` bounds the merges. It answers the only node left, and none
for the empty collection. -/
def mergeAll : Nat → Nat → List QNode → Option DTree
  | _, _, [] => none
  | _, _, [x] => some x.tree
  | 0, _, _ :: _ :: _ => none
  | fuel + 1, j, x :: y :: q => mergeAll fuel (j + 1) (insertNode (mergeNode j x y) q)

/-- BuildTree (41_huffman.md R98): D - 1 merges for D keys; no tree for an empty table. -/
def buildTree (freq : List (Nat × Nat)) : Option DTree := mergeAll freq.length 0 (leafQueue freq)

/-- DecodeTree (41_huffman.md R99): a single leaf gets the virtual root. -/
def decodeTree : DTree → DTree
  | .leaf s f => .lone (.leaf s f) f
  | .node l r f => .node l r f
  | .lone l f => .lone l f

/-- DeriveCodes (41_huffman.md R100), the walk from a node reached by path `p`: left appends 0, right appends 1. -/
def deriveCodes : DTree → Bits → List (Nat × Bits)
  | .leaf s _, p => [(s, p)]
  | .node l r _, p => deriveCodes l (p ++ [false]) ++ deriveCodes r (p ++ [true])
  | .lone l _, p => deriveCodes l (p ++ [false])

/-- freq[s], 0 for a symbol that is no key (10_state.md R45). -/
def freqOf (freq : List (Nat × Nat)) (s : Nat) : Nat := (freq.lookup s).getD 0

/-- code[s]; the table defines it exactly for the keys (10_state.md R45). -/
def codeOf (code : List (Nat × Bits)) (s : Nat) : Bits := (code.lookup s).getD []

/-- The least symbol with a code longer than MAX_CODE_LEN, if there is one (41_huffman.md R101, R105). -/
def tooLongSymbol (freq : List (Nat × Nat)) (code : List (Nat × Bits)) : Option Nat :=
  (freq.find? (fun e => decide (maxCodeLen < (codeOf code e.1).length))).map (fun e => e.1)

/-- The codec of a text (41_huffman.md R105): empty text is EMPTY_INPUT. -/
def buildCodec (text : List Nat) : Except CmdError Codec :=
  match buildTree (frequencies text) with
  | none => .error .emptyInput
  | some t =>
    match tooLongSymbol (frequencies text) (deriveCodes (decodeTree t) []) with
    | some s => .error (.codeTooLong s)
    | none =>
      .ok { freq := frequencies text, dtree := decodeTree t, code := deriveCodes (decodeTree t) [],
            distinct := (frequencies text).length, total := text.length }

/-- HBUILD's body (41_huffman.md R105). -/
def hbuildBody (s : State) : Except CmdError State :=
  match buildCodec (sourceText s) with
  | .error e => .error e
  | .ok c => .ok (complete 0 { s with codec := some c })

/-- HBUILD (41_huffman.md R105). -/
def execHbuild (s : State) : Outcome := execute .hbuild hbuildBody s

/-- HENC's loop (41_huffman.md R107) from symbol `i` on, `m` bits written so far, `limit` = 8 * DST_CAP: the bits still to
write. -/
def encodeText (c : Codec) (limit : Nat) : Nat → Nat → List Nat → Except CmdError Bits
  | _, _, [] => .ok []
  | i, m, s :: rest =>
    if freqOf c.freq s = 0 then .error (.unknownSymbol i)
    else if limit < m + (codeOf c.code s).length then .error (.dstOverflow i)
    else (encodeText c limit (i + 1) (m + (codeOf c.code s).length) rest).map (fun bits => codeOf c.code s ++ bits)

/-- HENC's body (41_huffman.md R106, R107). -/
def hencBody (s : State) : Except CmdError State :=
  match s.codec with
  | none => .error .noCodec
  | some c =>
    match encodeText c (8 * s.dstCap.toNat) 0 0 (sourceText s) with
    | .error e => .error e
    | .ok bits => .ok (complete bits.length (writeBits s.dstAddr.toNat bits s))

/-- HENC (41_huffman.md R107). -/
def execHenc (s : State) : Outcome := execute .henc hencBody s

/-- The child of a decode tree node: 0 is left, 1 is right; none is ABSENT (10_state.md R46). -/
def DTree.child : DTree → Bool → Option DTree
  | .leaf _ _, _ => none
  | .node l _ _, false => some l
  | .node _ r _, true => some r
  | .lone l _, false => some l
  | .lone _ _, true => none

/-- HDEC's loop (41_huffman.md R108) from bit `i` on, `out` symbols written so far: the symbols still to write. `start` is the
first bit of the code in progress, and none at the root (DEDUCED, entry 9). -/
def decodeBits (root : DTree) (cap : Nat) : DTree → Option Nat → Nat → Nat → Bits → Except CmdError (List Nat)
  | _, none, _, _, [] => .ok []
  | _, some st, _, _, [] => .error (.malformedEncoding st)
  | node, start, i, out, b :: rest =>
    match node.child b with
    | none => .error (.malformedEncoding i)
    | some (.leaf s _) =>
      if cap < out + 1 then .error (.dstOverflow (start.getD i))
      else (decodeBits root cap root none (i + 1) (out + 1) rest).map (fun text => s :: text)
    | some next => decodeBits root cap next (some (start.getD i)) (i + 1) out rest

/-- HDEC's body (41_huffman.md R106, R108; DEDUCED, entry 18). -/
def hdecBody (s : State) : Except CmdError State :=
  match s.codec with
  | none => .error .noCodec
  | some c =>
    match decodeBits c.dtree (symbolCapacity s) c.dtree none 0 0 (sourceBits s) with
    | .error e => .error e
    | .ok text => .ok (complete text.length (writeText s.dstAddr.toNat text s))

/-- HDEC (41_huffman.md R108). -/
def execHdec (s : State) : Outcome := execute .hdec hdecBody s

/-- HDISCARD's body (41_huffman.md R110). -/
def hdiscardBody (s : State) : Except CmdError State := .ok (complete 0 { s with codec := none })

/-- HDISCARD (41_huffman.md R110). -/
def execHdiscard (s : State) : Outcome := execute .hdiscard hdiscardBody s

end Sys2Proof.Machine
end

