-- ==== Sys2Proof/Machine/Lz.lean ====
section
/-! DEFINITION. The LZ family (spec/42_lz.md) with the token wire format (spec/30_encoding.md R76 to R78): LZMATCH, LZC, LZD. -/

namespace Sys2Proof.Machine

/-- LB, the symbol '[' (30_encoding.md R78). -/
abbrev symLB : Nat := 0x5B

/-- BAR, the symbol '|' (30_encoding.md R78). -/
abbrev symBar : Nat := 0x7C

/-- RB, the symbol ']' (30_encoding.md R78). -/
abbrev symRB : Nat := 0x5D

/-- The digit '0' (30_encoding.md R78). -/
abbrev symZero : Nat := 0x30

/-- The i-th symbol of a text. -/
def symAt (text : List Nat) (i : Nat) : Nat := text.getD i 0

/-- Do `len` symbols from `p` equal those from `c`? (42_lz.md R116; only the start p lies in the window, R114) -/
def matchesAt (text : List Nat) (c p len : Nat) : Bool :=
  (List.range len).all (fun i => symAt text (p + i) == symAt text (c + i))

/-- The least start in the window [max(0, c - W), c) that matches `len` symbols (42_lz.md R113, R116). -/
def leastStart (text : List Nat) (w c len : Nat) : Option Nat :=
  (List.range' (c - w) (c - (c - w))).find? (fun p => matchesAt text c p len)

/-- The growth loop of `Match(c)` (42_lz.md R116): from a match (k, P), try length k + 1, at most `fuel` more. -/
def growMatch (text : List Nat) (w c : Nat) : Nat → Nat → Nat → Nat × Nat
  | 0, k, p => (k, p)
  | fuel + 1, k, p =>
    match leastStart text w c (k + 1) with
    | none => (k, p)
    | some q => growMatch text w c fuel (k + 1) q

/-- `Match(c)` (42_lz.md R116): (k, P) with k at most kmax = min(L, n - c - 1) (R115). P means nothing when k = 0. -/
def longestMatch (text : List Nat) (w l c : Nat) : Nat × Nat :=
  growMatch text w c (min l (text.length - c - 1)) 0 0

/-- The back-offset c - P of a match, 0 when k = 0 (42_lz.md R117). -/
def matchOffset (c : Nat) (m : Nat × Nat) : Nat := if 1 ≤ m.1 then c - m.2 else 0

/-- LZMATCH's body (42_lz.md R117). -/
def lzmatchBody (s : State) : Except CmdError State :=
  if s.srcLen.toNat ≤ s.cursor.toNat then .error (.badCursor s.cursor)
  else
    let m := longestMatch (sourceText s) (window s) (lookahead s) s.cursor.toNat
    .ok (complete m.1 { s with matchOff := BitVec.ofNat 32 (matchOffset s.cursor.toNat m) })

/-- LZMATCH (42_lz.md R117). -/
def execLzmatch (s : State) : Outcome := execute .lzmatch lzmatchBody s

/-- The token at cursor c (42_lz.md R118). -/
def tokenAt (text : List Nat) (w l c : Nat) : Token :=
  let m := longestMatch text w l c
  { offset := matchOffset c m, length := m.1, literal := symAt text (c + m.1) }

/-- `Compress(T)` (42_lz.md R118) from cursor c on, each token with its cursor; `fuel` bounds the tokens. -/
def compressFrom (text : List Nat) (w l : Nat) : Nat → Nat → List (Token × Nat)
  | 0, _ => []
  | fuel + 1, c =>
    if c < text.length then
      (tokenAt text w l c, c) :: compressFrom text w l fuel (c + (tokenAt text w l c).length + 1)
    else []

/-- `Compress(T)` (42_lz.md R118): every token takes at least one symbol, so |T| bounds them. -/
def compress (text : List Nat) (w l : Nat) : List (Token × Nat) := compressFrom text w l text.length 0

/-- Dec's digits, most significant first, put before `acc`; `fuel` bounds them. -/
def decDigits : Nat → Nat → List Nat → List Nat
  | 0, _, acc => acc
  | fuel + 1, n, acc =>
    if n < 10 then (symZero + n) :: acc
    else decDigits fuel (n / 10) ((symZero + n % 10) :: acc)

/-- Dec: the minimal decimal of a number in digit symbols, "0" for zero (30_encoding.md R77). -/
def decimal (n : Nat) : List Nat := decDigits (n + 1) n []

/-- Record(o, l, x) (42_lz.md R119, 30_encoding.md R76). -/
def record (t : Token) : List Nat :=
  [symLB] ++ decimal t.offset ++ [symBar] ++ decimal t.length ++ [symBar, t.literal, symRB]

/-- LZC's output loop (42_lz.md R119), `out` symbols written so far: the symbols still to write. Some symbol of a record fails
its capacity check exactly when the whole record does not fit (DEDUCED, entry 13). -/
def writeRecords (cap : Nat) : Nat → List (Token × Nat) → Except CmdError (List Nat)
  | _, [] => .ok []
  | out, (t, c) :: rest =>
    if cap < out + (record t).length then .error (.dstOverflow c)
    else (writeRecords cap (out + (record t).length) rest).map (fun syms => record t ++ syms)

/-- LZC's body (42_lz.md R119; DEDUCED, entry 18). -/
def lzcBody (s : State) : Except CmdError State :=
  match writeRecords (symbolCapacity s) 0 (compress (sourceText s) (window s) (lookahead s)) with
  | .error e => .error e
  | .ok stream => .ok (complete stream.length (writeText s.dstAddr.toNat stream s))

/-- LZC (42_lz.md R119). -/
def execLzc (s : State) : Outcome := execute .lzc lzcBody s

/-- Is the symbol a DIGIT? (30_encoding.md R76) -/
def isDigit (x : Nat) : Bool := decide (symZero ≤ x) && decide (x ≤ symZero + 9)

/-- The usual base-10 value of a digit string (30_encoding.md R77). -/
def digitsValue (ds : List Nat) : Nat := ds.foldl (fun v d => 10 * v + (d - symZero)) 0

/-- Expect(x) (42_lz.md R120): the stream after x, none if x does not come next. -/
def expectSym (x : Nat) : List Nat → Option (List Nat)
  | [] => none
  | y :: rest => if y = x then some rest else none

/-- Number() (42_lz.md R120): the value and the stream after it; none for no digit or a value above 2^32 - 1. -/
def parseNumber (stream : List Nat) : Option (Nat × List Nat) :=
  let digits := stream.takeWhile isDigit
  if digits = [] then none
  else if 2 ^ 32 ≤ digitsValue digits then none
  else some (digitsValue digits, stream.dropWhile isDigit)

/-- The literal SYM: any one symbol (42_lz.md R120). -/
def parseLiteral : List Nat → Option (Nat × List Nat)
  | [] => none
  | x :: rest => some (x, rest)

/-- One record `[offset|length|literal]` at the head of the stream, parsed by position (42_lz.md R120). -/
def parseRecord (s0 : List Nat) : Option (Token × List Nat) :=
  (expectSym symLB s0).bind fun s1 =>
  (parseNumber s1).bind fun off =>
  (expectSym symBar off.2).bind fun s2 =>
  (parseNumber s2).bind fun len =>
  (expectSym symBar len.2).bind fun s3 =>
  (parseLiteral s3).bind fun lit =>
  (expectSym symRB lit.2).bind fun s4 =>
  some ({ offset := off.1, length := len.1, literal := lit.1 }, s4)

/-- Parse() (42_lz.md R120) from index `p` of the stream on: the tokens, each with the index of its LB; `fuel` bounds them. -/
def parseStream : Nat → Nat → List Nat → Except CmdError (List (Token × Nat))
  | _, _, [] => .ok []
  | 0, p, _ :: _ => .error (.malformedToken p)
  | fuel + 1, p, x :: xs =>
    match parseRecord (x :: xs) with
    | none => .error (.malformedToken p)
    | some (t, rest) =>
      (parseStream fuel (p + ((x :: xs).length - rest.length)) rest).map (fun toks => (t, p) :: toks)

/-- The live copy (42_lz.md R121): `len` symbols, one by one, from index `s` of the growing output. -/
def copyLive : Nat → Nat → List Nat → List Nat
  | 0, _, out => out
  | len + 1, s, out => copyLive len (s + 1) (out ++ [symAt out s])

/-- Apply(toks) (42_lz.md R121) on the output so far: the whole output. -/
def applyTokens (cap : Nat) : List Nat → List (Token × Nat) → Except CmdError (List Nat)
  | out, [] => .ok out
  | out, (t, t0) :: rest =>
    if t.offset = 0 ∧ t.length = 0 then
      if cap < out.length + 1 then .error (.dstOverflow t0)
      else applyTokens cap (out ++ [t.literal]) rest
    else if t.offset = 0 ∨ out.length < t.offset then .error (.malformedToken t0)
    else if cap < out.length + t.length + 1 then .error (.dstOverflow t0)
    else applyTokens cap (copyLive t.length (out.length - t.offset) out ++ [t.literal]) rest

/-- `decompress` (42_lz.md R122): the whole parse, then the apply phase. -/
def decompress (cap : Nat) (stream : List Nat) : Except CmdError (List Nat) :=
  match parseStream stream.length 0 stream with
  | .error e => .error e
  | .ok toks => applyTokens cap [] toks

/-- LZD's body (42_lz.md R122; DEDUCED, entry 18). It does not read LZ_CFG (R123). -/
def lzdBody (s : State) : Except CmdError State :=
  match decompress (symbolCapacity s) (sourceText s) with
  | .error e => .error e
  | .ok text => .ok (complete text.length (writeText s.dstAddr.toNat text s))

/-- LZD (42_lz.md R122). -/
def execLzd (s : State) : Outcome := execute .lzd lzdBody s

end Sys2Proof.Machine
end

