-- ==== Sys2Proof/Machine/Dispatch.lean ====
section
/-! DEFINITION. The body of each command (spec/40_commands_common.md R84): one arm per constructor of Instr. -/

namespace Sys2Proof.Machine

def exec (i : Instr) (s : State) : Host.Outcome State Fault Refusal :=
  match i with
  | .nop => Sys2Proof.Machine.execNop s
  | .hbuild => Sys2Proof.Machine.execHbuild s
  | .henc => Sys2Proof.Machine.execHenc s
  | .hdec => Sys2Proof.Machine.execHdec s
  | .hdiscard => Sys2Proof.Machine.execHdiscard s
  | .lzc => Sys2Proof.Machine.execLzc s
  | .lzd => Sys2Proof.Machine.execLzd s
  | .lzmatch => Sys2Proof.Machine.execLzmatch s

end Sys2Proof.Machine
end

