-- ==== Sys2Proof/Machine/HostPort.lean ====
section
/-! DEFINITION. The host transactions (spec/40_commands_common.md R81 to R83, spec/20_memory.md R52, R64) and the faults of
spec/60_exceptions.md R132. -/

namespace Sys2Proof.Machine

/-- ID (10_state.md R22). -/
def idWord : Word := 0x48434501#32

/-- PARAM: SYMBOL_BITS in 4:0, LOG2_BUF in 12:8, MAX_CODE_LEN in 23:16 (10_state.md R23). -/
def paramWord (p : Params) : Word := BitVec.ofNat 32 (p.symBits + p.logBuf * 2 ^ 8 + maxCodeLen * 2 ^ 16)

/-- The register map (10_state.md R20). -/
def registerMap : List (Nat × Reg) :=
  [(0x000, .id), (0x004, .param), (0x008, .ctrl), (0x00C, .status), (0x010, .cmd), (0x014, .srcAddr), (0x018, .srcLen),
   (0x01C, .dstAddr), (0x020, .dstCap), (0x024, .lzCfg), (0x028, .cursor), (0x02C, .symSel), (0x030, .resultLen),
   (0x034, .matchOff), (0x038, .errInfo), (0x03C, .alphabet), (0x040, .codecLen), (0x044, .qFreq), (0x048, .qCodeLen),
   (0x04C, .qCodeLo), (0x050, .qCodeHi)]

/-- The register at an offset; none at a reserved offset (10_state.md R20, R21). -/
def registerAt (off : Nat) : Option Reg := registerMap.lookup off

/-- The registers whose value is open while BUSY (10_state.md R43). -/
def openWhileBusy : Reg → Bool
  | .resultLen | .matchOff | .errInfo | .alphabet | .codecLen | .qFreq | .qCodeLen | .qCodeLo | .qCodeHi => true
  | .id | .param | .ctrl | .status | .cmd | .srcAddr | .srcLen | .dstAddr | .dstCap | .lzCfg | .cursor | .symSel => false

/-- b_0 b_1 ... b_(n-1) as a number, b_0 the most significant bit (10_state.md R41). -/
def bitsValue : Bits → Nat
  | [] => 0
  | b :: bs => b.toNat * 2 ^ bs.length + bitsValue bs

/-- The code of the selected symbol; none without a valid codec or for an absent symbol (10_state.md R40, R41). -/
def selectedCode (s : State) : Option Bits :=
  match s.codec with
  | none => none
  | some c => if freqOf c.freq (selectedSymbol s) = 0 then none else some (codeOf c.code (selectedSymbol s))

/-- The value of a register (10_state.md R22 to R41, 40_commands_common.md R81). -/
def regValue (s : State) : Reg → Word
  | .id => idWord
  | .param => paramWord s.params
  | .ctrl => ctrlWord s
  | .status => statusWord s
  | .cmd => 0#32
  | .srcAddr => s.srcAddr
  | .srcLen => s.srcLen
  | .dstAddr => s.dstAddr
  | .dstCap => s.dstCap
  | .lzCfg => s.lzCfg
  | .cursor => s.cursor
  | .symSel => s.symSel
  | .resultLen => s.resultLen
  | .matchOff => s.matchOff
  | .errInfo => s.errInfo
  | .alphabet => BitVec.ofNat 32 ((s.codec.map (fun c => c.distinct)).getD 0)
  | .codecLen => BitVec.ofNat 32 ((s.codec.map (fun c => c.total)).getD 0)
  | .qFreq => BitVec.ofNat 32 ((s.codec.map (fun c => freqOf c.freq (selectedSymbol s))).getD 0)
  | .qCodeLen => BitVec.ofNat 32 ((selectedCode s).getD []).length
  | .qCodeLo => BitVec.ofNat 32 (bitsValue ((selectedCode s).getD []))
  | .qCodeHi => BitVec.ofNat 32 (bitsValue ((selectedCode s).getD []) / 2 ^ 32)

/-- RegRead of a legal access (40_commands_common.md R81): a reserved offset reads 0; a result or query register reads a free
word while BUSY; every other read is exact. -/
def regRead (off : Nat) (s : State) : State :=
  match registerAt off with
  | none => respond (some 0#32) s
  | some r =>
    if openWhileBusy r && s.busy then respond (some (Config.freeWord s.draws)) (takeDraw s)
    else respond (some (regValue s r)) s

/-- CmdWrite (40_commands_common.md R83): lost while BUSY, accepted otherwise. The wait is a free number
(DESIGN CHOICE, entry 2). -/
def cmdWrite (w : Word) (s : State) : State :=
  if s.busy then loseWrite s else accept w (Config.freeWait s.draws) (takeDraw s)

/-- A write to CTRL (10_state.md R24): SOFT_RESET wins over IRQ_EN. -/
def writeCtrl (v : Word) (s : State) : State :=
  if v.getLsbD 1 then softReset s else { s with irqEn := v.getLsbD 0 }

/-- The mask of SYM_SEL's SYM field (10_state.md R33). -/
def symSelMask (p : Params) : Word := BitVec.ofNat 32 (p.alphabetMax - 1)

/-- A write to one register (40_commands_common.md R82): an operand register loses it while BUSY, an RO register ignores it. -/
def writeReg (r : Reg) (v : Word) (s : State) : State :=
  match r with
  | .id => s
  | .param => s
  | .ctrl => writeCtrl v s
  | .status => writeStatus v s
  | .cmd => cmdWrite v s
  | .srcAddr => if s.busy then loseWrite s else { s with srcAddr := v }
  | .srcLen => if s.busy then loseWrite s else { s with srcLen := v }
  | .dstAddr => if s.busy then loseWrite s else { s with dstAddr := v }
  | .dstCap => if s.busy then loseWrite s else { s with dstCap := v }
  | .lzCfg => if s.busy then loseWrite s else { s with lzCfg := v &&& 0x00FFFFFF#32 }
  | .cursor => if s.busy then loseWrite s else { s with cursor := v }
  | .symSel => if s.busy then loseWrite s else { s with symSel := v &&& symSelMask s.params }
  | .resultLen => s
  | .matchOff => s
  | .errInfo => s
  | .alphabet => s
  | .codecLen => s
  | .qFreq => s
  | .qCodeLen => s
  | .qCodeLo => s
  | .qCodeHi => s

/-- RegWrite of a legal access (40_commands_common.md R82): a reserved offset ignores it (10_state.md R21). -/
def regWrite (off : Nat) (v : Word) (s : State) : State :=
  respond none (match registerAt off with
    | none => s
    | some r => writeReg r v s)

/-- Is byte `a` in the running command's destination region? (20_memory.md R64) -/
def activeDestination (s : State) (a : Nat) : Bool :=
  match runningCommand s with
  | none => false
  | some i => inDestination i s a

/-- Is byte `a` in the running command's source or destination region? (20_memory.md R64) -/
def activeRegion (s : State) (a : Nat) : Bool :=
  match runningCommand s with
  | none => false
  | some i => inSource i s a || inDestination i s a

/-- Does a buffer access touch a byte for which `p` holds? -/
def touches (p : Nat → Bool) (addr width : Nat) : Bool := (List.range width).any (fun k => p (addr + k))

/-- BufRead of a legal access (20_memory.md R52, R64): each byte of the running command's destination reads as a free byte,
every other byte as stored (DEDUCED, entry 14). -/
def bufRead (addr width : Nat) (s : State) : State :=
  if touches (activeDestination s) addr width then
    let bytes := (List.range width).map (fun k =>
      if activeDestination s (addr + k) then Config.freeByte s.draws (addr + k) else s.readByte (addr + k))
    respond (some (BitVec.ofNat 32 (leValue bytes))) (takeDraw s)
  else respond (some (BitVec.ofNat 32 (memRead s addr width))) s

/-- BufWrite of a legal access (20_memory.md R52, R64). -/
def bufWrite (addr width : Nat) (v : Word) (s : State) : Outcome :=
  if touches (activeRegion s) addr width then .fault .activeRegionWrite
  else .next (respond none (memWrite addr width v.toNat s))

/-- One host transaction while RESET is released (10_state.md R16, 60_exceptions.md R132; DESIGN CHOICE, entries 7, 16). -/
def hostTxn (t : HostTxn) (s : State) : Outcome :=
  match t with
  | .regRead off width => if legalRegAccess off width then .next (regRead off s) else .fault .badRegAccess
  | .regWrite off width v => if legalRegAccess off width then .next (regWrite off v s) else .fault .badRegAccess
  | .bufRead addr width => if legalBufAccess s.params addr width then .next (bufRead addr width s) else .fault .badBufAccess
  | .bufWrite addr width v =>
    if legalBufAccess s.params addr width then bufWrite addr width v s else .fault .badBufAccess
  | .resetAssert => .next (respond none (powerOnReset true s))
  | .resetRelease => .next (respond none s)

/-- One host transaction while RESET is asserted (70_reset_and_hazards.md R137, 93 F4): all are ignored but the release, which
leaves the state of R137 (DESIGN CHOICE, entry 7). -/
def hostTxnInReset (t : HostTxn) (s : State) : Outcome :=
  match t with
  | .regRead _ _ => .next (respond none s)
  | .regWrite _ _ _ => .next (respond none s)
  | .bufRead _ _ => .next (respond none s)
  | .bufWrite _ _ _ => .next (respond none s)
  | .resetAssert => .next (respond none s)
  | .resetRelease => .next (respond none (powerOnReset false s))

/-- The engine's completion step, Execute(w) (40_commands_common.md R84), given what a legal command does (DEDUCED, entry 19). -/
def completionStep (run : Instr → State → Outcome) (w : Word) (s : State) : Outcome :=
  match decodeWord w with
  | .ok i => run i s
  | .error _ => execIllegal w s

/-- The host's next transaction is taken. While BUSY the engine's wait is one shorter (DESIGN CHOICE, entry 2). -/
def takeTransaction (rest : List HostTxn) (s : State) : State :=
  match s.phase with
  | .idle => { s with pending := rest }
  | .busy w wait => { s with pending := rest, phase := .busy w (wait - 1) }

/-- One step, given what a legal command does. While RESET is asserted only the host moves (70_reset_and_hazards.md R137).
While IDLE the host moves, and with nothing pending the state stays. While BUSY the host moves as long as the wait lasts and
something is pending, and else the engine takes its completion step (40_commands_common.md R84, 70_reset_and_hazards.md R140;
DESIGN CHOICE, entry 2). -/
def stepWith (run : Instr → State → Outcome) (s : State) : Outcome :=
  match s.resetLine, s.phase, s.pending with
  | true, _, [] => .next s
  | true, _, t :: rest => hostTxnInReset t (takeTransaction rest s)
  | false, .idle, [] => .next s
  | false, .idle, t :: rest => hostTxn t (takeTransaction rest s)
  | false, .busy w _, [] => completionStep run w s
  | false, .busy w 0, _ :: _ => completionStep run w s
  | false, .busy _ (_ + 1), t :: rest => hostTxn t (takeTransaction rest s)

/-- The command word `w` has just been accepted, RESET is released, and the completion step comes next
(DESIGN CHOICE, entry 11). -/
def presentWord (w : Word) (s : State) : State := { accept w 0 s with resetLine := false }

end Sys2Proof.Machine
end

