-- ==== Sys2Proof/Machine/Step.lean ====
section
/-! DEFINITION. One step of the HCE: a host transaction or the engine's completion step (spec/10_state.md R15,
spec/20_memory.md R61, spec/70_reset_and_hazards.md R140). -/

namespace Sys2Proof.Machine

/-- One step, every command doing what `exec` says. -/
def step (s : State) : Host.Outcome State Fault Refusal := stepWith exec s

/-- The command word `w` of `nbits` bits has just been accepted and its completion step comes next (DESIGN CHOICE, entry 11). -/
def State.withFetchWord (s : State) (nbits w : Nat) : State := presentWord (BitVec.ofNat 32 (w % 2 ^ nbits)) s

end Sys2Proof.Machine
end

