-- ==== Sys2Proof/Safety.lean ====
section
/-! DEFINITION. What counts as a safe run, the invariant of the HCE, and the words claims are stated in. -/

namespace Sys2Proof.Machine

/-- A run that reaches no fault (60_exceptions.md R132: a program must never reach FAULT) and no refusal, for `n` steps. -/
def SafeFor (n : Nat) (s : State) : Prop := ∃ t, Sys2Proof.core.run n s = .next t

/-- The frequency a decode tree node holds (10_state.md R46). -/
def DTree.weight : DTree → Nat
  | .leaf _ f => f
  | .node _ _ f => f
  | .lone _ f => f

/-- The leaves of a tree, left to right. -/
def DTree.leaves : DTree → List (Nat × Nat)
  | .leaf s f => [(s, f)]
  | .node l r _ => l.leaves ++ r.leaves
  | .lone l _ => l.leaves

/-- A Huffman tree (10_state.md R46): every leaf has frequency at least 1, every node two children and the sum of their
frequencies. -/
def DTree.proper : DTree → Prop
  | .leaf _ f => 1 ≤ f
  | .node l r f => f = l.weight + r.weight ∧ l.proper ∧ r.proper
  | .lone _ _ => False

/-- A decode tree (41_huffman.md R99): a Huffman tree of two leaves or more, or the virtual root over one leaf. -/
def DTree.isDecodeTree : DTree → Prop
  | .leaf _ _ => False
  | .node l r f => (DTree.node l r f).proper
  | .lone l f => ∃ s, l = .leaf s f ∧ 1 ≤ f

/-- What holds of a valid codec context (10_state.md R45 to R47, 41_huffman.md R101). -/
structure CodecOk (p : Params) (c : Codec) : Prop where
  keysRising : c.freq.Pairwise (fun d e => d.1 < e.1)
  countsPositive : ∀ e ∈ c.freq, 0 < e.2
  keysAreSymbols : ∀ e ∈ c.freq, e.1 < p.alphabetMax
  countsSum : (c.freq.map (fun e => e.2)).sum = c.total
  distinctCounts : c.distinct = c.freq.length
  someKey : 1 ≤ c.distinct
  treeShape : c.dtree.isDecodeTree
  treeLeaves : c.dtree.leaves.Perm c.freq
  codeIsPath : c.code = deriveCodes c.dtree []
  codesShort : ∀ e ∈ c.code, e.2.length ≤ maxCodeLen
  textFits : c.total * p.sb ≤ p.bufSize

/-- What acceptance leaves until completion (40_commands_common.md R83): while BUSY no result of an earlier command is left,
LAST_OP is the running word's, and a running HBUILD has no codec. -/
structure BusyOk (w : Word) (s : State) : Prop where
  notDone : s.done = false
  noError : s.errCode = .none
  noLength : s.resultLen = 0#32
  noOffset : s.matchOff = 0#32
  noInfo : s.errInfo = 0#32
  lastOpOfWord : s.lastOp = opField w
  noCodecInBuild : w = encode .hbuild → s.codec = none

/-- The invariant of the HCE: the buffer keeps its canonical form inside BUF_SIZE (20_memory.md R51), reserved register bits
are 0 (10_state.md R21), ERR = 1 exactly when ERR_CODE is not 0 (10_state.md R25), a failed command reports no length
(60_exceptions.md R128), ERR_INFO is 0 without an error (10_state.md R36), acceptance's effects last while BUSY, a valid codec
is a Huffman codec, and nothing runs while RESET is asserted (70_reset_and_hazards.md R137). -/
structure Inv (s : State) : Prop where
  memCanonical : Memory.wf s.mem
  memInRange : ∀ c ∈ s.mem, c.1 < s.params.bufSize
  lzCfgReserved : s.lzCfg.extractLsb' 24 8 = 0#8
  symSelReserved : s.symSel.toNat < s.params.alphabetMax
  errIffCode : s.err = true ↔ s.errCode ≠ .none
  noLengthOnError : s.err = true → s.resultLen = 0#32 ∧ s.matchOff = 0#32
  noInfoOnSuccess : s.err = false → s.errInfo = 0#32
  busyOk : ∀ w wait, s.phase = .busy w wait → BusyOk w s
  codecOk : ∀ c, s.codec = some c → CodecOk s.params c
  quietInReset : s.resetLine = true → s.phase = .idle

/-- The common checks pass (40_commands_common.md R87 to R89), written as arithmetic on the operand registers. -/
structure ChecksPass (i : Instr) (s : State) : Prop where
  sourceAligned : symbolSource i = true → s.srcAddr.toNat % s.params.sb = 0
  destinationAligned : symbolDestination i = true → s.dstAddr.toNat % s.params.sb = 0
  sourceInRange : hasSource i = true → s.srcAddr.toNat + sourceBytes i s ≤ s.params.bufSize
  destinationInRange : hasDestination i = true → s.dstAddr.toNat + s.dstCap.toNat ≤ s.params.bufSize
  noOverlap : hasSource i = true → hasDestination i = true →
    sourceBytes i s = 0 ∨ s.dstCap.toNat = 0 ∨ s.dstAddr.toNat + s.dstCap.toNat ≤ s.srcAddr.toNat ∨
      s.srcAddr.toNat + sourceBytes i s ≤ s.dstAddr.toNat

/-- What `raise E(info)` records (60_exceptions.md R128), written out: RESULT_LEN and MATCH_OFF 0, the error, DONE, IDLE. -/
def failedState (code : ErrCode) (info : Word) (s : State) : State :=
  { s with
    resultLen := 0#32, matchOff := 0#32, errInfo := info, errCode := code, err := true, done := true, phase := .idle }

/-- `t` is what a body error of command `i` with a destination leaves of `s` (60_exceptions.md R128): the record, every
destination byte a fresh draw, every other byte as before. -/
structure FailsDrawn (i : Instr) (s : State) (code : ErrCode) (info : Word) (t : State) : Prop where
  record : t = { failedState code info s with mem := t.mem, draws := s.draws + 1 }
  drawn : ∀ a, inDestination i s a = true → t.readByte a = Config.freeByte s.draws a
  kept : ∀ a, inDestination i s a = false → t.readByte a = s.readByte a

/-- `t` is the success of a command that wrote `n` result units into the bytes [DST_ADDR, DST_ADDR + `bytes`)
(40_commands_common.md R85, 20_memory.md R58): nothing else differs from `s`. -/
structure WroteOutput (s : State) (n bytes : Nat) (t : State) : Prop where
  fields : t = { s with mem := t.mem, resultLen := BitVec.ofNat 32 n, done := true, phase := .idle }
  kept : ∀ a, a < s.dstAddr.toNat ∨ s.dstAddr.toNat + bytes ≤ a → t.readByte a = s.readByte a

/-- `t` is `s` after power-on reset (70_reset_and_hazards.md R137), but for the RESET input itself: every register at its reset
value, no codec, IDLE, every buffer byte a fresh draw. -/
structure PoweredOn (s t : State) : Prop where
  fields : t = { State.powerOn s.params with
    resetLine := t.resetLine, mem := t.mem, memDraw := t.memDraw, draws := s.draws + 1, pending := s.pending, answer := none }
  drawn : ∀ a, t.readByte a = Config.freeByte s.draws a

/-- The host moves next: RESET is released, and the engine is IDLE or still waits (10_state.md R15, entry 2). -/
def HostMoves (s : State) : Prop :=
  s.resetLine = false ∧ (s.phase = .idle ∨ ∃ w k, s.phase = .busy w (k + 1))

/-- The engine takes its completion step next (40_commands_common.md R84, entry 2), for the command word `w`. -/
def EngineMoves (s : State) (w : Word) : Prop :=
  s.resetLine = false ∧ ∃ k, s.phase = .busy w k ∧ (k = 0 ∨ s.pending = [])

/-- A byte of the running command's source or destination region (20_memory.md R64). -/
def ActiveByte (s : State) (a : Nat) : Prop :=
  ∃ w k i, s.phase = .busy w k ∧ decodeWord w = .ok i ∧ (inSource i s a = true ∨ inDestination i s a = true)

/-- A byte of the running command's destination region (20_memory.md R64). -/
def ActiveOutputByte (s : State) (a : Nat) : Prop :=
  ∃ w k i, s.phase = .busy w k ∧ decodeWord w = .ok i ∧ inDestination i s a = true

/-- A width the buffer port takes, below BUF_SIZE (20_memory.md R52). -/
def BufAccessOk (p : Params) (addr width : Nat) : Prop :=
  (width = 1 ∨ width = 2 ∨ width = 4) ∧ addr + width ≤ p.bufSize

/-- A register access the port takes (10_state.md R21). -/
def RegAccessOk (off width : Nat) : Prop := width = 4 ∧ off % 4 = 0 ∧ off < 0x100

/-- The host protocol violations of 60_exceptions.md R132. -/
def Violates (s : State) : HostTxn → Prop
  | .regRead off width => ¬RegAccessOk off width
  | .regWrite off width _ => ¬RegAccessOk off width
  | .bufRead addr width => ¬BufAccessOk s.params addr width
  | .bufWrite addr width _ => ¬BufAccessOk s.params addr width ∨ ∃ k, k < width ∧ ActiveByte s (addr + k)
  | .resetAssert => False
  | .resetRelease => False

/-- The subtree a path reaches (41_huffman.md R100: 0 is left, 1 is right). -/
def DTree.follow : DTree → Bits → Option DTree
  | t, [] => some t
  | .leaf _ _, _ :: _ => none
  | .node l _ _, false :: p => l.follow p
  | .node _ r _, true :: p => r.follow p
  | .lone l _, false :: p => l.follow p
  | .lone _ _, true :: _ => none

/-- The invariants of a codec context (10_state.md R47): the counts sum to N, D >= 1 keys, each key once and with a count above 0,
exactly one leaf (s, freq[s]) for each key, code[s] the path to that leaf and defined exactly for the keys, no code a prefix of
another. -/
structure KeepsCodecInvariants (c : Codec) : Prop where
  countsSum : (c.freq.map (fun e => e.2)).sum = c.total
  distinctCounts : c.distinct = c.freq.length
  someKey : 1 ≤ c.distinct
  keysOnce : c.freq.Pairwise (fun d e => d.1 < e.1)
  countsPositive : ∀ e ∈ c.freq, 0 < e.2
  oneLeafPerKey : c.dtree.leaves.Perm c.freq
  codeIsPath : ∀ x b, (x, b) ∈ c.code → c.dtree.follow b = some (.leaf x (freqOf c.freq x))
  codedExactlyKeys : ∀ x, (∃ b, (x, b) ∈ c.code) ↔ freqOf c.freq x ≠ 0
  noCodeBeginsAnother : ∀ d ∈ c.code, ∀ e ∈ c.code, d.2 <+: e.2 → d = e

/-- `x` is the node of the collection `q` with the least key, and `rest` are the others (41_huffman.md R97, R98: no two nodes have
equal keys). The order of the two lists means nothing. -/
structure TakesLeast (q : List QNode) (x : QNode) (rest : List QNode) : Prop where
  members : q.Perm (x :: rest)
  least : ∀ y ∈ rest, x.key.less y.key = true

/-- `tree` is what the merge loop makes of the collection `q` from the `j`-th merge on (41_huffman.md R98): the two nodes with the
least keys are removed, the first becomes the left child, and the new node has the key (f, 1, j). -/
inductive Merges : Nat → List QNode → DTree → Prop where
  | last (j : Nat) (x : QNode) : Merges j [x] x.tree
  | merge {j : Nat} {q q1 q2 : List QNode} {x y : QNode} {tree : DTree} : TakesLeast q x q1 → TakesLeast q1 y q2 →
      Merges (j + 1) ({ key := { freq := x.key.freq + y.key.freq, kind := 1, rank := j },
                        tree := .node x.tree y.tree (x.key.freq + y.key.freq) } :: q2) tree →
      Merges j q tree

/-- The weighted code length of a code over a frequency table (41_huffman.md R103). -/
def codeCost (freq : List (Nat × Nat)) (code : Nat → Bits) : Nat := (freq.map (fun e => e.2 * (code e.1).length)).sum

/-- `[o|l|x]` with the digit strings `o` and `l` (30_encoding.md R76). -/
def wireRecord (o l : List Nat) (x : Nat) : List Nat := [symLB] ++ o ++ [symBar] ++ l ++ [symBar, x, symRB]

/-- `ds` is a number of the wire format with value `v` (30_encoding.md R76, R77). -/
structure IsNumber (ds : List Nat) (v : Nat) : Prop where
  someDigit : ds ≠ []
  allDigits : ∀ d ∈ ds, 0x30 ≤ d ∧ d ≤ 0x39
  value : ds.foldl (fun a d => 10 * a + (d - 0x30)) 0 = v
  fits : v < 2 ^ 32

/-- `r` is a record of token `t` (30_encoding.md R76). -/
def IsRecord (r : List Nat) (t : Token) : Prop :=
  ∃ o l, IsNumber o t.offset ∧ IsNumber l t.length ∧ r = wireRecord o l t.literal

/-- `stream` is the records of `toks`, each token with the index of its LB, the first at index `p` (30_encoding.md R76,
42_lz.md R120). -/
inductive IsStream : Nat → List Nat → List (Token × Nat) → Prop where
  | nil (p : Nat) : IsStream p [] []
  | cons {p : Nat} {r rest : List Nat} {t : Token} {toks : List (Token × Nat)} :
      IsRecord r t → IsStream (p + r.length) rest toks → IsStream p (r ++ rest) ((t, p) :: toks)

/-- An occurrence at `p` of the `k` symbols at cursor `c`, its start in the window [max(0, c - w), c) (42_lz.md R113,
R114). -/
def Occurs (text : List Nat) (w c p k : Nat) : Prop :=
  c - w ≤ p ∧ p < c ∧ ∀ i, i < k → text.getD (p + i) 0 = text.getD (c + i) 0

/-- `k` is the longest copied length at most kmax = min(l, n - c - 1) with an occurrence, 0 if there is none (42_lz.md R115,
R116). -/
def IsMatchLength (text : List Nat) (w l c k : Nat) : Prop :=
  k ≤ l ∧ k ≤ text.length - c - 1 ∧ (1 ≤ k → ∃ p, Occurs text w c p k) ∧
    ∀ k', k < k' → k' ≤ l → k' ≤ text.length - c - 1 → ¬∃ p, Occurs text w c p k'

/-- `o` is the back-offset reported for length `k`: from the least occurrence for k >= 1, and 0 for k = 0 (42_lz.md R116,
R117). -/
def IsMatchOffset (text : List Nat) (w c k o : Nat) : Prop :=
  (k = 0 → o = 0) ∧
    (1 ≤ k → ∃ p, Occurs text w c p k ∧ (∀ q, Occurs text w c q k → p ≤ q) ∧ o = c - p)

/-- `toks` is Compress(T) from cursor `c` on, each token with its cursor (42_lz.md R118). -/
inductive Compresses (text : List Nat) (w l : Nat) : Nat → List (Token × Nat) → Prop where
  | done {c : Nat} : text.length ≤ c → Compresses text w l c []
  | token {c : Nat} {t : Token} {toks : List (Token × Nat)} :
      c < text.length → IsMatchLength text w l c t.length → IsMatchOffset text w c t.length t.offset →
      t.literal = text.getD (c + t.length) 0 → Compresses text w l (c + t.length + 1) toks →
      Compresses text w l c ((t, c) :: toks)

/-- What one legal token makes of the output `out` (42_lz.md R112, R121): `length` symbols, each the one `offset` positions
back in the growing output, then the literal. -/
structure Expands (out : List Nat) (t : Token) (next : List Nat) : Prop where
  legal : (t.offset = 0 ∧ t.length = 0) ∨ (1 ≤ t.offset ∧ t.offset ≤ out.length)
  newLength : next.length = out.length + t.length + 1
  kept : ∀ j, j < out.length → next.getD j 0 = out.getD j 0
  copied : ∀ j, j < t.length → next.getD (out.length + j) 0 = next.getD (out.length + j - t.offset) 0
  literal : next.getD (out.length + t.length) 0 = t.literal

/-- `final` is what the tokens make of the output `out` (42_lz.md R121). -/
inductive Decompresses : List Nat → List (Token × Nat) → List Nat → Prop where
  | nil (out : List Nat) : Decompresses out [] out
  | cons {out next final : List Nat} {t : Token} {t0 : Nat} {toks : List (Token × Nat)} :
      Expands out t next → Decompresses next toks final → Decompresses out ((t, t0) :: toks) final

end Sys2Proof.Machine
end

