-- ==== Sys2Proof/Certificates/Slice0/Obligations.lean ====
section
/-! DEFINITION. The statements for the provers. Each docstring names the rule of spec/ it formalises. -/

open Sys2Proof Sys2Proof.Machine

/-! ### Command words -/

/-- 30_encoding.md R72: the eight words, and a word selects an instruction exactly when it equals one of them. -/
def Obligations.OpcodeMapExact : Prop :=
  encode .nop = 0x00000000#32 ∧ encode .hbuild = 0x00000001#32 ∧ encode .henc = 0x00000002#32 ∧
  encode .hdec = 0x00000003#32 ∧ encode .hdiscard = 0x00000004#32 ∧ encode .lzc = 0x00000005#32 ∧
  encode .lzd = 0x00000006#32 ∧ encode .lzmatch = 0x00000007#32 ∧
  ∀ (w : Word) (i : Instr), decodeWord w = .ok i ↔ w = encode i

/-- Words written out from the table of 30_encoding.md R72, and two illegal ones. -/
def Obligations.TableWordsDecode : Prop :=
  decodeTableWord 32 0x00000000 = some .nop ∧ decodeTableWord 32 0x00000001 = some .hbuild ∧
  decodeTableWord 32 0x00000003 = some .hdec ∧ decodeTableWord 32 0x00000006 = some .lzd ∧
  decodeTableWord 32 0x00000008 = none ∧ decodeTableWord 32 0x00000011 = none

/-- 30_encoding.md R73: which words are illegal; such a word is accepted, then completes with ILLEGAL_CMD and ERR_INFO = the
word, and has no other effect. -/
def Obligations.IllegalWordsComplete : Prop :=
  (∀ w : Word, (∃ r, decodeWord w = .error r) ↔ (8 ≤ (w.extractLsb' 0 4).toNat ∨ w.extractLsb' 4 28 ≠ 0#28)) ∧
  (∀ (w : Word) (s : State), (8 ≤ (w.extractLsb' 0 4).toNat ∨ w.extractLsb' 4 28 ≠ 0#28) → s.phase = .idle →
    ∃ k, hostTxn (.regWrite 0x010 4 w) s = .next { s with
      phase := .busy w k, done := false, err := false, errCode := .none, lastOp := w.extractLsb' 0 4,
      resultLen := 0#32, matchOff := 0#32, errInfo := 0#32, draws := s.draws + 1, answer := none }) ∧
  (∀ (w : Word) (s : State), (8 ≤ (w.extractLsb' 0 4).toNat ∨ w.extractLsb' 4 28 ≠ 0#28) → EngineMoves s w →
    step s = .next { s with
      resultLen := 0#32, matchOff := 0#32, errInfo := w, errCode := .illegalCmd, err := true, done := true,
      phase := .idle })

/-! ### The step -/

/-- A completion step runs the decoded command (40_commands_common.md R84). -/
def Obligations.StepRunsDecodedCommand : Prop :=
  ∀ (s : State) (w : Word) (i : Instr), EngineMoves s w → decodeWord w = .ok i → step s = exec i s

/-- Otherwise the step takes the host's oldest transaction (20_memory.md R61), the engine's wait one shorter (the model's own
schedule, entry 2), and an IDLE machine with nothing pending stays (the model's choice, entry 1). -/
def Obligations.StepTakesOldestTransaction : Prop :=
  (∀ (s : State) (x : HostTxn) (rest : List HostTxn), s.resetLine = false → s.phase = .idle → s.pending = x :: rest →
    step s = hostTxn x { s with pending := rest }) ∧
  (∀ (s : State) (w : Word) (k : Nat) (x : HostTxn) (rest : List HostTxn), s.resetLine = false →
    s.phase = .busy w (k + 1) → s.pending = x :: rest →
    step s = hostTxn x { s with pending := rest, phase := .busy w k }) ∧
  (∀ s : State, s.resetLine = false → s.phase = .idle → s.pending = [] → step s = .next s)

/-- A presented command word runs in the very next step, for every command and every state it is presented in (entry 11). -/
def Obligations.PresentedWordRunsNext : Prop :=
  ∀ (s : State) (i : Instr),
    step (s.withFetchWord 32 (encode i).toNat) = exec i (s.withFetchWord 32 (encode i).toNat) ∧
    (s.withFetchWord 32 (encode i).toNat).mem = s.mem ∧ (s.withFetchWord 32 (encode i).toNat).srcAddr = s.srcAddr ∧
    (s.withFetchWord 32 (encode i).toNat).srcLen = s.srcLen ∧ (s.withFetchWord 32 (encode i).toNat).dstAddr = s.dstAddr ∧
    (s.withFetchWord 32 (encode i).toNat).dstCap = s.dstCap

/-- 70_reset_and_hazards.md R140, with the bound the model's drawn wait gives (entry 2): a BUSY engine completes, is abandoned by
a reset, or the run faults, within `wait + 1` steps. -/
def Obligations.BusyEngineCompletes : Prop :=
  ∀ (s : State) (w : Word) (wait : Nat), s.resetLine = false → s.phase = .busy w wait →
    ∃ n, n ≤ wait + 1 ∧
      ((∃ t, Sys2Proof.core.run n s = .next t ∧ t.phase = .idle) ∨ (∃ f, Sys2Proof.core.run n s = .fault f))

/-! ### Reset -/

/-- 70_reset_and_hazards.md R137: RESET at any time leaves the reset state; while it is asserted every transaction but the
release is ignored; the release leaves the reset state; the initial state is that state. -/
def Obligations.PowerOnReset : Prop :=
  (∀ s : State, ∃ t, hostTxn .resetAssert s = .next t ∧ t.resetLine = true ∧ PoweredOn s t) ∧
  (∀ (s : State) (x : HostTxn) (rest : List HostTxn), s.resetLine = true → s.phase = .idle → s.pending = x :: rest →
    x ≠ .resetRelease → step s = .next { s with pending := rest, answer := none }) ∧
  (∀ (s : State) (rest : List HostTxn), s.resetLine = true → s.phase = .idle → s.pending = .resetRelease :: rest →
    ∃ t, step s = .next t ∧ t.resetLine = false ∧ PoweredOn { s with pending := rest } t) ∧
  (∀ s : State, s.resetLine = true → s.pending = [] → step s = .next s) ∧
  (∀ p : Params,
    (State.powerOn p).params = p ∧ (State.powerOn p).phase = .idle ∧ (State.powerOn p).resetLine = false ∧
    (State.powerOn p).lzCfg = 0x00080064#32 ∧ (State.powerOn p).codec = none ∧ (State.powerOn p).irq = false ∧
    (State.powerOn p).irqEn = false ∧ statusWord (State.powerOn p) = 0#32 ∧ ctrlWord (State.powerOn p) = 0#32 ∧
    regValue (State.powerOn p) .id = 0x48434501#32 ∧
    regValue (State.powerOn p) .param = BitVec.ofNat 32 (p.symBits + p.logBuf * 0x100 + 64 * 0x10000) ∧
    regValue (State.powerOn Params.reference) .param = 0x00401008#32 ∧
    (State.powerOn p).srcAddr = 0#32 ∧ (State.powerOn p).srcLen = 0#32 ∧ (State.powerOn p).dstAddr = 0#32 ∧
    (State.powerOn p).dstCap = 0#32 ∧ (State.powerOn p).cursor = 0#32 ∧ (State.powerOn p).symSel = 0#32 ∧
    (State.powerOn p).resultLen = 0#32 ∧ (State.powerOn p).matchOff = 0#32 ∧ (State.powerOn p).errInfo = 0#32 ∧
    (∀ r ∈ [Reg.alphabet, .codecLen, .qFreq, .qCodeLen, .qCodeLo, .qCodeHi], regValue (State.powerOn p) r = 0#32) ∧
    ∀ a, (State.powerOn p).readByte a = Config.freeByte (State.powerOn p).memDraw a)

/-- 70_reset_and_hazards.md R138: a write of CTRL with bit 1 = 1, BUSY or not. Every register takes its reset value, the codec
is lost, the phase is IDLE; an abandoned output command whose checks pass has its destination drawn; every other byte stays. -/
def Obligations.SoftResetEffect : Prop :=
  ∀ (s : State) (v : Word), v.getLsbD 1 = true → ∃ t, hostTxn (.regWrite 0x008 4 v) s = .next t ∧
    t = { State.powerOn s.params with
      resetLine := s.resetLine, mem := t.mem, memDraw := s.memDraw, draws := t.draws, pending := s.pending, answer := none } ∧
    (∀ w k i, s.phase = .busy w k → decodeWord w = .ok i → hasDestination i = true → ChecksPass i s →
      ∀ a, inDestination i s a = true → t.readByte a = Config.freeByte s.draws a) ∧
    (∀ a, (¬∃ w k i, s.phase = .busy w k ∧ decodeWord w = .ok i ∧ ChecksPass i s ∧ inDestination i s a = true) →
      t.readByte a = s.readByte a)

/-! ### The register port -/

/-- 40_commands_common.md R81: RegRead of every legal offset, and that it changes nothing but the returned value (and, for a
BUSY-time draw, the model's draw counter); 60_exceptions.md R125: the numbers that STATUS.ERR_CODE reads. -/
def Obligations.RegisterReads : Prop :=
  (ErrCode.none.value = 0x0#4 ∧ ErrCode.illegalCmd.value = 0x1#4 ∧ ErrCode.misaligned.value = 0x2#4 ∧
    ErrCode.addrRange.value = 0x3#4 ∧ ErrCode.overlap.value = 0x4#4 ∧ ErrCode.noCodec.value = 0x5#4 ∧
    ErrCode.emptyInput.value = 0x6#4 ∧ ErrCode.unknownSymbol.value = 0x7#4 ∧ ErrCode.malformedEncoding.value = 0x8#4 ∧
    ErrCode.malformedToken.value = 0x9#4 ∧ ErrCode.dstOverflow.value = 0xA#4 ∧ ErrCode.codeTooLong.value = 0xB#4 ∧
    ErrCode.badCursor.value = 0xC#4) ∧
  ∀ s : State,
    hostTxn (.regRead 0x000 4) s = .next { s with answer := some 0x48434501#32 } ∧
    hostTxn (.regRead 0x004 4) s = .next { s with
      answer := some (BitVec.ofNat 32 (s.params.symBits + s.params.logBuf * 0x100 + 64 * 0x10000)) } ∧
    hostTxn (.regRead 0x008 4) s = .next { s with answer := some (if s.irqEn then 1#32 else 0#32) } ∧
    hostTxn (.regRead 0x00C 4) s = .next { s with answer := some (BitVec.ofNat 32
      ((if s.phase = .idle then 0 else 1) + (if s.done then 0x2 else 0) + (if s.err then 0x4 else 0)
        + (if s.codec = none then 0 else 0x8) + (if s.wbusy then 0x10 else 0)
        + s.errCode.value.toNat * 0x100 + s.lastOp.toNat * 0x1000)) } ∧
    hostTxn (.regRead 0x010 4) s = .next { s with answer := some 0#32 } ∧
    hostTxn (.regRead 0x014 4) s = .next { s with answer := some s.srcAddr } ∧
    hostTxn (.regRead 0x018 4) s = .next { s with answer := some s.srcLen } ∧
    hostTxn (.regRead 0x01C 4) s = .next { s with answer := some s.dstAddr } ∧
    hostTxn (.regRead 0x020 4) s = .next { s with answer := some s.dstCap } ∧
    hostTxn (.regRead 0x024 4) s = .next { s with answer := some s.lzCfg } ∧
    hostTxn (.regRead 0x028 4) s = .next { s with answer := some s.cursor } ∧
    hostTxn (.regRead 0x02C 4) s = .next { s with answer := some s.symSel } ∧
    (∀ off, 0x054 ≤ off → off < 0x100 → off % 4 = 0 →
      hostTxn (.regRead off 4) s = .next { s with answer := some 0#32 }) ∧
    (s.phase = .idle →
      hostTxn (.regRead 0x030 4) s = .next { s with answer := some s.resultLen } ∧
      hostTxn (.regRead 0x034 4) s = .next { s with answer := some s.matchOff } ∧
      hostTxn (.regRead 0x038 4) s = .next { s with answer := some s.errInfo }) ∧
    (s.phase ≠ .idle → ∀ off, 0x030 ≤ off → off ≤ 0x050 → off % 4 = 0 →
      ∃ v, hostTxn (.regRead off 4) s = .next { s with answer := some v, draws := s.draws + 1 })

/-- 10_state.md R37 to R39: ALPHABET, CODEC_LEN and Q_FREQ of an IDLE engine, with and without a valid codec. -/
def Obligations.CodecCountsRead : Prop :=
  (∀ s : State, s.phase = .idle → s.codec = none → ∀ off ∈ [0x03C, 0x040, 0x044, 0x048, 0x04C, 0x050],
    hostTxn (.regRead off 4) s = .next { s with answer := some 0#32 }) ∧
  (∀ (s : State) (c : Codec), Inv s → s.phase = .idle → s.codec = some c →
    ∃ d n f : Word, hostTxn (.regRead 0x03C 4) s = .next { s with answer := some d } ∧
      hostTxn (.regRead 0x040 4) s = .next { s with answer := some n } ∧
      hostTxn (.regRead 0x044 4) s = .next { s with answer := some f } ∧
      d.toNat = c.freq.length ∧ n.toNat = (c.freq.map (fun e => e.2)).sum ∧ f.toNat = freqOf c.freq s.symSel.toNat ∧
      (f = 0#32 ↔ ∀ e ∈ c.freq, e.1 ≠ s.symSel.toNat))

/-- 10_state.md R40, R41: Q_CODELEN, Q_CODE_HI and Q_CODE_LO report the selected symbol's code, right-aligned; its length is 1
to 64; all three read 0 for an absent symbol. -/
def Obligations.QueryRegistersReportCode : Prop :=
  (∀ s : State, s.phase = .idle → (∀ c, s.codec = some c → freqOf c.freq s.symSel.toNat = 0) → Inv s →
    ∀ off ∈ [0x048, 0x04C, 0x050], hostTxn (.regRead off 4) s = .next { s with answer := some 0#32 }) ∧
  (∀ (s : State) (c : Codec), Inv s → s.phase = .idle → s.codec = some c → freqOf c.freq s.symSel.toNat ≠ 0 →
    ∃ n lo hi : Word, hostTxn (.regRead 0x048 4) s = .next { s with answer := some n } ∧
      hostTxn (.regRead 0x04C 4) s = .next { s with answer := some lo } ∧
      hostTxn (.regRead 0x050 4) s = .next { s with answer := some hi } ∧
      n.toNat = (codeOf c.code s.symSel.toNat).length ∧ 1 ≤ n.toNat ∧ n.toNat ≤ 64 ∧
      (∀ j, j < n.toNat → (hi.toNat * 2 ^ 32 + lo.toNat).testBit (n.toNat - 1 - j)
        = (codeOf c.code s.symSel.toNat).getD j false) ∧
      hi.toNat * 2 ^ 32 + lo.toNat < 2 ^ n.toNat)

/-- 40_commands_common.md R82: RegWrite of every legal offset. CMD and SOFT_RESET have their own statements. -/
def Obligations.RegisterWrites : Prop :=
  ∀ (s : State) (v : Word),
    (v.getLsbD 1 = false → hostTxn (.regWrite 0x008 4 v) s = .next { s with irqEn := v.getLsbD 0, answer := none }) ∧
    hostTxn (.regWrite 0x00C 4 v) s = .next { s with
      done := if v.getLsbD 1 then false else s.done, wbusy := if v.getLsbD 4 then false else s.wbusy, answer := none } ∧
    (∀ off ∈ [0x000, 0x004, 0x030, 0x034, 0x038, 0x03C, 0x040, 0x044, 0x048, 0x04C, 0x050],
      hostTxn (.regWrite off 4 v) s = .next { s with answer := none }) ∧
    (∀ off, 0x054 ≤ off → off < 0x100 → off % 4 = 0 →
      hostTxn (.regWrite off 4 v) s = .next { s with answer := none }) ∧
    (s.phase = .idle →
      hostTxn (.regWrite 0x014 4 v) s = .next { s with srcAddr := v, answer := none } ∧
      hostTxn (.regWrite 0x018 4 v) s = .next { s with srcLen := v, answer := none } ∧
      hostTxn (.regWrite 0x01C 4 v) s = .next { s with dstAddr := v, answer := none } ∧
      hostTxn (.regWrite 0x020 4 v) s = .next { s with dstCap := v, answer := none } ∧
      hostTxn (.regWrite 0x024 4 v) s = .next { s with lzCfg := v &&& 0x00FFFFFF#32, answer := none } ∧
      hostTxn (.regWrite 0x028 4 v) s = .next { s with cursor := v, answer := none } ∧
      hostTxn (.regWrite 0x02C 4 v) s = .next { s with
        symSel := BitVec.ofNat 32 (v.toNat % s.params.alphabetMax), answer := none })

/-- 40_commands_common.md R83: CmdWrite. Every word is accepted the same way; only the whole word 0x00000001 clears the codec.
The wait `k` is the model's (entry 2). -/
def Obligations.CommandAcceptance : Prop :=
  (∀ (s : State) (w v : Word) (k : Nat), s.phase = .busy w k →
    hostTxn (.regWrite 0x010 4 v) s = .next { s with wbusy := true, answer := none }) ∧
  (∀ (s : State) (w : Word), s.phase = .idle →
    ∃ k, hostTxn (.regWrite 0x010 4 w) s = .next { s with
      phase := .busy w k, done := false, err := false, errCode := .none, lastOp := w.extractLsb' 0 4,
      resultLen := 0#32, matchOff := 0#32, errInfo := 0#32, codec := if w = 0x00000001#32 then none else s.codec,
      draws := s.draws + 1, answer := none })

/-- 10_state.md R42: while BUSY a write to an operand register or to CMD sets WBUSY and changes nothing else; writes to CTRL and
STATUS act; so no step that leaves the engine BUSY changes an operand. -/
def Obligations.BusyWritesLost : Prop :=
  (∀ (s : State) (w v : Word) (k : Nat), s.phase = .busy w k →
    (∀ off ∈ [0x010, 0x014, 0x018, 0x01C, 0x020, 0x024, 0x028, 0x02C],
      hostTxn (.regWrite off 4 v) s = .next { s with wbusy := true, answer := none }) ∧
    (v.getLsbD 1 = false → hostTxn (.regWrite 0x008 4 v) s = .next { s with irqEn := v.getLsbD 0, answer := none }) ∧
    (v.getLsbD 1 = true → ∃ t, hostTxn (.regWrite 0x008 4 v) s = .next t ∧ t.phase = .idle ∧ t.irqEn = false ∧
      statusWord t = 0#32) ∧
    hostTxn (.regWrite 0x00C 4 v) s = .next { s with
      done := s.done && !v.getLsbD 1, wbusy := s.wbusy && !v.getLsbD 4, answer := none }) ∧
  (∀ (s t : State) (w w' : Word) (k k' : Nat), s.phase = .busy w k → step s = .next t → t.phase = .busy w' k' →
    w' = w ∧ t.srcAddr = s.srcAddr ∧ t.srcLen = s.srcLen ∧ t.dstAddr = s.dstAddr ∧ t.dstCap = s.dstCap ∧
      t.lzCfg = s.lzCfg ∧ t.cursor = s.cursor ∧ t.symSel = s.symSel)

/-! ### Whole-machine rules -/

/-- 10_state.md R19: STATUS.BUSY shows the phase; the phase leaves IDLE only by an accepted CMD write, and leaves BUSY only by
completion or a reset. -/
def Obligations.PhaseChangesOnly : Prop :=
  (∀ s : State, (statusWord s).getLsbD 0 = true ↔ ∃ w k, s.phase = .busy w k) ∧
  (∀ s t : State, step s = .next t →
    (s.phase = .idle → ∀ w k, t.phase = .busy w k →
      s.resetLine = false ∧ ∃ rest, s.pending = .regWrite 0x010 4 w :: rest) ∧
    (∀ w k, s.phase = .busy w k → t.phase = .idle →
      (EngineMoves s w ∧ t.done = true ∧ t.pending = s.pending) ∨
      (∃ v rest, s.pending = .regWrite 0x008 4 v :: rest ∧ v.getLsbD 1 = true) ∨
      (∃ rest, s.pending = .resetAssert :: rest) ∨ (∃ rest, s.pending = .resetRelease :: rest)))

/-- 10_state.md R45: only HBUILD (its acceptance and its completion), HDISCARD and a reset change the codec context. -/
def Obligations.CodecChangesOnly : Prop :=
  ∀ s t : State, step s = .next t → t.codec ≠ s.codec →
    EngineMoves s 0x00000001#32 ∨ EngineMoves s 0x00000004#32 ∨
    (∃ rest, s.pending = .regWrite 0x010 4 0x00000001#32 :: rest) ∨
    (∃ v rest, s.pending = .regWrite 0x008 4 v :: rest ∧ v.getLsbD 1 = true) ∨
    (∃ rest, s.pending = .resetAssert :: rest) ∨ (∃ rest, s.pending = .resetRelease :: rest)

/-- 60_exceptions.md R131: IRQ is DONE and IRQ_EN; when it rises and when it falls, each both ways. -/
def Obligations.IrqRisesAndFalls : Prop :=
  (∀ s : State, s.irq = true ↔ s.done = true ∧ s.irqEn = true) ∧
  (∀ s t : State, step s = .next t → s.irq = false → t.irq = true →
    (∃ w, EngineMoves s w ∧ s.irqEn = true) ∨
    (∃ v rest, s.pending = .regWrite 0x008 4 v :: rest ∧ v.getLsbD 0 = true ∧ v.getLsbD 1 = false ∧ s.done = true)) ∧
  (∀ s t : State, step s = .next t → s.irq = true → t.irq = false →
    (∃ v rest, s.pending = .regWrite 0x00C 4 v :: rest ∧ v.getLsbD 1 = true) ∨
    (∃ v rest, s.pending = .regWrite 0x008 4 v :: rest ∧ (v.getLsbD 0 = false ∨ v.getLsbD 1 = true)) ∨
    (∃ w rest, s.pending = .regWrite 0x010 4 w :: rest ∧ s.phase = .idle) ∨
    (∃ rest, s.pending = .resetAssert :: rest) ∨ (∃ rest, s.pending = .resetRelease :: rest)) ∧
  (∀ (s : State) (w : Word), EngineMoves s w → ∃ t, step s = .next t ∧ t.irq = s.irqEn) ∧
  (∀ (s t : State) (v : Word), hostTxn (.regWrite 0x008 4 v) s = .next t →
    t.irq = (s.done && v.getLsbD 0 && !v.getLsbD 1)) ∧
  (∀ (s t : State) (v : Word), hostTxn (.regWrite 0x00C 4 v) s = .next t → t.irq = (s.irq && !v.getLsbD 1)) ∧
  (∀ (s t : State) (w : Word), s.phase = .idle → hostTxn (.regWrite 0x010 4 w) s = .next t → t.irq = false) ∧
  (∀ s t : State, hostTxn .resetAssert s = .next t → t.irq = false)

/-- No step changes the build-time parameters (00_scope.md R4, 10_state.md R23). -/
def Obligations.ParametersNeverChange : Prop :=
  ∀ s t : State, step s = .next t → t.params = s.params

/-- 60_exceptions.md R132: the machine faults exactly on the three host protocol violations; it never refuses. -/
def Obligations.FaultsExactlyOnViolations : Prop :=
  (∀ s : State, (∃ f, step s = .fault f) ↔ HostMoves s ∧ ∃ x rest, s.pending = x :: rest ∧ Violates s x) ∧
  ∀ (s : State) (r : Refusal), step s ≠ .refused r

/-- The invariant holds after power-on, in every configuration. -/
def Obligations.PowerOnMeetsInvariant : Prop := ∀ p : Params, Inv (State.powerOn p)

/-- Every step keeps the invariant: the buffer's canonical form, the reserved bits (10_state.md R21), ERR exactly when ERR_CODE
is not 0 (R25), acceptance's effects while BUSY (40_commands_common.md R83), and the codec's invariants (R47). -/
def Obligations.StepKeepsInvariant : Prop := ∀ s t : State, Inv s → step s = .next t → Inv t

/-! ### The buffer port -/

/-- 20_memory.md R52, R53 of an IDLE engine: BufRead returns the bytes at addr, little-endian, at any alignment; BufWrite stores
v mod 2^(8n) little-endian at addr and nothing else, and BufRead gives it back. An access out of range or of another width
faults, BUSY or not (which fault it is for a write while BUSY: BusyBufferPort). -/
def Obligations.BufferPortReadsBack : Prop :=
  (∀ (s : State) (addr n : Nat), s.phase = .idle → BufAccessOk s.params addr n →
    ∃ v : Word, hostTxn (.bufRead addr n) s = .next { s with answer := some v } ∧ v.toNat < 2 ^ (8 * n) ∧
      ∀ k, k < n → v.extractLsb' (8 * k) 8 = s.readByte (addr + k)) ∧
  (∀ (s : State) (addr n : Nat) (v : Word), s.phase = .idle → BufAccessOk s.params addr n →
    ∃ t, hostTxn (.bufWrite addr n v) s = .next t ∧ t = { s with mem := t.mem, answer := none } ∧
      (∀ k, k < n → t.readByte (addr + k) = v.extractLsb' (8 * k) 8) ∧
      (∀ a, a < addr ∨ addr + n ≤ a → t.readByte a = s.readByte a) ∧
      hostTxn (.bufRead addr n) t = .next { t with answer := some (BitVec.ofNat 32 (v.toNat % 2 ^ (8 * n))) }) ∧
  (∀ (s : State) (addr n : Nat) (v : Word), ¬BufAccessOk s.params addr n →
    hostTxn (.bufRead addr n) s = .fault .badBufAccess ∧ (∃ f, hostTxn (.bufWrite addr n v) s = .fault f) ∧
    (s.phase = .idle → hostTxn (.bufWrite addr n v) s = .fault .badBufAccess))

/-- 20_memory.md R64: the buffer port while BUSY. Three readings are the model's, not the rule's words: the bytes of a straddling
read outside the destination are the stored ones (entry 14, DEDUCED, unsafe), the regions of a running command count even when its
checks will fail (entry 15, DEDUCED), and an illegal write is `badBufAccess` whatever it touches (entry 16, DEDUCED). -/
def Obligations.BusyBufferPort : Prop :=
  (∀ (s : State) (addr n : Nat), s.phase ≠ .idle → BufAccessOk s.params addr n →
    ((∃ k, k < n ∧ ActiveOutputByte s (addr + k)) →
      ∃ b : Nat → Byte, (∀ k, k < n → ¬ActiveOutputByte s (addr + k) → b k = s.readByte (addr + k)) ∧
        hostTxn (.bufRead addr n) s = .next { s with
          answer := some (BitVec.ofNat 32 (leValue ((List.range n).map b))), draws := s.draws + 1 }) ∧
    ((∀ k, k < n → ¬ActiveOutputByte s (addr + k)) →
      hostTxn (.bufRead addr n) s = .next { s with answer := some (BitVec.ofNat 32 (memRead s addr n)) }) ∧
    (∀ v, (∃ k, k < n ∧ ActiveByte s (addr + k)) → hostTxn (.bufWrite addr n v) s = .fault .activeRegionWrite) ∧
    (∀ v, (∀ k, k < n → ¬ActiveByte s (addr + k)) →
      ∃ t, hostTxn (.bufWrite addr n v) s = .next t ∧ t = { s with mem := t.mem, answer := none } ∧
        memRead t addr n = v.toNat % 2 ^ (8 * n) ∧
        (∀ a, a < addr ∨ addr + n ≤ a → t.readByte a = s.readByte a))) ∧
  (∀ (s : State) (addr n : Nat) (v : Word), s.phase ≠ .idle → ¬BufAccessOk s.params addr n →
    hostTxn (.bufWrite addr n v) s = .fault .badBufAccess)

/-- 20_memory.md R57, for the model's read transactions: a read changes nothing but the returned value and the model's draw
counter, and reading again an IDLE engine returns the same value. -/
def Obligations.ReadsHaveNoSideEffect : Prop :=
  (∀ (s t : State) (off width : Nat), hostTxn (.regRead off width) s = .next t →
    t = { s with answer := t.answer, draws := t.draws } ∧
    (s.phase = .idle → hostTxn (.regRead off width) t = .next t)) ∧
  (∀ (s t : State) (addr width : Nat), hostTxn (.bufRead addr width) s = .next t →
    t = { s with answer := t.answer, draws := t.draws } ∧
    (s.phase = .idle → hostTxn (.bufRead addr width) t = .next t))

/-! ### What every command does -/

/-- 70_reset_and_hazards.md R143, with completion (40_commands_common.md R85, 60_exceptions.md R128): every command ends IDLE
with DONE, and changes no operand register, CTRL, WBUSY or LAST_OP. -/
def Obligations.EveryCommandEndsIdle : Prop :=
  ∀ (i : Instr) (s : State), ∃ t, exec i s = .next t ∧ t.phase = .idle ∧ t.done = true ∧
    t.srcAddr = s.srcAddr ∧ t.srcLen = s.srcLen ∧ t.dstAddr = s.dstAddr ∧ t.dstCap = s.dstCap ∧ t.lzCfg = s.lzCfg ∧
    t.cursor = s.cursor ∧ t.symSel = s.symSel ∧ t.irqEn = s.irqEn ∧ t.wbusy = s.wbusy ∧ t.lastOp = s.lastOp ∧
    t.params = s.params ∧ t.resetLine = s.resetLine ∧ t.pending = s.pending ∧ t.answer = s.answer ∧ t.memDraw = s.memDraw

/-- 20_memory.md R58, the bytes a command may write: none outside its destination region; none at all for a command without
one, or when a common check fails. -/
def Obligations.CommandMemoryFrame : Prop :=
  ∀ (i : Instr) (s t : State), exec i s = .next t →
    (∀ a, inDestination i s a = false → t.readByte a = s.readByte a) ∧
    (i = .nop ∨ i = .hbuild ∨ i = .hdiscard ∨ i = .lzmatch → t.mem = s.mem) ∧
    (¬ChecksPass i s → t.mem = s.mem)

/-- 20_memory.md R58 and 40_commands_common.md R84: a command reads no buffer byte outside its source region. Two states that
agree but for buffer bytes outside the source region end alike, and every byte either stays or becomes the same in both. -/
def Obligations.CommandReadsOnlySource : Prop :=
  ∀ (i : Instr) (s t t' : State) (m : Memory),
    (∀ a, inSource i s a = true → { s with mem := m }.readByte a = s.readByte a) →
    exec i s = .next t → exec i { s with mem := m } = .next t' →
    t' = { t with mem := t'.mem } ∧
    ∀ a, t'.readByte a = t.readByte a ∨ (t.readByte a = s.readByte a ∧ t'.readByte a = { s with mem := m }.readByte a)

/-- 60_exceptions.md R128: a command ends with success, leaving ERR, ERR_CODE and ERR_INFO, or with one error. An illegal word and
an error of the common checks change no byte; a body error of HENC, HDEC, LZC or LZD draws the destination; no error changes the
codec, an operand register, CTRL or WBUSY. -/
def Obligations.ErrorRecording : Prop :=
  (∀ (w : Word) (s : State), execIllegal w s = .next (failedState .illegalCmd w s)) ∧
  (∀ i : Instr, hasDestination i = true ↔ i ∈ [Instr.henc, .hdec, .lzc, .lzd]) ∧
  ∀ (i : Instr) (s : State),
    (¬ChecksPass i s → ∃ code info, code ∈ [ErrCode.misaligned, .addrRange, .overlap] ∧
      exec i s = .next (failedState code info s)) ∧
    (ChecksPass i s → ∃ t, exec i s = .next t ∧
      ((t.err = s.err ∧ t.errCode = s.errCode ∧ t.errInfo = s.errInfo) ∨
       (∃ code info, code ∉ [ErrCode.none, .illegalCmd, .misaligned, .addrRange, .overlap] ∧
         ((hasDestination i = true ∧ FailsDrawn i s code info t) ∨
          (hasDestination i = false ∧ t = failedState code info s)))))

/-- 60_exceptions.md R129: a failed command issued again unchanged gives the same error. -/
def Obligations.ReissueReproducesError : Prop :=
  ∀ (i : Instr) (s t : State) (k : Nat), s.err = false → exec i s = .next t → t.err = true →
    ∃ t', exec i (accept (encode i) k t) = .next t' ∧ t'.err = true ∧ t'.errCode = t.errCode ∧ t'.errInfo = t.errInfo

/-- 40_commands_common.md R87: CheckAlign, first the source then the destination, whatever the lengths; with SB = 1 it never
raises. -/
def Obligations.MisalignedOperands : Prop :=
  (∀ (i : Instr) (s : State), symbolSource i = true → s.srcAddr.toNat % s.params.sb ≠ 0 →
    exec i s = .next (failedState .misaligned 0#32 s)) ∧
  (∀ (i : Instr) (s : State), (symbolSource i = true → s.srcAddr.toNat % s.params.sb = 0) →
    symbolDestination i = true → s.dstAddr.toNat % s.params.sb ≠ 0 → exec i s = .next (failedState .misaligned 1#32 s)) ∧
  (∀ (i : Instr) (s t : State), s.params.sb = 1 → s.errCode ≠ .misaligned → exec i s = .next t → t.errCode ≠ .misaligned) ∧
  (∀ i : Instr, symbolSource i = true ↔ i ∈ [Instr.hbuild, .henc, .lzc, .lzd, .lzmatch]) ∧
  (∀ i : Instr, symbolDestination i = true ↔ i ∈ [Instr.hdec, .lzc, .lzd])

/-- 40_commands_common.md R88: CheckRange after CheckAlign, the source region then the destination region, with exact sums;
regions in range never raise it. -/
def Obligations.RegionsOutOfRange : Prop :=
  (∀ (i : Instr) (s : State), (symbolSource i = true → s.srcAddr.toNat % s.params.sb = 0) →
    (symbolDestination i = true → s.dstAddr.toNat % s.params.sb = 0) →
    (hasSource i = true → s.params.bufSize < s.srcAddr.toNat + sourceBytes i s →
      exec i s = .next (failedState .addrRange 0#32 s)) ∧
    ((hasSource i = true → s.srcAddr.toNat + sourceBytes i s ≤ s.params.bufSize) → hasDestination i = true →
      s.params.bufSize < s.dstAddr.toNat + s.dstCap.toNat → exec i s = .next (failedState .addrRange 1#32 s))) ∧
  (∀ (i : Instr) (s t : State), (hasSource i = true → s.srcAddr.toNat + sourceBytes i s ≤ s.params.bufSize) →
    (hasDestination i = true → s.dstAddr.toNat + s.dstCap.toNat ≤ s.params.bufSize) → s.errCode ≠ .addrRange →
    exec i s = .next t → t.errCode ≠ .addrRange) ∧
  (∀ i : Instr, hasSource i = true ↔ i ∈ [Instr.hbuild, .henc, .hdec, .lzc, .lzd, .lzmatch]) ∧
  (∀ i : Instr, hasDestination i = true ↔ i ∈ [Instr.henc, .hdec, .lzc, .lzd]) ∧
  (∀ s : State, sourceBytes .hdec s = (s.srcLen.toNat + 7) / 8 ∧
    ∀ i ∈ [Instr.hbuild, .henc, .lzc, .lzd, .lzmatch], sourceBytes i s = s.srcLen.toNat * s.params.sb)

/-- 40_commands_common.md R89: CheckOverlap after the other checks: both regions non-empty and sharing a byte, on the whole
destination capacity; regions that share none never raise it. -/
def Obligations.OverlappingRegions : Prop :=
  (∀ (i : Instr) (s : State), hasSource i = true → hasDestination i = true →
    (symbolSource i = true → s.srcAddr.toNat % s.params.sb = 0) →
    (symbolDestination i = true → s.dstAddr.toNat % s.params.sb = 0) →
    s.srcAddr.toNat + sourceBytes i s ≤ s.params.bufSize → s.dstAddr.toNat + s.dstCap.toNat ≤ s.params.bufSize →
    (∃ a, inSource i s a = true ∧ inDestination i s a = true) →
    exec i s = .next (failedState .overlap 0#32 s)) ∧
  (∀ (i : Instr) (s t : State), (¬∃ a, inSource i s a = true ∧ inDestination i s a = true) → s.errCode ≠ .overlap →
    exec i s = .next t → t.errCode ≠ .overlap) ∧
  (∀ (i : Instr) (s : State) (a : Nat), inSource i s a = true ↔
    hasSource i = true ∧ s.srcAddr.toNat ≤ a ∧ a < s.srcAddr.toNat + sourceBytes i s) ∧
  (∀ (i : Instr) (s : State) (a : Nat), inDestination i s a = true ↔
    hasDestination i = true ∧ s.dstAddr.toNat ≤ a ∧ a < s.dstAddr.toNat + s.dstCap.toNat)

/-- 10_state.md R50 and 40_commands_common.md R84: no command reads CTRL, SYM_SEL, a result register, the model's schedule, or a
status bit other than CODEC_VALID, which HENC and HDEC test (NoCodecFails; the other commands: CommandsReadListedOperands).
Whatever those fields hold, the command ends the same way: BUSY and DONE are overwritten, IRQ_EN, WBUSY, LAST_OP and SYM_SEL stay;
a failure overwrites ERR, ERR_CODE and the result registers, and a success leaves ERR, ERR_CODE and ERR_INFO as they were,
overwrites RESULT_LEN, and LZMATCH's also MATCH_OFF. (`s.err = false`, as acceptance leaves it, lets `t.err` tell a failure.) -/
def Obligations.CommandsIgnoreStatus : Prop :=
  (∀ (i : Instr) (s t : State) (irqEn done wbusy : Bool) (lastOp : BitVec 4) (symSel : Word) (phase : Phase)
    (pending : List HostTxn), exec i s = .next t →
    exec i { s with
      irqEn := irqEn, done := done, wbusy := wbusy, lastOp := lastOp, symSel := symSel, phase := phase, pending := pending } =
    .next { t with irqEn := irqEn, wbusy := wbusy, lastOp := lastOp, symSel := symSel, pending := pending }) ∧
  (∀ (i : Instr) (s t : State) (err : Bool) (code : ErrCode) (info len off : Word), s.err = false → exec i s = .next t →
    exec i { s with err := err, errCode := code, errInfo := info, resultLen := len, matchOff := off } =
    .next (if t.err then t else { t with
      err := err, errCode := code, errInfo := info, matchOff := if i = .lzmatch then t.matchOff else off }))

/-- 10_state.md R44, R32: what a command does not read: CURSOR for all but LZMATCH, LZ_CFG for all but LZC and LZMATCH, the
destination for a command without one, the source for NOP and HDISCARD, and the codec context for all but HENC and HDEC. A failed
HBUILD keeps the codec it found (none, after its acceptance), a successful one and HDISCARD replace it. -/
def Obligations.CommandsReadListedOperands : Prop :=
  (∀ (i : Instr) (s t : State) (v : Word), i ≠ .lzmatch → exec i s = .next t →
    exec i { s with cursor := v } = .next { t with cursor := v }) ∧
  (∀ (i : Instr) (s t : State) (v : Word), i ≠ .lzc → i ≠ .lzmatch → exec i s = .next t →
    exec i { s with lzCfg := v } = .next { t with lzCfg := v }) ∧
  (∀ (i : Instr) (s t : State) (v w : Word), i ∈ [Instr.nop, .hbuild, .hdiscard, .lzmatch] → exec i s = .next t →
    exec i { s with dstAddr := v, dstCap := w } = .next { t with dstAddr := v, dstCap := w }) ∧
  (∀ (i : Instr) (s t : State) (v w : Word), i ∈ [Instr.nop, .hdiscard] → exec i s = .next t →
    exec i { s with srcAddr := v, srcLen := w } = .next { t with srcAddr := v, srcLen := w }) ∧
  (∀ (i : Instr) (s t : State) (c : Option Codec), i ∈ [Instr.nop, .lzc, .lzd, .lzmatch] → exec i s = .next t →
    exec i { s with codec := c } = .next { t with codec := c }) ∧
  (∀ (s t : State) (c : Option Codec), exec .hdiscard s = .next t → exec .hdiscard { s with codec := c } = .next t) ∧
  (∀ (s t : State) (c : Option Codec), s.err = false → exec .hbuild s = .next t →
    exec .hbuild { s with codec := c } = .next (if t.err then { t with codec := c } else t))

/-! ### NOP and the Huffman family -/

/-- 40_commands_common.md R91: NOP, from acceptance to completion, in every state. -/
def Obligations.NopCompletes : Prop :=
  decodeWord 0x00000000#32 = .ok .nop ∧
  (∀ s : State, exec .nop s = .next { s with resultLen := 0#32, done := true, phase := .idle }) ∧
  (∀ (s : State) (k : Nat), exec .nop (accept 0x00000000#32 k s) = .next { s with
    done := true, err := false, errCode := .none, lastOp := 0#4, resultLen := 0#32, matchOff := 0#32, errInfo := 0#32,
    phase := .idle }) ∧
  (∃ t, Sys2Proof.core.run 2 { State.reset with pending := [.regWrite 0x010 4 0x00000000#32] } = .next t ∧
    statusWord t = 0x00000002#32 ∧ t.resultLen = 0#32)

/-- 41_huffman.md R96: the frequency table counts the symbols of the text, and the counts sum to its length. -/
def Obligations.FrequencyTableCounts : Prop :=
  ∀ text : List Nat,
    (∀ x, freqOf (frequencies text) x = text.count x) ∧
    ((frequencies text).map (fun e => e.2)).sum = text.length ∧
    (∀ x, x ∈ text ↔ ∃ f, 0 < f ∧ (x, f) ∈ frequencies text) ∧
    (frequencies text).Pairwise (fun d e => d.1 < e.1)

/-- 41_huffman.md R97, R98: the builder. A leaf (s, f) has the key (f, 0, s) and the j-th merge's node (f, 1, j), the order is
frequency, then leaf before merged node, then rank. The builder starts from the leaves at merge 0; its collection always has the
node with the least key at its head, since it starts in key order and putting a node in keeps its members and its order; each
merge takes the two nodes at the head, the first as left child; the last node is the tree. (TreeFollowsMergeRule says the same
of the result, apart from this collection.) -/
def Obligations.BuilderTakesLeastKeys : Prop :=
  (∀ freq : List (Nat × Nat), buildTree freq = mergeAll freq.length 0 (leafQueue freq)) ∧
  (∀ e : Nat × Nat, leafNode e = { key := { freq := e.2, kind := 0, rank := e.1 }, tree := .leaf e.1 e.2 }) ∧
  (∀ freq : List (Nat × Nat), (leafQueue freq).Perm (freq.map leafNode) ∧
    (leafQueue freq).Pairwise (fun a b => b.key.less a.key = false)) ∧
  (∀ (z : QNode) (q : List QNode), q.Pairwise (fun a b => b.key.less a.key = false) →
    (insertNode z q).Perm (z :: q) ∧ (insertNode z q).Pairwise (fun a b => b.key.less a.key = false)) ∧
  (∀ (fuel j : Nat) (x y : QNode) (q : List QNode),
    mergeAll (fuel + 1) j (x :: y :: q) = mergeAll fuel (j + 1) (insertNode
      { key := { freq := x.key.freq + y.key.freq, kind := 1, rank := j },
        tree := .node x.tree y.tree (x.key.freq + y.key.freq) } q)) ∧
  (∀ (fuel j : Nat) (x : QNode), mergeAll fuel j [x] = some x.tree) ∧
  (∀ a b : Key, a.less b = true ↔
    a.freq < b.freq ∨ (a.freq = b.freq ∧ (a.kind < b.kind ∨ (a.kind = b.kind ∧ a.rank < b.rank))))

/-- 10_state.md R47: the invariants of a codec: of every one HBUILD makes, and of the one any state that meets `Inv` holds. -/
def Obligations.BuiltCodecInvariants : Prop :=
  (∀ (text : List Nat) (c : Codec), buildCodec text = .ok c →
    c.total = text.length ∧ KeepsCodecInvariants c ∧ ∀ x, freqOf c.freq x = text.count x) ∧
  (∀ (s : State) (c : Codec), Inv s → s.codec = some c → KeepsCodecInvariants c)

/-- 41_huffman.md R102: no code in the table of a valid codec is a prefix of another code in it: for a built codec by the symbols
of its text, and for the codec of any state that meets `Inv` by its keys. -/
def Obligations.CodesArePrefixFree : Prop :=
  (∀ (text : List Nat) (c : Codec), buildCodec text = .ok c → ∀ x ∈ text, ∀ y ∈ text, x ≠ y →
    ¬(codeOf c.code x <+: codeOf c.code y)) ∧
  (∀ (s : State) (c : Codec), Inv s → s.codec = some c → ∀ x y, freqOf c.freq x ≠ 0 → freqOf c.freq y ≠ 0 → x ≠ y →
    ¬(codeOf c.code x <+: codeOf c.code y))

/-- 41_huffman.md R103: the built code minimises the weighted code length among all prefix codes over the same keys; for one
distinct symbol the sum is the length of the text. -/
def Obligations.CodeIsOptimal : Prop :=
  ∀ (text : List Nat) (c : Codec), buildCodec text = .ok c →
    (∀ g : Nat → Bits, 2 ≤ c.distinct →
      (∀ x ∈ text, ∀ y ∈ text, x ≠ y → ¬(g x <+: g y)) → codeCost c.freq (codeOf c.code) ≤ codeCost c.freq g) ∧
    (c.distinct = 1 → codeCost c.freq (codeOf c.code) = text.length)

/-- 41_huffman.md R99: a text of one distinct symbol gets the code "0", by a virtual root whose right child is absent. -/
def Obligations.SingleSymbolGetsCodeZero : Prop :=
  ∀ (x n : Nat), buildCodec (List.replicate (n + 1) x) = .ok
    { freq := [(x, n + 1)], dtree := .lone (.leaf x (n + 1)) (n + 1), code := [(x, [false])], distinct := 1, total := n + 1 }

/-- 41_huffman.md R105: HBUILD. EMPTY_INPUT for no text; else the tree exists, and with no code above 64 bits HBUILD stores the
codec of the text and changes nothing else. The check behind CODE_TOO_LONG finds the least key whose code is above 64 bits. -/
def Obligations.HbuildBuildsCodec : Prop :=
  (∀ s : State, ChecksPass .hbuild s → s.srcLen = 0#32 → exec .hbuild s = .next (failedState .emptyInput 0#32 s)) ∧
  (∀ s : State, ChecksPass .hbuild s → s.srcLen ≠ 0#32 → ∃ tree,
    buildTree (frequencies (sourceText s)) = some tree ∧
    ((∀ e ∈ deriveCodes (decodeTree tree) [], e.2.length ≤ 64) →
      exec .hbuild s = .next { s with
        codec := some
          { freq := frequencies (sourceText s), dtree := decodeTree tree, code := deriveCodes (decodeTree tree) [],
            distinct := (frequencies (sourceText s)).length, total := s.srcLen.toNat },
        resultLen := 0#32, done := true, phase := .idle })) ∧
  (∀ (freq : List (Nat × Nat)) (code : List (Nat × Bits)) (x : Nat), freq.Pairwise (fun d e => d.1 < e.1) →
    (tooLongSymbol freq code = some x ↔
      x ∈ freq.map (fun e => e.1) ∧ 64 < (codeOf code x).length ∧
        ∀ e ∈ freq, 64 < (codeOf code e.1).length → x ≤ e.1)) ∧
  (∀ (text : List Nat) (tree : DTree), buildTree (frequencies text) = some tree →
    buildCodec text = match tooLongSymbol (frequencies text) (deriveCodes (decodeTree tree) []) with
      | some x => .error (.codeTooLong x)
      | none => .ok
          { freq := frequencies text, dtree := decodeTree tree, code := deriveCodes (decodeTree tree) [],
            distinct := (frequencies text).length, total := text.length })

/-- 41_huffman.md R101: under the BUF_SIZE limit CODE_TOO_LONG does not occur: an HBUILD of a non-empty text whose checks pass
succeeds. -/
def Obligations.CodeTooLongNeverOccurs : Prop :=
  (∀ text : List Nat, text ≠ [] → text.length < 2 ^ 31 → ∃ c, buildCodec text = .ok c) ∧
  (∀ s : State, ChecksPass .hbuild s → s.srcLen ≠ 0#32 → ∃ c, exec .hbuild s = .next { s with
    codec := some c, resultLen := 0#32, done := true, phase := .idle })

/-- 41_huffman.md R106: HENC and HDEC without a valid codec fail with NO_CODEC after the common checks, even for SRC_LEN = 0. -/
def Obligations.NoCodecFails : Prop :=
  ∀ (i : Instr) (s : State), i = .henc ∨ i = .hdec → ChecksPass i s → s.codec = none →
    ∃ t, exec i s = .next t ∧ FailsDrawn i s .noCodec 0#32 t

/-- 41_huffman.md R107: HENC writes the codes of the source text one after the other, MSB first, zero padding, exactly
ceil(m/8) bytes, RESULT_LEN = m; the first symbol that is unknown or does not fit is reported. -/
def Obligations.HencEncodes : Prop :=
  (∀ (s : State) (c : Codec), ChecksPass .henc s → s.codec = some c → (∀ x ∈ sourceText s, freqOf c.freq x ≠ 0) →
    ((sourceText s).flatMap (codeOf c.code)).length ≤ 8 * s.dstCap.toNat →
    ∃ t, exec .henc s = .next t ∧
      WroteOutput s ((sourceText s).flatMap (codeOf c.code)).length
        ((((sourceText s).flatMap (codeOf c.code)).length + 7) / 8) t ∧
      (∀ j, j < 8 * ((((sourceText s).flatMap (codeOf c.code)).length + 7) / 8) →
        bitRead t s.dstAddr.toNat j = ((sourceText s).flatMap (codeOf c.code)).getD j false)) ∧
  (∀ (s : State) (c : Codec) (pre post : List Nat) (x : Nat), ChecksPass .henc s → s.codec = some c →
    sourceText s = pre ++ x :: post → (∀ y ∈ pre, freqOf c.freq y ≠ 0) →
    (pre.flatMap (codeOf c.code)).length ≤ 8 * s.dstCap.toNat →
    (freqOf c.freq x = 0 →
      ∃ t, exec .henc s = .next t ∧ FailsDrawn .henc s .unknownSymbol (BitVec.ofNat 32 pre.length) t) ∧
    (freqOf c.freq x ≠ 0 → 8 * s.dstCap.toNat < (pre.flatMap (codeOf c.code)).length + (codeOf c.code x).length →
      ∃ t, exec .henc s = .next t ∧ FailsDrawn .henc s .dstOverflow (BitVec.ofNat 32 pre.length) t))

/-- 41_huffman.md R108: HDEC of codes gives back their symbols; bits that end inside a code, a bit with no child and an output
that does not fit are reported. -/
def Obligations.HdecDecodes : Prop :=
  ∀ (s : State) (c : Codec) (text : List Nat), ChecksPass .hdec s → s.codec = some c → CodecOk s.params c →
    (∀ x ∈ text, freqOf c.freq x ≠ 0) → text.length ≤ s.dstCap.toNat / s.params.sb →
    (sourceBits s = text.flatMap (codeOf c.code) →
      ∃ t, exec .hdec s = .next t ∧ WroteOutput s text.length (text.length * s.params.sb) t ∧
        readText t s.dstAddr.toNat text.length = text) ∧
    (∀ x part, freqOf c.freq x ≠ 0 → part <+: codeOf c.code x → part ≠ codeOf c.code x → part ≠ [] →
      sourceBits s = text.flatMap (codeOf c.code) ++ part →
      ∃ t, exec .hdec s = .next t ∧
        FailsDrawn .hdec s .malformedEncoding (BitVec.ofNat 32 (text.flatMap (codeOf c.code)).length) t) ∧
    (∀ rest, c.distinct = 1 → sourceBits s = text.flatMap (codeOf c.code) ++ true :: rest →
      ∃ t, exec .hdec s = .next t ∧
        FailsDrawn .hdec s .malformedEncoding (BitVec.ofNat 32 (text.flatMap (codeOf c.code)).length) t) ∧
    (∀ x rest, freqOf c.freq x ≠ 0 → s.dstCap.toNat / s.params.sb < text.length + 1 →
      sourceBits s = text.flatMap (codeOf c.code) ++ (codeOf c.code x ++ rest) →
      ∃ t, exec .hdec s = .next t ∧
        FailsDrawn .hdec s .dstOverflow (BitVec.ofNat 32 (text.flatMap (codeOf c.code)).length) t)

/-- 41_huffman.md R109: after a successful HBUILD, with its codec, HDEC of what a successful HENC made of a text U gives U back,
from any operand registers that name the bits and a large enough destination that passes the checks. (HENC's success says that
U's symbols are keys.) -/
def Obligations.HuffmanRoundTrip : Prop :=
  ∀ b a s t u : State, exec .hbuild b = .next a → a.err = false → s.codec = a.codec →
    exec .henc s = .next t → t.err = false →
    u = { t with srcAddr := s.dstAddr, srcLen := t.resultLen, dstAddr := u.dstAddr, dstCap := u.dstCap } →
    ChecksPass .hdec u → s.srcLen.toNat * s.params.sb ≤ u.dstCap.toNat →
    ∃ v, exec .hdec u = .next v ∧ v.err = false ∧ v.resultLen = s.srcLen ∧
      readText v u.dstAddr.toNat s.srcLen.toNat = sourceText s

/-- 41_huffman.md R110: HDISCARD; afterwards the codec registers read 0 and HENC and HDEC fail with NO_CODEC. -/
def Obligations.HdiscardClearsCodec : Prop :=
  decodeWord 0x00000004#32 = .ok .hdiscard ∧
  ∀ s : State, ∃ t, exec .hdiscard s = .next t ∧
    t = { s with codec := none, resultLen := 0#32, done := true, phase := .idle } ∧
    (∀ off ∈ [0x03C, 0x040, 0x044, 0x048, 0x04C, 0x050],
      hostTxn (.regRead off 4) t = .next { t with answer := some 0#32 }) ∧
    (∀ i, i = .henc ∨ i = .hdec → ChecksPass i t → ∃ u, exec i t = .next u ∧ u.errCode = .noCodec ∧ u.errInfo = 0#32)

/-! ### The LZ family -/

/-- 42_lz.md R116, R117: LZMATCH reports the longest copied length at most min(L, n - c - 1) with a start in the window, and the
back-offset of its least start; a cursor at or past the end is BAD_CURSOR. -/
def Obligations.LzmatchFindsLongest : Prop :=
  (∀ s : State, ChecksPass .lzmatch s → s.srcLen.toNat ≤ s.cursor.toNat →
    exec .lzmatch s = .next (failedState .badCursor s.cursor s)) ∧
  (∀ s : State, ChecksPass .lzmatch s → s.cursor.toNat < s.srcLen.toNat →
    ∃ k o : Nat, exec .lzmatch s = .next { s with
        resultLen := BitVec.ofNat 32 k, matchOff := BitVec.ofNat 32 o, done := true, phase := .idle } ∧
      IsMatchLength (sourceText s) (s.lzCfg.toNat % 2 ^ 16) (s.lzCfg.toNat / 2 ^ 16 % 2 ^ 8) s.cursor.toNat k ∧
      IsMatchOffset (sourceText s) (s.lzCfg.toNat % 2 ^ 16) s.cursor.toNat k o ∧ k < 2 ^ 32 ∧ o < 2 ^ 32)

/-- 42_lz.md R118, R119: LZC writes the records of Compress(T), exactly RESULT_LEN symbols; the first token whose record does
not fit is reported by its cursor. A record is `[o|l|x]` with both numbers in the encoder's decimal (DecimalNumbers) and
the symbols of 30_encoding.md R76, R78. -/
def Obligations.LzcWritesRecords : Prop :=
  (∀ t : Token, record t = wireRecord (decimal t.offset) (decimal t.length) t.literal) ∧
  (∀ (o l : List Nat) (x : Nat), wireRecord o l x = [0x5B] ++ o ++ [0x7C] ++ l ++ [0x7C, x, 0x5D]) ∧
  ∀ (s : State) (toks : List (Token × Nat)), ChecksPass .lzc s →
    Compresses (sourceText s) (s.lzCfg.toNat % 2 ^ 16) (s.lzCfg.toNat / 2 ^ 16 % 2 ^ 8) 0 toks →
    ((toks.flatMap (fun e => record e.1)).length ≤ s.dstCap.toNat / s.params.sb →
      ∃ t, exec .lzc s = .next t ∧
        WroteOutput s (toks.flatMap (fun e => record e.1)).length
          ((toks.flatMap (fun e => record e.1)).length * s.params.sb) t ∧
        readText t s.dstAddr.toNat (toks.flatMap (fun e => record e.1)).length = toks.flatMap (fun e => record e.1)) ∧
    (∀ pre post x c, toks = pre ++ (x, c) :: post →
      (pre.flatMap (fun e => record e.1)).length ≤ s.dstCap.toNat / s.params.sb →
      s.dstCap.toNat / s.params.sb < (pre.flatMap (fun e => record e.1)).length + (record x).length →
      ∃ t, exec .lzc s = .next t ∧ FailsDrawn .lzc s .dstOverflow (BitVec.ofNat 32 c) t)

/-- 42_lz.md R118: every text compresses, to one sequence of tokens, each a raw literal or a back-reference inside the window and
the lookahead; LZC's loop computes it. -/
def Obligations.CompressIsTotalAndBounded : Prop :=
  ∀ (text : List Nat) (w l : Nat),
    Compresses text w l 0 (compress text w l) ∧
    (∀ toks, Compresses text w l 0 toks → toks = compress text w l) ∧
    ∀ e ∈ compress text w l, (e.1.offset = 0 ∧ e.1.length = 0) ∨
      (1 ≤ e.1.offset ∧ e.1.offset ≤ w ∧ 1 ≤ e.1.length ∧ e.1.length ≤ l)

/-- 30_encoding.md R77: the encoder writes the shortest digit string of a number; the decoder takes any digit string of a value
up to 2^32 - 1, leading zeros too, followed by any symbol that is no digit, and no other. -/
def Obligations.DecimalNumbers : Prop :=
  (∀ n, n < 2 ^ 32 → IsNumber (decimal n) n ∧ ∀ ds, IsNumber ds n → (decimal n).length ≤ ds.length) ∧
  (∀ ds v x rest, IsNumber ds v → (x < 0x30 ∨ 0x39 < x) → parseNumber (ds ++ x :: rest) = some (v, x :: rest)) ∧
  (∀ s v rest, parseNumber s = some (v, rest) →
    ∃ ds, IsNumber ds v ∧ s = ds ++ rest ∧ ∀ x ∈ rest.head?, x < 0x30 ∨ 0x39 < x)

/-- 42_lz.md R120: the parse phase accepts exactly the streams of the grammar of 30_encoding.md R76, gives each token the index
of its LB, and reports the index of the first record that is malformed. -/
def Obligations.ParseMatchesGrammar : Prop :=
  (∀ stream toks, parseStream stream.length 0 stream = .ok toks ↔ IsStream 0 stream toks) ∧
  (∀ good toks rest, IsStream 0 good toks → rest ≠ [] → (∀ r t rest', IsRecord r t → rest ≠ r ++ rest') →
    parseStream (good ++ rest).length 0 (good ++ rest) = .error (.malformedToken good.length))

/-- 42_lz.md R121, R122: LZD of a stream of legal tokens writes what they expand to, with the live copy; the first token that is
illegal or does not fit is reported by the index of its LB; so is a malformed record, before any of them. -/
def Obligations.LzdExpandsTokens : Prop :=
  (∀ (s : State) (toks : List (Token × Nat)) (final : List Nat), ChecksPass .lzd s →
    IsStream 0 (sourceText s) toks → Decompresses [] toks final → final.length ≤ s.dstCap.toNat / s.params.sb →
    ∃ t, exec .lzd s = .next t ∧ WroteOutput s final.length (final.length * s.params.sb) t ∧
      readText t s.dstAddr.toNat final.length = final) ∧
  (∀ (s : State) (pre post : List (Token × Nat)) (x : Token) (p : Nat) (mid : List Nat), ChecksPass .lzd s →
    IsStream 0 (sourceText s) (pre ++ (x, p) :: post) → Decompresses [] pre mid →
    mid.length ≤ s.dstCap.toNat / s.params.sb →
    ((x.offset = 0 ∧ x.length ≠ 0) ∨ mid.length < x.offset →
      ∃ t, exec .lzd s = .next t ∧ FailsDrawn .lzd s .malformedToken (BitVec.ofNat 32 p) t) ∧
    ((x.offset = 0 ∧ x.length = 0) ∨ (1 ≤ x.offset ∧ x.offset ≤ mid.length) →
      s.dstCap.toNat / s.params.sb < mid.length + x.length + 1 →
      ∃ t, exec .lzd s = .next t ∧ FailsDrawn .lzd s .dstOverflow (BitVec.ofNat 32 p) t)) ∧
  (∀ (s : State) (good rest : List Nat) (toks : List (Token × Nat)), ChecksPass .lzd s →
    sourceText s = good ++ rest → IsStream 0 good toks → rest ≠ [] →
    (∀ r t rest', IsRecord r t → rest ≠ r ++ rest') →
    ∃ t, exec .lzd s = .next t ∧ FailsDrawn .lzd s .malformedToken (BitVec.ofNat 32 good.length) t)

/-- 42_lz.md R123: LZD does not depend on LZ_CFG. -/
def Obligations.LzdIgnoresLzCfg : Prop :=
  ∀ (s t : State) (v : Word), exec .lzd s = .next t → exec .lzd { s with lzCfg := v } = .next { t with lzCfg := v }

/-- 42_lz.md R124: LZD of the stream LZC made of a text, for any window and lookahead, gives the text back, from any operand
registers that name the stream and a large enough destination that passes the checks. -/
def Obligations.LzRoundTrip : Prop :=
  ∀ s t u : State, exec .lzc s = .next t → t.err = false →
    u = { t with
      srcAddr := s.dstAddr, srcLen := t.resultLen, dstAddr := u.dstAddr, dstCap := u.dstCap, lzCfg := u.lzCfg } →
    ChecksPass .lzd u → s.srcLen.toNat * s.params.sb ≤ u.dstCap.toNat →
    ∃ v, exec .lzd u = .next v ∧ v.err = false ∧ v.resultLen = s.srcLen ∧
      readText v u.dstAddr.toNat s.srcLen.toNat = sourceText s

/-! ### The exact tree, and which errors a command can report -/

/-- 41_huffman.md R98 with R97's order, R104: the tree of a table is the one tree that repeatedly merging the two nodes with the
least keys can give, from the leaves on; so the exact code bits are fixed. -/
def Obligations.TreeFollowsMergeRule : Prop :=
  ∀ freq : List (Nat × Nat), freq ≠ [] → freq.Pairwise (fun d e => d.1 < e.1) → ∃ tree,
    buildTree freq = some tree ∧
    Merges 0 (freq.map (fun e => { key := { freq := e.2, kind := 0, rank := e.1 }, tree := .leaf e.1 e.2 })) tree ∧
    ∀ other, Merges 0 (freq.map (fun e => { key := { freq := e.2, kind := 0, rank := e.1 }, tree := .leaf e.1 e.2 })) other →
      other = tree

/-- 60_exceptions.md R125, the column 'raised by': the error codes each command can leave. -/
def Obligations.ErrorsOfEachCommand : Prop :=
  ∀ (i : Instr) (s t : State), exec i s = .next t → s.errCode = .none →
    match i with
    | .nop => t.errCode = .none
    | .hbuild => t.errCode ∈ [ErrCode.none, .misaligned, .addrRange, .emptyInput, .codeTooLong]
    | .henc => t.errCode ∈ [ErrCode.none, .misaligned, .addrRange, .overlap, .noCodec, .unknownSymbol, .dstOverflow]
    | .hdec => t.errCode ∈ [ErrCode.none, .misaligned, .addrRange, .overlap, .noCodec, .malformedEncoding, .dstOverflow]
    | .hdiscard => t.errCode = .none
    | .lzc => t.errCode ∈ [ErrCode.none, .misaligned, .addrRange, .overlap, .dstOverflow]
    | .lzd => t.errCode ∈ [ErrCode.none, .misaligned, .addrRange, .overlap, .malformedToken, .dstOverflow]
    | .lzmatch => t.errCode ∈ [ErrCode.none, .misaligned, .addrRange, .badCursor]
end

