-- ==== Sys2Proof/Laws/Memory.lean ====
section
/-! SUPPORT. Buffer memory: reads after writes, frames, the canonical form, and the symbol and bit layouts. -/

namespace Sys2Proof.Machine

theorem Memory.lookup_write (m : Memory) (x : Nat) (v : Byte) (y : Nat) :
    Memory.lookup (Memory.write m x v) y = if y = x then some v else Memory.lookup m y := by
  induction m with
  | nil => simp [Memory.write, Memory.lookup, eq_comm (a := x)]
  | cons c m ih =>
    by_cases hy : y = x
    · subst hy
      simp only [Memory.write]
      split_ifs <;> simp_all [Memory.lookup]
    · simp only [Memory.write, if_neg hy] at ih ⊢
      split_ifs with h1 h2
      · simp [Memory.lookup, Ne.symm hy]
      · simp [Memory.lookup, h2, Ne.symm hy]
      · simp [Memory.lookup, ih]

theorem Memory.mem_write {m : Memory} {x : Nat} {v : Byte} {c : Host.Cell} (h : c ∈ Memory.write m x v) :
    c = (x, v) ∨ c ∈ m := by
  induction m with
  | nil => simpa [Memory.write] using h
  | cons d m ih =>
    simp only [Memory.write] at h
    split_ifs at h
    · simpa using h
    · rcases List.mem_cons.1 h with h | h
      · exact .inl h
      · exact .inr (List.mem_cons_of_mem _ h)
    · rcases List.mem_cons.1 h with h | h
      · exact .inr (h ▸ List.mem_cons_self)
      · rcases ih h with h | h
        · exact .inl h
        · exact .inr (List.mem_cons_of_mem _ h)

theorem Memory.write_wf {m : Memory} (h : Memory.wf m) (x : Nat) (v : Byte) : Memory.wf (Memory.write m x v) := by
  induction m with
  | nil => simp [Memory.write]
  | cons c m ih =>
    obtain ⟨hc, hm⟩ := List.pairwise_cons.1 h
    simp only [Memory.write]
    split_ifs with h1 h2
    · refine List.pairwise_cons.2 ⟨fun d hd => ?_, h⟩
      rcases List.mem_cons.1 hd with rfl | hd
      · exact h1
      · exact lt_trans h1 (hc d hd)
    · exact List.pairwise_cons.2 ⟨fun d hd => h2 ▸ hc d hd, hm⟩
    · refine List.pairwise_cons.2 ⟨fun d hd => ?_, ih hm⟩
      rcases Memory.mem_write hd with rfl | hd
      · exact lt_of_le_of_ne (not_lt.1 h1) h2
      · exact hc d hd

theorem Memory.writeBytes_wf {m : Memory} (h : Memory.wf m) (x : Nat) (bs : List Byte) :
    Memory.wf (Memory.writeBytes m x bs) := by
  induction bs generalizing m x with
  | nil => exact h
  | cons b bs ih => exact ih (Memory.write_wf h x b) (x + 1)

theorem Memory.mem_writeBytes {m : Memory} {x : Nat} {bs : List Byte} {c : Host.Cell}
    (h : c ∈ Memory.writeBytes m x bs) : (x ≤ c.1 ∧ c.1 < x + bs.length) ∨ c ∈ m := by
  induction bs generalizing m x with
  | nil => exact .inr h
  | cons b bs ih =>
    rcases ih h with h | h
    · simp only [List.length_cons]; omega
    · rcases Memory.mem_write h with rfl | h
      · simp
      · exact .inr h

theorem Memory.lookup_writeBytes (m : Memory) (x : Nat) (bs : List Byte) (y : Nat) :
    Memory.lookup (Memory.writeBytes m x bs) y =
      if x ≤ y ∧ y < x + bs.length then some (bs.getD (y - x) 0) else Memory.lookup m y := by
  induction bs generalizing m x with
  | nil => simp [Memory.writeBytes]
  | cons b bs ih =>
    rw [Memory.writeBytes, ih, Memory.lookup_write]
    by_cases hy : y = x
    · subst hy; simp
    · by_cases hr : x ≤ y ∧ y < x + (bs.length + 1)
      · obtain ⟨k, rfl⟩ : ∃ k, y = x + (k + 1) := ⟨y - x - 1, by omega⟩
        have e : x + (k + 1) - (x + 1) = k := by omega
        have e' : x + (k + 1) - x = k + 1 := by omega
        simp only [List.length_cons, if_pos hr, e, e', List.getD_cons_succ]
        rw [if_pos (by omega)]
      · simp only [List.length_cons, if_neg hr, if_neg hy]
        rw [if_neg (by omega)]

theorem Memory.lookup_eq_none {m : Memory} {x : Nat} (h : ∀ c ∈ m, c.1 ≠ x) : Memory.lookup m x = none := by
  induction m with
  | nil => rfl
  | cons c m ih =>
    rw [Memory.lookup, if_neg (h c List.mem_cons_self)]
    exact ih fun d hd => h d (List.mem_cons_of_mem _ hd)

/-- Equal memories are equal data. -/
theorem Memory.ext_lookup {m m' : Memory} (h : Memory.wf m) (h' : Memory.wf m')
    (e : ∀ x, Memory.lookup m x = Memory.lookup m' x) : m = m' := by
  induction m generalizing m' with
  | nil =>
    cases m' with
    | nil => rfl
    | cons c m' => have := e c.1; simp [Memory.lookup] at this
  | cons c m ih =>
    cases m' with
    | nil => have := e c.1; simp [Memory.lookup] at this
    | cons d m' =>
      obtain ⟨hc, hm⟩ := List.pairwise_cons.1 h
      obtain ⟨hd, hm'⟩ := List.pairwise_cons.1 h'
      have key : c.1 = d.1 := by
        rcases lt_trichotomy c.1 d.1 with hlt | heq | hgt
        · have := e c.1
          rw [Memory.lookup, if_pos rfl, Memory.lookup_eq_none] at this
          · simp at this
          · intro b hb
            rcases List.mem_cons.1 hb with rfl | hb
            · omega
            · have := hd b hb; omega
        · exact heq
        · have := e d.1
          rw [Memory.lookup_eq_none, Memory.lookup, if_pos rfl] at this
          · simp at this
          · intro b hb
            rcases List.mem_cons.1 hb with rfl | hb
            · omega
            · have := hc b hb; omega
      have hval : c.2 = d.2 := by have := e c.1; simpa [Memory.lookup, key] using this
      have hcd : c = d := Prod.ext key hval
      subst hcd
      congr 1
      refine ih hm hm' fun x => ?_
      have := e x
      simp only [Memory.lookup] at this
      by_cases hx : c.1 = x
      · subst hx
        rw [Memory.lookup_eq_none fun b hb => (hc b hb).ne', Memory.lookup_eq_none fun b hb => (hd b hb).ne']
      · simpa [hx] using this

/-! ### Bytes -/

theorem readByte_writeBytes (a : Nat) (bs : List Byte) (s : State) (x : Nat) :
    (writeBytes a bs s).readByte x = if a ≤ x ∧ x < a + bs.length then bs.getD (x - a) 0 else s.readByte x := by
  simp only [State.readByte, writeBytes, Memory.lookup_writeBytes]
  split_ifs <;> rfl

theorem readByte_writeBytes_outside {a : Nat} {bs : List Byte} {s : State} {x : Nat}
    (h : x < a ∨ a + bs.length ≤ x) : (writeBytes a bs s).readByte x = s.readByte x := by
  rw [readByte_writeBytes, if_neg (by omega)]

theorem readByte_writeBytes_inside {a : Nat} {bs : List Byte} {s : State} {k : Nat} (h : k < bs.length) :
    (writeBytes a bs s).readByte (a + k) = bs[k] := by
  rw [readByte_writeBytes, if_pos (by omega), Nat.add_sub_cancel_left, List.getD_eq_getElem _ _ h]

/-- A read sees only the bytes it covers. -/
theorem readBytes_congr {s t : State} {a n : Nat} (h : ∀ k, k < n → s.readByte (a + k) = t.readByte (a + k)) :
    readBytes s a n = readBytes t a n := by
  simp only [readBytes]
  exact List.map_congr_left fun k hk => h k (List.mem_range.1 hk)

theorem memRead_congr {s t : State} {a n : Nat} (h : ∀ k, k < n → s.readByte (a + k) = t.readByte (a + k)) :
    memRead s a n = memRead t a n := by rw [memRead, memRead, readBytes_congr h]

@[simp] theorem length_readBytes (s : State) (a n : Nat) : (readBytes s a n).length = n := by simp [readBytes]

@[simp] theorem length_leBytes (n v : Nat) : (leBytes n v).length = n := by
  induction n generalizing v with
  | zero => rfl
  | succ n ih => simp [leBytes, ih]

theorem leValue_lt (bs : List Byte) : leValue bs < 256 ^ bs.length := by
  induction bs with
  | nil => simp [leValue]
  | cons b bs ih =>
    have := b.isLt
    simp only [leValue, List.length_cons, pow_succ]
    omega

theorem leValue_leBytes (n v : Nat) : leValue (leBytes n v) = v % 256 ^ n := by
  induction n generalizing v with
  | zero => simp [leBytes, leValue, Nat.mod_one]
  | succ n ih =>
    rw [leBytes, leValue, ih, BitVec.toNat_ofNat, pow_succ' 256, Nat.mod_mul]

/-- Byte k of a little-endian number. -/
theorem getElem_leBytes (n v k : Nat) (h : k < n) : (leBytes n v)[k]'(by simpa using h) = BitVec.ofNat 8 (v / 256 ^ k) := by
  induction n generalizing v k with
  | zero => omega
  | succ n ih =>
    cases k with
    | zero => simp [leBytes]
    | succ k =>
      simp only [leBytes, List.getElem_cons_succ]
      rw [ih _ _ (by omega), Nat.div_div_eq_div_mul, pow_succ']

theorem readBytes_writeBytes (a : Nat) (bs : List Byte) (s : State) (i n : Nat) (h : i + n ≤ bs.length) :
    readBytes (writeBytes a bs s) (a + i) n = (bs.drop i).take n := by
  apply List.ext_getElem
  · simp; omega
  · intro k h1 h2
    have hk : k < n := by simpa using h1
    have : a + i + k = a + (i + k) := by omega
    simp [readBytes, this, readByte_writeBytes_inside (show i + k < bs.length by omega)]

theorem memRead_memWrite (a n v : Nat) (s : State) : memRead (memWrite a n v s) a n = v % 256 ^ n := by
  have := readBytes_writeBytes a (leBytes n v) s 0 n (by simp)
  rw [memRead, memWrite, ← leValue_leBytes]
  simpa [List.take_of_length_le] using congrArg leValue this

theorem readByte_memWrite_outside {a n v : Nat} {s : State} {x : Nat} (h : x < a ∨ a + n ≤ x) :
    (memWrite a n v s).readByte x = s.readByte x :=
  readByte_writeBytes_outside (by simpa using h)

/-! ### Symbols -/

@[simp] theorem sb_pos (p : Params) : 0 < p.sb := by unfold Params.sb; split <;> decide

theorem alphabetMax_eq (p : Params) : p.alphabetMax = 256 ^ p.sb := by
  simp only [Params.alphabetMax, Params.symBits, Params.sb]
  split <;> rfl

theorem symRead_lt (s : State) (base i : Nat) : symRead s base i < s.params.alphabetMax := by
  rw [alphabetMax_eq]
  simpa [symRead, memRead] using leValue_lt (readBytes s (base + i * s.params.sb) s.params.sb)

@[simp] theorem length_readText (s : State) (base n : Nat) : (readText s base n).length = n := by simp [readText]

theorem readText_lt {s : State} {base n : Nat} {x : Nat} (h : x ∈ readText s base n) : x < s.params.alphabetMax := by
  obtain ⟨i, _, rfl⟩ := List.mem_map.1 h
  exact symRead_lt s base i

@[simp] theorem length_flatMap_leBytes (n : Nat) (text : List Nat) :
    (text.flatMap (leBytes n)).length = text.length * n := by
  induction text with
  | nil => simp
  | cons x xs ih => simp [ih, Nat.succ_mul]; omega

theorem drop_take_flatMap_leBytes (n : Nat) (text : List Nat) (k : Nat) (h : k < text.length) :
    ((text.flatMap (leBytes n)).drop (k * n)).take n = leBytes n text[k] := by
  induction text generalizing k with
  | nil => simp at h
  | cons x xs ih =>
    cases k with
    | zero => simp
    | succ k =>
      have hk : k < xs.length := by simpa using h
      have : (k + 1) * n = (leBytes n x).length + k * n := by rw [length_leBytes]; ring
      rw [List.flatMap_cons, this, List.drop_length_add_append, List.getElem_cons_succ, ← ih k hk]

theorem readByte_writeText_outside {base : Nat} {text : List Nat} {s : State} {x : Nat}
    (h : x < base ∨ base + text.length * s.params.sb ≤ x) : (writeText base text s).readByte x = s.readByte x :=
  readByte_writeBytes_outside (by simpa using h)

theorem symRead_writeText {base : Nat} {text : List Nat} {s : State} {k : Nat} (h : k < text.length) :
    symRead (writeText base text s) base k = text[k] % s.params.alphabetMax := by
  have hsb : (writeText base text s).params = s.params := rfl
  have hle : k * s.params.sb + s.params.sb ≤ (text.flatMap (leBytes s.params.sb)).length := by
    rw [length_flatMap_leBytes]; nlinarith [sb_pos s.params]
  rw [symRead, memRead, hsb, writeText, readBytes_writeBytes _ _ _ _ _ hle, drop_take_flatMap_leBytes _ _ _ h,
    leValue_leBytes, alphabetMax_eq]

theorem readText_writeText {base : Nat} {text : List Nat} {s : State} (h : ∀ x ∈ text, x < s.params.alphabetMax) :
    readText (writeText base text s) base text.length = text := by
  apply List.ext_getElem
  · simp
  · intro k h1 h2
    simp only [readText, List.getElem_map, List.getElem_range]
    rw [symRead_writeText h2, Nat.mod_eq_of_lt (h _ (List.getElem_mem h2))]

/-- A text sees only the bytes of its region. -/
theorem readText_congr {s t : State} {base n : Nat} (hp : s.params = t.params)
    (h : ∀ x, base ≤ x → x < base + n * s.params.sb → s.readByte x = t.readByte x) : readText s base n = readText t base n := by
  simp only [readText]
  refine List.map_congr_left fun i hi => ?_
  have hi := List.mem_range.1 hi
  rw [symRead, symRead, ← hp]
  refine memRead_congr fun k hk => h _ (by omega) ?_
  have : (i + 1) * s.params.sb ≤ n * s.params.sb := Nat.mul_le_mul_right _ hi
  rw [Nat.add_mul] at this
  omega

/-! ### Bits -/

@[simp] theorem length_packBits (bits : Bits) : (packBits bits).length = (bits.length + 7) / 8 := by simp [packBits]

theorem getLsbD_packByte (b : Nat → Bool) (j : Nat) (h : j < 8) : (packByte b).getLsbD (7 - j) = b j := by
  have key : ∀ b0 b1 b2 b3 b4 b5 b6 b7 : Bool,
      (BitVec.ofNat 8 (b0.toNat * 128 + b1.toNat * 64 + b2.toNat * 32 + b3.toNat * 16
        + b4.toNat * 8 + b5.toNat * 4 + b6.toNat * 2 + b7.toNat)).getLsbD (7 - j)
      = ([b0, b1, b2, b3, b4, b5, b6, b7] : List Bool).getD j false := by
    interval_cases j <;> decide
  rw [packByte, key]
  interval_cases j <;> rfl

theorem readByte_writeBits_outside {base : Nat} {bits : Bits} {s : State} {x : Nat}
    (h : x < base ∨ base + (bits.length + 7) / 8 ≤ x) : (writeBits base bits s).readByte x = s.readByte x :=
  readByte_writeBytes_outside (by simpa using h)

/-- Every bit of the written bytes: the bitstring's bits, then zero padding. -/
theorem bitRead_writeBits {base : Nat} {bits : Bits} {s : State} {i : Nat} (h : i < 8 * ((bits.length + 7) / 8)) :
    bitRead (writeBits base bits s) base i = bits.getD i false := by
  have hk : i / 8 < (packBits bits).length := by rw [length_packBits]; omega
  rw [bitRead, writeBits, readByte_writeBytes_inside hk]
  simp only [packBits, List.getElem_map, List.getElem_range]
  rw [getLsbD_packByte _ _ (Nat.mod_lt _ (by decide)), Nat.div_add_mod]

@[simp] theorem length_readBits (s : State) (base m : Nat) : (readBits s base m).length = m := by simp [readBits]

theorem readBits_writeBits {base : Nat} {bits : Bits} {s : State} :
    readBits (writeBits base bits s) base bits.length = bits := by
  apply List.ext_getElem
  · simp
  · intro k h1 h2
    simp only [readBits, List.getElem_map, List.getElem_range]
    rw [bitRead_writeBits (by omega), List.getD_eq_getElem _ _ h2]

/-- A bitstring sees only the bytes of its region. -/
theorem readBits_congr {s t : State} {base m : Nat}
    (h : ∀ x, base ≤ x → x < base + (m + 7) / 8 → s.readByte x = t.readByte x) : readBits s base m = readBits t base m := by
  simp only [readBits]
  refine List.map_congr_left fun i hi => ?_
  have hi := List.mem_range.1 hi
  rw [bitRead, bitRead, h _ (by omega) (by omega)]

end Sys2Proof.Machine
end

