-- ==== Sys2Proof/Laws/Results.lean ====
section
/-! SUPPORT. A mapped result fails or succeeds exactly as the result does. -/

namespace Sys2Proof.Machine

theorem map_eq_error {α β ε : Type} {f : α → β} {r : Except ε α} {e : ε} (h : r.map f = .error e) : r = .error e := by
  cases r with
  | error => cases h; rfl
  | ok => cases h

theorem map_eq_ok {α β ε : Type} {f : α → β} {r : Except ε α} {b : β} (h : r.map f = .ok b) : ∃ a, r = .ok a ∧ f a = b := by
  cases r with
  | error => cases h
  | ok a => exact ⟨a, rfl, by cases h; rfl⟩

end Sys2Proof.Machine
end

