-- ==== Sys2Proof/Laws/Huffman.lean ====
section
/-! SUPPORT. The Huffman family: the frequency table, the builder's collection, the tree, the code table, and what the encoding
and decoding loops do. -/

namespace Sys2Proof.Machine

/-! ### Tables -/

/-- Keys strictly rising. -/
abbrev Rising (t : List (Nat × Nat)) : Prop := t.Pairwise (fun d e => d.1 < e.1)

theorem lookup_eq_none {α : Type} {t : List (Nat × α)} {x : Nat} (h : ∀ e ∈ t, e.1 ≠ x) : t.lookup x = none := by
  induction t with
  | nil => rfl
  | cons e t ih =>
    have h1 : (x == e.1) = false := by simpa using (h e List.mem_cons_self).symm
    rw [show e = (e.1, e.2) from rfl, List.lookup_cons, h1]
    exact ih fun d hd => h d (List.mem_cons_of_mem _ hd)

theorem mem_of_lookup {α : Type} {t : List (Nat × α)} {x : Nat} {v : α} (h : t.lookup x = some v) : (x, v) ∈ t := by
  induction t with
  | nil => simp at h
  | cons e t ih =>
    rw [show e = (e.1, e.2) from rfl, List.lookup_cons] at h
    split at h
    · rename_i he
      obtain rfl : x = e.1 := by simpa using he
      cases h
      exact List.mem_cons_self
    · exact List.mem_cons_of_mem _ (ih h)

/-- With distinct keys, an entry is what lookup finds. -/
theorem lookup_of_mem {α : Type} {t : List (Nat × α)} {e : Nat × α} (hn : (t.map Prod.fst).Nodup) (h : e ∈ t) :
    t.lookup e.1 = some e.2 := by
  induction t with
  | nil => simp at h
  | cons d t ih =>
    rw [List.map_cons, List.nodup_cons] at hn
    rw [show d = (d.1, d.2) from rfl, List.lookup_cons]
    rcases List.mem_cons.1 h with rfl | h
    · simp
    · have hne : (e.1 == d.1) = false := by
        simp only [beq_eq_false_iff_ne]
        rintro he
        exact hn.1 (he ▸ List.mem_map_of_mem h)
      rw [hne]
      exact ih hn.2 h

theorem Rising.nodup {t : List (Nat × Nat)} (h : Rising t) : (t.map Prod.fst).Nodup :=
  List.pairwise_map.2 (h.imp fun hab => hab.ne)

theorem freqOf_of_mem {t : List (Nat × Nat)} (h : Rising t) {e : Nat × Nat} (he : e ∈ t) : freqOf t e.1 = e.2 := by
  simp [freqOf, lookup_of_mem h.nodup he]

/-- A symbol of positive frequency is a key. -/
theorem mem_of_freqOf {t : List (Nat × Nat)} {x : Nat} (h : freqOf t x ≠ 0) : (x, freqOf t x) ∈ t := by
  unfold freqOf at *
  cases hl : t.lookup x with
  | none => simp [hl] at h
  | some v => simpa using mem_of_lookup hl

/-! ### FrequencyAnalyzer -/

theorem key_of_mem_bump {s : Nat} {t : List (Nat × Nat)} {e : Nat × Nat} (h : e ∈ bump s t) :
    e.1 = s ∨ ∃ d ∈ t, d.1 = e.1 := by
  induction t with
  | nil => simp [bump] at h; simp [h]
  | cons d t ih =>
    simp only [bump] at h
    split_ifs at h with h1 h2
    · rcases List.mem_cons.1 h with rfl | h
      · exact .inl rfl
      · exact .inr ⟨e, h, rfl⟩
    · rcases List.mem_cons.1 h with rfl | h
      · exact .inl rfl
      · exact .inr ⟨e, List.mem_cons_of_mem _ h, rfl⟩
    · rcases List.mem_cons.1 h with rfl | h
      · exact .inr ⟨e, List.mem_cons_self, rfl⟩
      · rcases ih h with h | ⟨c, hc, he⟩
        · exact .inl h
        · exact .inr ⟨c, List.mem_cons_of_mem _ hc, he⟩

theorem bump_rising (s : Nat) {t : List (Nat × Nat)} (h : Rising t) : Rising (bump s t) := by
  induction t with
  | nil => simp [bump]
  | cons d t ih =>
    obtain ⟨hd, ht⟩ := List.pairwise_cons.1 h
    simp only [bump]
    split_ifs with h1 h2
    · refine List.pairwise_cons.2 ⟨fun e he => ?_, h⟩
      rcases List.mem_cons.1 he with rfl | he
      · exact h1
      · exact lt_trans h1 (hd e he)
    · exact List.pairwise_cons.2 ⟨fun e he => h2 ▸ hd e he, ht⟩
    · refine List.pairwise_cons.2 ⟨fun e he => ?_, ih ht⟩
      rcases key_of_mem_bump he with he | ⟨c, hc, he⟩
      · rw [he]; exact lt_of_le_of_ne (not_lt.1 h1) h2
      · rw [← he]; exact hd c hc

theorem bump_positive (s : Nat) {t : List (Nat × Nat)} (h : ∀ e ∈ t, 0 < e.2) : ∀ e ∈ bump s t, 0 < e.2 := by
  induction t with
  | nil => simp [bump]
  | cons d t ih =>
    have hd := h d List.mem_cons_self
    have ht : ∀ e ∈ t, 0 < e.2 := fun e he => h e (List.mem_cons_of_mem _ he)
    intro e he
    simp only [bump] at he
    split_ifs at he
    · rcases List.mem_cons.1 he with rfl | he
      · exact Nat.one_pos
      · exact h e he
    · rcases List.mem_cons.1 he with rfl | he
      · exact Nat.succ_pos _
      · exact ht e he
    · rcases List.mem_cons.1 he with rfl | he
      · exact hd
      · exact ih ht e he

theorem bump_sum (s : Nat) (t : List (Nat × Nat)) :
    ((bump s t).map (fun e => e.2)).sum = (t.map (fun e => e.2)).sum + 1 := by
  induction t with
  | nil => simp [bump]
  | cons d t ih =>
    simp only [bump]
    split_ifs <;> simp [ih] <;> omega

theorem freqOf_cons (e : Nat × Nat) (t : List (Nat × Nat)) (x : Nat) :
    freqOf (e :: t) x = if x = e.1 then e.2 else freqOf t x := by
  unfold freqOf
  rw [show e = (e.1, e.2) from rfl, List.lookup_cons]
  split <;> simp_all

theorem freqOf_bump (s : Nat) {t : List (Nat × Nat)} (h : Rising t) (x : Nat) :
    freqOf (bump s t) x = freqOf t x + if x = s then 1 else 0 := by
  induction t with
  | nil => simp [bump, freqOf_cons]; simp [freqOf]
  | cons d t ih =>
    obtain ⟨hd, ht⟩ := List.pairwise_cons.1 h
    by_cases hx : x = s
    · subst hx
      simp only [bump]
      split_ifs with h1 h2
      · have : freqOf (d :: t) x = 0 := by
          rw [freqOf, lookup_eq_none]; · rfl
          intro e he
          rcases List.mem_cons.1 he with rfl | he
          · omega
          · have := hd e he; omega
        rw [this, freqOf_cons, if_pos rfl]
      · simp [freqOf_cons, h2]
      · rw [freqOf_cons, freqOf_cons, ih ht, if_neg (Ne.symm h2), if_neg (Ne.symm h2), if_pos rfl]
    · simp only [bump, if_neg hx, Nat.add_zero] at ih ⊢
      split_ifs with h1 h2
      · rw [freqOf_cons, if_neg hx]
      · rw [freqOf_cons, freqOf_cons, if_neg hx, if_neg (by omega)]
      · rw [freqOf_cons, freqOf_cons, ih ht]

/-- The fold of the scan, from any table of rising keys and positive counts. -/
theorem foldl_bump (text : List Nat) (t : List (Nat × Nat)) (hr : Rising t) (hp : ∀ e ∈ t, 0 < e.2) :
    Rising (text.foldl (fun t s => bump s t) t) ∧ (∀ e ∈ text.foldl (fun t s => bump s t) t, 0 < e.2) ∧
      ((text.foldl (fun t s => bump s t) t).map (fun e => e.2)).sum = (t.map (fun e => e.2)).sum + text.length ∧
      ∀ x, freqOf (text.foldl (fun t s => bump s t) t) x = freqOf t x + text.count x := by
  induction text generalizing t with
  | nil => simp [hr]; exact fun a b h => hp (a, b) h
  | cons s text ih =>
    obtain ⟨h1, h2, h3, h4⟩ := ih (bump s t) (bump_rising s hr) (bump_positive s hp)
    refine ⟨h1, h2, ?_, fun x => ?_⟩
    · rw [List.foldl_cons, h3, bump_sum, List.length_cons]; omega
    · rw [List.foldl_cons, h4, freqOf_bump s hr, List.count_cons]
      by_cases hx : x = s
      · subst hx; simp; omega
      · simp [hx, Ne.symm hx]

theorem frequencies_rising (text : List Nat) : Rising (frequencies text) :=
  (foldl_bump text [] List.Pairwise.nil (by simp)).1

theorem frequencies_positive (text : List Nat) : ∀ e ∈ frequencies text, 0 < e.2 :=
  (foldl_bump text [] List.Pairwise.nil (by simp)).2.1

theorem frequencies_sum (text : List Nat) : ((frequencies text).map (fun e => e.2)).sum = text.length := by
  simpa [frequencies] using (foldl_bump text [] List.Pairwise.nil (by simp)).2.2.1

theorem freqOf_frequencies (text : List Nat) (x : Nat) : freqOf (frequencies text) x = text.count x := by
  simpa [frequencies, freqOf] using (foldl_bump text [] List.Pairwise.nil (by simp)).2.2.2 x

theorem mem_frequencies_iff (text : List Nat) (x : Nat) : (∃ f, (x, f) ∈ frequencies text) ↔ x ∈ text := by
  constructor
  · rintro ⟨f, h⟩
    have hf := freqOf_of_mem (frequencies_rising text) h
    have hp := frequencies_positive text _ h
    rw [freqOf_frequencies] at hf
    exact List.count_pos_iff.1 (by simp only at hf hp; omega)
  · intro h
    have := List.count_pos_iff.2 h
    exact ⟨_, mem_of_freqOf (by rw [freqOf_frequencies]; omega)⟩

theorem frequencies_eq_nil_iff (text : List Nat) : frequencies text = [] ↔ text = [] := by
  constructor
  · intro h
    have := frequencies_sum text
    rw [h] at this
    exact List.length_eq_zero_iff.1 (by simpa using this.symm)
  · rintro rfl; rfl

/-! ### The builder's collection -/

theorem insertNode_perm (z : QNode) (q : List QNode) : (insertNode z q).Perm (z :: q) := by
  induction q with
  | nil => exact List.Perm.refl _
  | cons x q ih =>
    simp only [insertNode]
    split_ifs
    · exact List.Perm.refl _
    · exact (ih.cons x).trans (List.Perm.swap z x q)

@[simp] theorem length_insertNode (z : QNode) (q : List QNode) : (insertNode z q).length = q.length + 1 :=
  (insertNode_perm z q).length_eq

theorem leafQueue_perm (freq : List (Nat × Nat)) : (leafQueue freq).Perm (freq.map leafNode) := by
  induction freq with
  | nil => exact List.Perm.refl _
  | cons e freq ih => exact (insertNode_perm _ _).trans (ih.cons _)

theorem Key.less_iff (a b : Key) : a.less b = true ↔
    a.freq < b.freq ∨ (a.freq = b.freq ∧ (a.kind < b.kind ∨ (a.kind = b.kind ∧ a.rank < b.rank))) := by
  simp [Key.less]

/-- `a` comes no later than `b` in key order. -/
abbrev Key.le (a b : Key) : Prop := b.less a = false

theorem Key.le_of_less {a b : Key} (h : a.less b = true) : Key.le a b := by
  rw [Key.le, Bool.eq_false_iff, ne_eq, Key.less_iff]
  rw [Key.less_iff] at h
  omega

theorem Key.le_trans {a b c : Key} (h : Key.le a b) (h' : Key.le b c) : Key.le a c := by
  rw [Key.le, Bool.eq_false_iff, ne_eq, Key.less_iff] at *
  omega

theorem Key.freq_le {a b : Key} (h : Key.le a b) : a.freq ≤ b.freq := by
  rw [Key.le, Bool.eq_false_iff, ne_eq, Key.less_iff] at h
  omega

/-- The collection is kept in key order, so its head has the least key. -/
abbrev Sorted (q : List QNode) : Prop := q.Pairwise (fun a b => Key.le a.key b.key)

theorem insertNode_sorted (z : QNode) {q : List QNode} (h : Sorted q) : Sorted (insertNode z q) := by
  induction q with
  | nil => simp [insertNode]
  | cons x q ih =>
    obtain ⟨hx, hq⟩ := List.pairwise_cons.1 h
    simp only [insertNode]
    split_ifs with hz
    · refine List.pairwise_cons.2 ⟨fun e he => ?_, h⟩
      rcases List.mem_cons.1 he with rfl | he
      · exact Key.le_of_less hz
      · exact Key.le_trans (Key.le_of_less hz) (hx e he)
    · refine List.pairwise_cons.2 ⟨fun e he => ?_, ih hq⟩
      rcases List.mem_cons.1 ((insertNode_perm z q).mem_iff.1 he) with rfl | he
      · exact Bool.eq_false_iff.2 hz
      · exact hx e he

theorem leafQueue_sorted (freq : List (Nat × Nat)) : Sorted (leafQueue freq) := by
  induction freq with
  | nil => exact List.Pairwise.nil
  | cons e freq ih => exact insertNode_sorted _ ih

/-! ### BuildTree -/

/-- A node of the collection holds a Huffman tree whose frequency is in its key. -/
structure NodeOk (x : QNode) : Prop where
  proper : x.tree.proper
  weight : x.key.freq = x.tree.weight

theorem leafNode_ok {e : Nat × Nat} (h : 0 < e.2) : NodeOk (leafNode e) := ⟨h, rfl⟩

theorem mergeNode_ok (j : Nat) {x y : QNode} (hx : NodeOk x) (hy : NodeOk y) : NodeOk (mergeNode j x y) :=
  ⟨⟨by rw [hx.weight, hy.weight], hx.proper, hy.proper⟩, rfl⟩

/-- The leaves of a collection. -/
def queueLeaves (q : List QNode) : List (Nat × Nat) := q.flatMap (fun x => x.tree.leaves)

theorem queueLeaves_insert (z : QNode) (q : List QNode) :
    (queueLeaves (insertNode z q)).Perm (z.tree.leaves ++ queueLeaves q) :=
  (insertNode_perm z q).flatMap_right _

/-- An induction principle for the merge loop: what every merge keeps holds of the last node. -/
theorem mergeAll_induct {motive : Nat → List QNode → Prop}
    (merge : ∀ j x y q, motive j (x :: y :: q) → motive (j + 1) (insertNode (mergeNode j x y) q))
    {fuel j : Nat} {q : List QNode} (h : motive j q) (hne : q ≠ []) (hf : q.length ≤ fuel + 1) :
    ∃ k x, mergeAll fuel j q = some x.tree ∧ motive k [x] := by
  induction fuel generalizing j q with
  | zero =>
    match q, hne, hf with
    | [x], _, _ => exact ⟨j, x, rfl, h⟩
    | _ :: _ :: _, _, hf => simp at hf
  | succ fuel ih =>
    match q, hne, hf with
    | [x], _, _ => exact ⟨j, x, rfl, h⟩
    | x :: y :: q, _, hf =>
      refine ih (merge j x y q h) ?_ ?_
      · intro h0
        have := length_insertNode (mergeNode j x y) q
        simp [h0] at this
      · simp at hf ⊢; omega

/-- BuildTree of a non-empty table of positive counts is a Huffman tree over the table's leaves. -/
theorem buildTree_spec {freq : List (Nat × Nat)} (hne : freq ≠ []) (hp : ∀ e ∈ freq, 0 < e.2) :
    ∃ t, buildTree freq = some t ∧ t.proper ∧ t.leaves.Perm freq := by
  have hlen : (leafQueue freq).length = freq.length := by simpa using (leafQueue_perm freq).length_eq
  obtain ⟨_, x, hx, hok, hl⟩ := mergeAll_induct (fuel := freq.length) (j := 0) (q := leafQueue freq)
    (motive := fun _ q => (∀ x ∈ q, NodeOk x) ∧ (queueLeaves q).Perm freq)
    (fun j x y q ⟨hok, hl⟩ => by
      refine ⟨fun z hz => ?_, ?_⟩
      · rcases List.mem_cons.1 ((insertNode_perm _ q).mem_iff.1 hz) with rfl | hz
        · exact mergeNode_ok j (hok x (by simp)) (hok y (by simp))
        · exact hok z (by simp [hz])
      · refine (queueLeaves_insert _ q).trans (List.Perm.trans ?_ hl)
        simp [queueLeaves, mergeNode, DTree.leaves])
    ⟨fun x hx => by
        obtain ⟨e, he, rfl⟩ := List.mem_map.1 ((leafQueue_perm freq).mem_iff.1 hx)
        exact leafNode_ok (hp e he),
      by
        refine ((leafQueue_perm freq).flatMap_right _).trans ?_
        rw [List.flatMap_map]
        simp [leafNode, DTree.leaves]⟩
    (by intro h0; rw [h0] at hlen; exact hne (List.length_eq_zero_iff.1 hlen.symm)) (by omega)
  exact ⟨x.tree, hx, (hok x (by simp)).proper, by simpa [queueLeaves] using hl⟩

theorem buildTree_eq_none_iff {freq : List (Nat × Nat)} (hp : ∀ e ∈ freq, 0 < e.2) : buildTree freq = none ↔ freq = [] := by
  constructor
  · intro h
    by_contra hne
    obtain ⟨t, ht, _⟩ := buildTree_spec hne hp
    simp [ht] at h
  · rintro rfl; rfl

theorem DTree.proper.one_le_weight {t : DTree} (h : t.proper) : 1 ≤ t.weight := by
  induction t with
  | leaf => exact h
  | node l r f ihl ihr =>
    obtain ⟨hf, hl, hr⟩ := h
    have := ihl hl
    simp only [DTree.weight]; omega
  | lone => exact h.elim

theorem DTree.proper.weight_eq {t : DTree} (h : t.proper) : t.weight = (t.leaves.map (fun e => e.2)).sum := by
  induction t with
  | leaf => simp [DTree.weight, DTree.leaves]
  | node l r f ihl ihr =>
    obtain ⟨hf, hl, hr⟩ := h
    rw [DTree.weight, hf, ihl hl, ihr hr, DTree.leaves, List.map_append, List.sum_append]
  | lone => exact h.elim

@[simp] theorem leaves_decodeTree (t : DTree) : (decodeTree t).leaves = t.leaves := by
  cases t <;> rfl

theorem isDecodeTree_decodeTree {t : DTree} (h : t.proper) : (decodeTree t).isDecodeTree := by
  cases t with
  | leaf s f => exact ⟨s, rfl, h⟩
  | node l r f => exact h
  | lone => exact h.elim

/-! ### The code table -/

theorem deriveCodes_prefix (t : DTree) (p q : Bits) :
    deriveCodes t (p ++ q) = (deriveCodes t q).map (fun e => (e.1, p ++ e.2)) := by
  induction t generalizing q with
  | leaf => simp [deriveCodes]
  | node l r f ihl ihr => simp [deriveCodes, ihl, ihr, List.append_assoc]
  | lone l f ih => simp [deriveCodes, ih, List.append_assoc]

/-- The walk from a path is the walk from the root with the path in front. -/
theorem deriveCodes_path (t : DTree) (p : Bits) :
    deriveCodes t p = (deriveCodes t []).map (fun e => (e.1, p ++ e.2)) := by
  simpa using deriveCodes_prefix t p []

theorem deriveCodes_node (l r : DTree) (f : Nat) : deriveCodes (.node l r f) [] =
    (deriveCodes l []).map (fun e => (e.1, false :: e.2)) ++ (deriveCodes r []).map (fun e => (e.1, true :: e.2)) := by
  rw [deriveCodes, deriveCodes_path l, deriveCodes_path r]; rfl

theorem deriveCodes_lone (l : DTree) (f : Nat) :
    deriveCodes (.lone l f) [] = (deriveCodes l []).map (fun e => (e.1, false :: e.2)) := by
  rw [deriveCodes, deriveCodes_path l]; rfl

theorem map_fst_deriveCodes (t : DTree) (p : Bits) : (deriveCodes t p).map Prod.fst = t.leaves.map Prod.fst := by
  induction t generalizing p with
  | leaf => rfl
  | node l r f ihl ihr => simp [deriveCodes, DTree.leaves, ihl, ihr]
  | lone l f ih => simp [deriveCodes, DTree.leaves, ih]

/-- No code is a prefix of the code of another leaf. -/
theorem deriveCodes_prefix_free (t : DTree) :
    ∀ d ∈ deriveCodes t [], ∀ e ∈ deriveCodes t [], d.2 <+: e.2 → d = e := by
  induction t with
  | leaf s f => simp [deriveCodes]
  | node l r f ihl ihr =>
    rw [deriveCodes_node]
    intro d hd e he hpre
    rcases List.mem_append.1 hd with hd | hd <;> rcases List.mem_append.1 he with he | he <;>
      obtain ⟨d', hd', rfl⟩ := List.mem_map.1 hd <;> obtain ⟨e', he', rfl⟩ := List.mem_map.1 he
    · rw [ihl d' hd' e' he' (by simpa using hpre)]
    · simp at hpre
    · simp at hpre
    · rw [ihr d' hd' e' he' (by simpa using hpre)]
  | lone l f ih =>
    rw [deriveCodes_lone]
    intro d hd e he hpre
    obtain ⟨d', hd', rfl⟩ := List.mem_map.1 hd
    obtain ⟨e', he', rfl⟩ := List.mem_map.1 he
    rw [ih d' hd' e' he' (by simpa using hpre)]

/-- A decode tree's root is no leaf, so no code is empty. -/
theorem code_ne_nil {t : DTree} (h : t.isDecodeTree) {e : Nat × Bits} (he : e ∈ deriveCodes t []) : e.2 ≠ [] := by
  cases t with
  | leaf => exact h.elim
  | node l r f =>
    rw [deriveCodes_node] at he
    rcases List.mem_append.1 he with he | he <;> obtain ⟨d, _, rfl⟩ := List.mem_map.1 he <;> simp
  | lone l f =>
    rw [deriveCodes_lone] at he
    obtain ⟨d, _, rfl⟩ := List.mem_map.1 he; simp

/-! ### A valid codec -/

theorem CodecOk.nodup_code {p : Params} {c : Codec} (h : CodecOk p c) : (c.code.map Prod.fst).Nodup := by
  rw [h.codeIsPath, map_fst_deriveCodes]
  exact (h.treeLeaves.map Prod.fst).nodup_iff.2 (Rising.nodup h.keysRising)

/-- A symbol of positive frequency has its code in the table. -/
theorem CodecOk.code_mem {p : Params} {c : Codec} (h : CodecOk p c) {x : Nat} (hx : freqOf c.freq x ≠ 0) :
    (x, codeOf c.code x) ∈ c.code := by
  have hk : x ∈ c.code.map Prod.fst := by
    rw [h.codeIsPath, map_fst_deriveCodes]
    exact List.mem_map.2 ⟨_, h.treeLeaves.mem_iff.2 (mem_of_freqOf hx), rfl⟩
  obtain ⟨e, he, rfl⟩ := List.mem_map.1 hk
  have := lookup_of_mem h.nodup_code he
  simpa [codeOf, this] using he

theorem CodecOk.code_ne_nil {p : Params} {c : Codec} (h : CodecOk p c) {x : Nat} (hx : freqOf c.freq x ≠ 0) :
    codeOf c.code x ≠ [] := by
  have := h.code_mem hx
  rw [h.codeIsPath] at this
  have := Machine.code_ne_nil h.treeShape this
  simpa [h.codeIsPath] using this

theorem buildCodec_ok {p : Params} {text : List Nat} {c : Codec} (hc : buildCodec text = .ok c)
    (ht : ∀ x ∈ text, x < p.alphabetMax) (hfit : text.length * p.sb ≤ p.bufSize) : CodecOk p c := by
  unfold buildCodec at hc
  have hp := frequencies_positive text
  split at hc
  · cases hc
  · rename_i t htree
    have hne : frequencies text ≠ [] := fun h0 => by simp [(buildTree_eq_none_iff hp).2 h0] at htree
    obtain ⟨t', ht', hprop, hperm⟩ := buildTree_spec hne hp
    obtain rfl : t' = t := by simpa [ht'] using htree
    split at hc
    · cases hc
    · rename_i hshort
      cases hc
      have hnd : ((deriveCodes (decodeTree t') []).map Prod.fst).Nodup := by
        rw [map_fst_deriveCodes, leaves_decodeTree]
        exact (hperm.map Prod.fst).nodup_iff.2 (Rising.nodup (frequencies_rising text))
      refine ⟨frequencies_rising text, hp, fun e he => ?_, frequencies_sum text, rfl, ?_, isDecodeTree_decodeTree hprop,
        by simpa using hperm, rfl, fun e he => ?_, hfit⟩
      · exact ht _ ((mem_frequencies_iff text e.1).1 ⟨e.2, he⟩)
      · exact List.length_pos_iff.2 hne
      · have hk : e.1 ∈ (frequencies text).map Prod.fst := by
          rw [← (hperm.map Prod.fst).mem_iff, ← leaves_decodeTree t', ← map_fst_deriveCodes _ []]
          exact List.mem_map_of_mem he
        obtain ⟨d, hd, hde⟩ := List.mem_map.1 hk
        simp only [tooLongSymbol, Option.map_eq_none_iff, List.find?_eq_none, decide_eq_true_eq, not_lt] at hshort
        have := hshort d hd
        simpa [codeOf, hde, lookup_of_mem hnd he] using this

/-! ### HENC's loop -/

theorem encodeText_ok (c : Codec) (limit : Nat) (text : List Nat) (i m : Nat)
    (hk : ∀ x ∈ text, freqOf c.freq x ≠ 0) (hl : m + (text.flatMap (codeOf c.code)).length ≤ limit) :
    encodeText c limit i m text = .ok (text.flatMap (codeOf c.code)) := by
  induction text generalizing i m with
  | nil => rfl
  | cons x text ih =>
    rw [List.flatMap_cons, List.length_append] at hl
    rw [encodeText, if_neg (hk x (by simp)), if_neg (by omega),
      ih _ _ (fun y hy => hk y (by simp [hy])) (by omega), List.flatMap_cons]
    rfl

/-- If the loop succeeds, every symbol was known and everything fitted. -/
theorem encodeText_inv {c : Codec} {limit i m : Nat} {text : List Nat} {bits : Bits}
    (h : encodeText c limit i m text = .ok bits) (hm : m ≤ limit) :
    (∀ x ∈ text, freqOf c.freq x ≠ 0) ∧ m + bits.length ≤ limit ∧ bits = text.flatMap (codeOf c.code) := by
  induction text generalizing i m bits with
  | nil => cases h; simpa using hm
  | cons x text ih =>
    rw [encodeText] at h
    split_ifs at h with h1 h2
    obtain ⟨b, hr, rfl⟩ := map_eq_ok h
    obtain ⟨hk, hl, rfl⟩ := ih hr (by omega)
    refine ⟨fun y hy => ?_, ?_, by simp⟩
    · rcases List.mem_cons.1 hy with rfl | hy
      · exact h1
      · exact hk y hy
    · rw [List.length_append]; omega

/-- The loop reaches the symbols after a prefix that encodes and fits. -/
theorem encodeText_append (c : Codec) (limit : Nat) (pre post : List Nat) (i m : Nat)
    (hk : ∀ x ∈ pre, freqOf c.freq x ≠ 0) (hl : m + (pre.flatMap (codeOf c.code)).length ≤ limit) :
    encodeText c limit i m (pre ++ post) =
      (encodeText c limit (i + pre.length) (m + (pre.flatMap (codeOf c.code)).length) post).map
        (fun bits => pre.flatMap (codeOf c.code) ++ bits) := by
  induction pre generalizing i m with
  | nil => simp only [List.nil_append, List.length_nil, List.flatMap_nil, Nat.add_zero]; exact Except.map_id.symm ▸ rfl
  | cons x pre ih =>
    rw [List.flatMap_cons, List.length_append] at hl
    rw [List.cons_append, encodeText, if_neg (hk x (by simp)), if_neg (by omega),
      ih _ _ (fun y hy => hk y (by simp [hy])) (by omega), List.flatMap_cons, List.length_append, List.length_cons]
    rw [show i + 1 + pre.length = i + (pre.length + 1) by omega, ← Nat.add_assoc m]
    cases encodeText c limit (i + (pre.length + 1)) _ post <;> simp [Except.map]

/-! ### HDEC's loop -/

/-- One bit into a child that is no leaf goes on in the code in progress. -/
theorem decodeBits_inner {root node next : DTree} {cap : Nat} {start : Option Nat} {i out : Nat} {b : Bool} {rest : Bits}
    (hch : node.child b = some next) (hn : ∀ s f, next ≠ .leaf s f) :
    decodeBits root cap node start i out (b :: rest) =
      decodeBits root cap next (some (start.getD i)) (i + 1) out rest := by
  rw [decodeBits, hch]
  cases next with
  | leaf s f => exact absurd rfl (hn s f)
  | node => rfl
  | lone => rfl

/-- What walking a whole code from a node does: it emits the code's symbol and goes back to the root. -/
def WalksCode (root : DTree) (cap : Nat) (node : DTree) (e : Nat × Bits) : Prop :=
  ∀ (start : Option Nat) (i out : Nat) (rest : Bits), decodeBits root cap node start i out (e.2 ++ rest) =
    if cap < out + 1 then .error (.dstOverflow (start.getD i))
    else (decodeBits root cap root none (i + e.2.length) (out + 1) rest).map (fun text => e.1 :: text)

/-- A code of a child, with the child's bit in front, is a code of the node. -/
theorem walksCode_child {root : DTree} {cap : Nat} {node l : DTree} {b : Bool} {d : Nat × Bits}
    (hd : d ∈ deriveCodes l []) (hch : node.child b = some l) (ih : d.2 ≠ [] → WalksCode root cap l d) :
    WalksCode root cap node (d.1, b :: d.2) := by
  intro start i out rest
  cases l with
  | leaf s f =>
    simp only [deriveCodes, List.mem_singleton] at hd
    subst hd
    simp only [List.singleton_append, decodeBits, hch, List.length_singleton]
  | node l' r' f' =>
    have hdn : d.2 ≠ [] := by
      rw [deriveCodes_node] at hd
      rcases List.mem_append.1 hd with hd | hd <;> obtain ⟨_, _, rfl⟩ := List.mem_map.1 hd <;> simp
    rw [List.cons_append, decodeBits_inner hch (by simp), ih hdn]
    simp [Nat.add_assoc, Nat.add_comm 1]
  | lone l' f' =>
    have hdn : d.2 ≠ [] := by
      rw [deriveCodes_lone] at hd
      obtain ⟨_, _, rfl⟩ := List.mem_map.1 hd; simp
    rw [List.cons_append, decodeBits_inner hch (by simp), ih hdn]
    simp [Nat.add_assoc, Nat.add_comm 1]

theorem decodeBits_code (root : DTree) (cap : Nat) (node : DTree) (e : Nat × Bits) (he : e ∈ deriveCodes node [])
    (hne : e.2 ≠ []) : WalksCode root cap node e := by
  induction node generalizing e with
  | leaf s f => simp only [deriveCodes, List.mem_singleton] at he; subst he; exact absurd rfl hne
  | node l r f ihl ihr =>
    rw [deriveCodes_node] at he
    rcases List.mem_append.1 he with he | he <;> obtain ⟨d, hd, rfl⟩ := List.mem_map.1 he
    · exact walksCode_child hd rfl (ihl d hd)
    · exact walksCode_child hd rfl (ihr d hd)
  | lone l f ih =>
    rw [deriveCodes_lone] at he
    obtain ⟨d, hd, rfl⟩ := List.mem_map.1 he
    exact walksCode_child hd rfl (ih d hd)

/-- What a non-empty proper prefix of a code does from a node: the bits end inside the code. -/
def StopsInside (root : DTree) (cap : Nat) (node : DTree) (e : Nat × Bits) : Prop :=
  ∀ (part : Bits) (start : Option Nat) (i out : Nat), part <+: e.2 → part ≠ e.2 → part ≠ [] →
    decodeBits root cap node start i out part = .error (.malformedEncoding (start.getD i))

theorem stopsInside_child {root : DTree} {cap : Nat} {node l : DTree} {b : Bool} {d : Nat × Bits}
    (hd : d ∈ deriveCodes l []) (hch : node.child b = some l) (ih : StopsInside root cap l d) :
    StopsInside root cap node (d.1, b :: d.2) := by
  intro part start i out hp hlt hne
  cases part with
  | nil => exact absurd rfl hne
  | cons c part =>
    obtain ⟨hc, hp'⟩ := List.cons_prefix_cons.1 hp
    have hlt' : part ≠ d.2 := fun h => hlt (by rw [hc, h])
    rw [hc, decodeBits_inner hch]
    · cases part with
      | nil => rw [decodeBits]
      | cons c' part => simpa using ih _ (some (start.getD i)) (i + 1) out hp' hlt' (by simp)
    · rintro s f rfl
      simp only [deriveCodes, List.mem_singleton] at hd
      subst hd
      exact hlt' (List.prefix_nil.1 hp')

/-- Bits that end inside a code: the walk stops on an internal node. -/
theorem decodeBits_incomplete (root : DTree) (cap : Nat) (node : DTree) (e : Nat × Bits) (he : e ∈ deriveCodes node []) :
    StopsInside root cap node e := by
  induction node generalizing e with
  | leaf s f =>
    simp only [deriveCodes, List.mem_singleton] at he
    subst he
    exact fun part _ _ _ hp _ hne => absurd (List.prefix_nil.1 hp) hne
  | node l r f ihl ihr =>
    rw [deriveCodes_node] at he
    rcases List.mem_append.1 he with he | he <;> obtain ⟨d, hd, rfl⟩ := List.mem_map.1 he
    · exact stopsInside_child hd rfl (ihl d hd)
    · exact stopsInside_child hd rfl (ihr d hd)
  | lone l f ih =>
    rw [deriveCodes_lone] at he
    obtain ⟨d, hd, rfl⟩ := List.mem_map.1 he
    exact stopsInside_child hd rfl (ih d hd)

/-- Whole codes at the front of the bits, as long as their symbols fit. -/
theorem decodeBits_codes (root : DTree) (cap : Nat) (es : List (Nat × Bits)) (hes : ∀ e ∈ es, e ∈ deriveCodes root [])
    (hroot : root.isDecodeTree) (i out : Nat) (rest : Bits) (hcap : out + es.length ≤ cap) :
    decodeBits root cap root none i out (es.flatMap (fun e => e.2) ++ rest) =
      (decodeBits root cap root none (i + (es.flatMap (fun e => e.2)).length) (out + es.length) rest).map
        (fun text => es.map (fun e => e.1) ++ text) := by
  induction es generalizing i out with
  | nil => simp only [List.flatMap_nil, List.nil_append, List.length_nil, Nat.add_zero, List.map_nil]
           exact Except.map_id.symm ▸ rfl
  | cons e es ih =>
    have he := hes e (by simp)
    rw [List.length_cons] at hcap
    rw [List.flatMap_cons, List.append_assoc, decodeBits_code root cap root e he (code_ne_nil hroot he), if_neg (by omega),
      ih (fun d hd => hes d (by simp [hd])) _ _ (by omega), List.length_append, List.length_cons,
      show out + 1 + es.length = out + (es.length + 1) by omega, ← Nat.add_assoc i]
    cases decodeBits root cap root none _ (out + (es.length + 1)) rest <;> simp [Except.map]

/-! ### The codec of a text -/

theorem follow_deriveCodes (t : DTree) : ∀ e ∈ deriveCodes t [],
    ∃ f, t.follow e.2 = some (.leaf e.1 f) ∧ (e.1, f) ∈ t.leaves := by
  induction t with
  | leaf s f => simp [deriveCodes, DTree.follow, DTree.leaves]
  | node l r f ihl ihr =>
    intro e he
    rw [deriveCodes_node] at he
    rcases List.mem_append.1 he with he | he <;> obtain ⟨d, hd, rfl⟩ := List.mem_map.1 he
    · obtain ⟨f, h1, h2⟩ := ihl d hd
      exact ⟨f, h1, by simp [DTree.leaves, h2]⟩
    · obtain ⟨f, h1, h2⟩ := ihr d hd
      exact ⟨f, h1, by simp [DTree.leaves, h2]⟩
  | lone l f ih =>
    intro e he
    rw [deriveCodes_lone] at he
    obtain ⟨d, hd, rfl⟩ := List.mem_map.1 he
    obtain ⟨f, h1, h2⟩ := ih d hd
    exact ⟨f, h1, by simpa [DTree.leaves] using h2⟩

theorem buildCodec_structure {text : List Nat} {c : Codec} (hc : buildCodec text = .ok c) :
   ∃ t, buildTree (frequencies text) = some t ∧ t.proper ∧ t.leaves.Perm (frequencies text) ∧ frequencies text ≠ [] ∧
     c = { freq := frequencies text, dtree := decodeTree t, code := deriveCodes (decodeTree t) [],
            distinct := (frequencies text).length, total := text.length } := by
  unfold buildCodec at hc
  have hp := frequencies_positive text
  split at hc
  · cases hc
  · rename_i t htree
    have hne : frequencies text ≠ [] := fun h0 => by simp [(buildTree_eq_none_iff hp).2 h0] at htree
    obtain ⟨t', ht', hprop, hperm⟩ := buildTree_spec hne hp
    obtain rfl : t' = t := by simpa [ht'] using htree
    split at hc
    · cases hc
    · cases hc; exact ⟨t', ht', hprop, hperm, hne, rfl⟩

theorem keys_of_perm {t : DTree} {text : List Nat} (hperm : t.leaves.Perm (frequencies text)) :
   ((deriveCodes (decodeTree t) []).map Prod.fst).Perm ((frequencies text).map Prod.fst) := by
  rw [map_fst_deriveCodes, leaves_decodeTree]; exact hperm.map _

theorem freqOf_ne_zero_iff {text : List Nat} {x : Nat} :
    freqOf (frequencies text) x ≠ 0 ↔ x ∈ (frequencies text).map Prod.fst := by
  constructor
  · intro h; exact List.mem_map.2 ⟨_, mem_of_freqOf h, rfl⟩
  · intro h
    obtain ⟨e, he, rfl⟩ := List.mem_map.1 h
    rw [freqOf_of_mem (frequencies_rising text) he]
    have := frequencies_positive text e he
    omega

/-- The code of a symbol of the text is in the codec's table. -/
theorem built_code_mem {text : List Nat} {c : Codec} (hc : buildCodec text = .ok c) {x : Nat} (hx : x ∈ text) :
    (x, codeOf c.code x) ∈ c.code := by
  obtain ⟨t, ht, hprop, hperm, hne, rfl⟩ := buildCodec_structure hc
  have h1 : x ∈ (deriveCodes (decodeTree t) []).map Prod.fst := by
    rw [(keys_of_perm hperm).mem_iff]
    obtain ⟨f, hf⟩ := (mem_frequencies_iff text x).2 hx
    exact List.mem_map.2 ⟨_, hf, rfl⟩
  have hnd := (keys_of_perm hperm).nodup_iff.2 (Rising.nodup (frequencies_rising text))
  obtain ⟨e, he, rfl⟩ := List.mem_map.1 h1
  have := lookup_of_mem hnd he
  simpa [codeOf, this] using he

theorem tooLongSymbol_eq_none_iff {freq : List (Nat × Nat)} {code : List (Nat × Bits)}
    (hperm : (code.map Prod.fst).Perm (freq.map Prod.fst)) (hnd : (freq.map Prod.fst).Nodup) :
    tooLongSymbol freq code = none ↔ ∀ e ∈ code, e.2.length ≤ 64 := by
  have hnd' := hperm.nodup_iff.2 hnd
  simp only [tooLongSymbol, Option.map_eq_none_iff, List.find?_eq_none, maxCodeLen]
  constructor
  · intro h e he
    have hk : e.1 ∈ freq.map Prod.fst := hperm.mem_iff.1 (List.mem_map_of_mem he)
    obtain ⟨d, hd, hde⟩ := List.mem_map.1 hk
    have := h d hd
    simpa [codeOf, hde, lookup_of_mem hnd' he] using this
  · intro h d hd
    have hk : d.1 ∈ code.map Prod.fst := hperm.mem_iff.2 (List.mem_map_of_mem hd)
    obtain ⟨e, he, hde⟩ := List.mem_map.1 hk
    rw [← hde]
    simpa [codeOf, lookup_of_mem hnd' he] using h e he

theorem flatMap_codes (c : Codec) (text : List Nat) :
    text.flatMap (codeOf c.code) = (text.map (fun x => (x, codeOf c.code x))).flatMap (fun e => e.2) := by
  induction text with
  | nil => rfl
  | cons x t ih => simp [ih]

end Sys2Proof.Machine
end

