-- ==== Sys2Proof/Laws/Builder.lean ====
section
/-! SUPPORT. The merge loop against the merge rule `Merges` of 41_huffman.md R98. -/

namespace Sys2Proof.Machine

theorem TakesLeast.perm {q q' rest : List QNode} {x : QNode} (h : TakesLeast q x rest) (hp : q.Perm q') :
    TakesLeast q' x rest := ⟨hp.symm.trans h.members, h.least⟩

/-- The least node is one, and what is left has the same members. -/
theorem TakesLeast.unique {q q' rest rest' : List QNode} {x x' : QNode} (h : TakesLeast q x rest)
    (h' : TakesLeast q' x' rest') (hp : q.Perm q') : x = x' ∧ rest.Perm rest' := by
  have hm : (x :: rest).Perm (x' :: rest') := h.members.symm.trans (hp.trans h'.members)
  have hx : x = x' := by
    rcases List.mem_cons.1 (hm.mem_iff.1 List.mem_cons_self) with hx | hx
    · exact hx
    · rcases List.mem_cons.1 (hm.mem_iff.2 List.mem_cons_self) with hx' | hx'
      · exact hx'.symm
      · have h1 := Key.le_of_less (h.least _ hx')
        rw [Key.le, h'.least _ hx] at h1
        cases h1
  subst hx
  exact ⟨rfl, hm.cons_inv⟩

theorem Merges.perm {j : Nat} {q q' : List QNode} {t : DTree} (h : Merges j q t) (hp : q.Perm q') : Merges j q' t := by
  cases h with
  | last j x =>
    rw [List.perm_singleton.1 hp.symm]
    exact .last j x
  | merge h1 h2 h3 => exact .merge (h1.perm hp) h2 h3

/-- The rule gives one tree. -/
theorem Merges.unique {j : Nat} {q q' : List QNode} {t t' : DTree} (h : Merges j q t) (h' : Merges j q' t')
    (hp : q.Perm q') : t = t' := by
  induction h generalizing q' t' with
  | last j x =>
    cases h' with
    | last _ y => rw [List.singleton_perm_singleton.1 hp]
    | merge h1 h2 _ =>
      have hl := (hp.trans h1.members).length_eq
      have hl2 := h2.members.length_eq
      simp only [List.length_cons, List.length_nil] at hl hl2
      omega
  | merge h1 h2 _ ih =>
    cases h' with
    | last _ y =>
      have hl := (hp.symm.trans h1.members).length_eq
      have hl2 := h2.members.length_eq
      simp only [List.length_cons, List.length_nil] at hl hl2
      omega
    | merge h1' h2' h3' =>
      obtain ⟨rfl, hr⟩ := h1.unique h1' hp
      obtain ⟨rfl, hr⟩ := h2.unique h2' hr
      exact ih h3' (hr.cons _)

/-- The keys of a collection before merge `j`: no two are equal, and a merged node's number is below `j`. -/
structure KeysOk (j : Nat) (q : List QNode) : Prop where
  different : (q.map (fun x => x.key)).Nodup
  numbered : ∀ x ∈ q, x.key.kind = 0 ∨ (x.key.kind = 1 ∧ x.key.rank < j)

theorem KeysOk.perm {j : Nat} {q q' : List QNode} (h : KeysOk j q) (hp : q.Perm q') : KeysOk j q' :=
  ⟨(hp.map _).nodup_iff.1 h.different, fun x hx => h.numbered x (hp.mem_iff.2 hx)⟩

theorem keysOk_leaves {freq : List (Nat × Nat)} (h : Rising freq) : KeysOk 0 (leafQueue freq) := by
  refine KeysOk.perm ⟨?_, fun x hx => ?_⟩ (leafQueue_perm freq).symm
  · rw [List.map_map, List.nodup_iff_pairwise_ne, List.pairwise_map]
    refine h.imp fun {d e} hde heq => ?_
    have := congrArg Key.rank heq
    simp only [Function.comp, leafNode] at this
    omega
  · obtain ⟨e, _, rfl⟩ := List.mem_map.1 hx
    exact .inl rfl

theorem keysOk_merge {j : Nat} {x y : QNode} {q : List QNode} (h : KeysOk j (x :: y :: q)) :
    KeysOk (j + 1) (insertNode (mergeNode j x y) q) := by
  refine KeysOk.perm ⟨?_, fun z hz => ?_⟩ (insertNode_perm _ q).symm
  · rw [List.map_cons, List.nodup_cons]
    refine ⟨fun hm => ?_, (List.nodup_cons.1 (List.nodup_cons.1 h.different).2).2⟩
    obtain ⟨z, hz, heq⟩ := List.mem_map.1 hm
    have h1 := congrArg Key.kind heq
    have h2 := congrArg Key.rank heq
    have := h.numbered z (by simp [hz])
    simp only [mergeNode] at h1 h2
    omega
  · rcases List.mem_cons.1 hz with rfl | hz
    · exact .inr ⟨rfl, Nat.lt_succ_self j⟩
    · rcases h.numbered z (by simp [hz]) with h0 | ⟨h1, h2⟩
      · exact .inl h0
      · exact .inr ⟨h1, by omega⟩

/-- The head of a collection in key order is its node with the least key. -/
theorem takesLeast_head {j : Nat} {x : QNode} {q : List QNode} (hs : Sorted (x :: q)) (hk : KeysOk j (x :: q)) :
    TakesLeast (x :: q) x q := by
  refine ⟨List.Perm.refl _, fun y hy => ?_⟩
  have h1 := (List.pairwise_cons.1 hs).1 y hy
  have h2 : x.key ≠ y.key := fun heq =>
    (List.nodup_cons.1 hk.different).1 (List.mem_map.2 ⟨y, hy, heq.symm⟩)
  rw [Key.le, Bool.eq_false_iff, ne_eq, Key.less_iff] at h1
  rw [Key.less_iff]
  by_contra hn
  refine h2 ?_
  cases hx : x.key
  cases hy : y.key
  simp only [hx, hy] at h1 hn
  simp only [Key.mk.injEq]
  omega

/-- The merge loop follows the merge rule. -/
theorem mergeAll_merges {fuel j : Nat} {q : List QNode} {t : DTree} (h : mergeAll fuel j q = some t) (hs : Sorted q)
    (hk : KeysOk j q) : Merges j q t := by
  induction fuel generalizing j q with
  | zero =>
    match q, h with
    | [x], h =>
      cases h
      exact .last j x
  | succ fuel ih =>
    match q, h with
    | [x], h =>
      cases h
      exact .last j x
    | x :: y :: q, h =>
      have hs1 := (List.pairwise_cons.1 hs).2
      have hk1 : KeysOk j (y :: q) :=
        ⟨(List.nodup_cons.1 hk.different).2, fun z hz => hk.numbered z (List.mem_cons_of_mem _ hz)⟩
      have := ih h (insertNode_sorted _ (List.pairwise_cons.1 hs1).2) (keysOk_merge hk)
      exact .merge (takesLeast_head hs hk) (takesLeast_head hs1 hk1) (this.perm (insertNode_perm _ q))

end Sys2Proof.Machine
end

