-- ==== Sys2Proof/Laws/Lz.lean ====
section
/-! SUPPORT. The LZ family: decimal numbers, records, the parse phase, the matcher, and the apply phase. -/

namespace Sys2Proof.Machine

/-! ### Decimal numbers -/

theorem digitsValue_snoc (a : List Nat) (d : Nat) : digitsValue (a ++ [d]) = 10 * digitsValue a + (d - symZero) := by
  rw [digitsValue, List.foldl_append]; rfl

theorem decDigits_append (fuel n : Nat) (acc : List Nat) : decDigits fuel n acc = decDigits fuel n [] ++ acc := by
  induction fuel generalizing n acc with
  | zero => rfl
  | succ fuel ih =>
    rw [decDigits, decDigits]
    split_ifs
    · rfl
    · rw [ih, ih _ [_]]; simp

theorem decDigits_step {fuel n : Nat} (h : ¬n < 10) :
    decDigits (fuel + 1) n [] = decDigits fuel (n / 10) [] ++ [symZero + n % 10] := by
  rw [decDigits, if_neg h, decDigits_append]

/-- Dec's digits do not depend on the fuel. -/
theorem decDigits_fuel {fuel n : Nat} (h : n < fuel) : decDigits fuel n [] = decimal n := by
  induction n using Nat.strongRecOn generalizing fuel with
  | ind n ih =>
    obtain ⟨fuel, rfl⟩ : ∃ k, fuel = k + 1 := ⟨fuel - 1, by omega⟩
    by_cases hn : n < 10
    · simp [decimal, decDigits, hn]
    · rw [decDigits_step hn, decimal, decDigits_step hn, ih (n / 10) (by omega) (by omega), ih (n / 10) (by omega) (by omega)]

theorem decimal_of_lt {n : Nat} (h : n < 10) : decimal n = [symZero + n] := by simp [decimal, decDigits, h]

theorem decimal_step {n : Nat} (h : ¬n < 10) : decimal n = decimal (n / 10) ++ [symZero + n % 10] := by
  rw [decimal, decDigits_step h, decDigits_fuel (by omega)]

theorem decimal_ne_nil (n : Nat) : decimal n ≠ [] := by
  by_cases h : n < 10
  · simp [decimal_of_lt h]
  · simp [decimal_step h]

theorem isDigit_iff (d : Nat) : isDigit d = true ↔ 0x30 ≤ d ∧ d ≤ 0x39 := by
  simp only [isDigit, Bool.and_eq_true, decide_eq_true_eq]

theorem decimal_digits (n : Nat) : ∀ d ∈ decimal n, 0x30 ≤ d ∧ d ≤ 0x39 := by
  induction n using Nat.strongRecOn with
  | ind n ih =>
    by_cases h : n < 10
    · rw [decimal_of_lt h]; simp [symZero]; omega
    · rw [decimal_step h]
      intro d hd
      rcases List.mem_append.1 hd with hd | hd
      · exact ih (n / 10) (by omega) d hd
      · simp [symZero] at hd; omega

theorem decimal_value (n : Nat) : digitsValue (decimal n) = n := by
  induction n using Nat.strongRecOn with
  | ind n ih =>
    by_cases h : n < 10
    · rw [decimal_of_lt h, ← List.nil_append [symZero + n], digitsValue_snoc]; simp [digitsValue]
    · rw [decimal_step h, digitsValue_snoc, ih (n / 10) (by omega)]; omega

/-- No leading zero but in "0". -/
theorem decimal_minimal (n : Nat) : (decimal n).head? = some symZero → n = 0 := by
  induction n using Nat.strongRecOn with
  | ind n ih =>
    by_cases h : n < 10
    · rw [decimal_of_lt h]; simp [symZero]
    · rw [decimal_step h, List.head?_append_of_ne_nil _ (decimal_ne_nil _)]
      intro h0
      have := ih (n / 10) (by omega) h0
      omega

theorem decimal_isNumber {n : Nat} (h : n < 2 ^ 32) : IsNumber (decimal n) n :=
  ⟨decimal_ne_nil n, decimal_digits n, decimal_value n, h⟩

theorem record_isRecord {t : Token} (ho : t.offset < 2 ^ 32) (hl : t.length < 2 ^ 32) : IsRecord (record t) t :=
  ⟨_, _, decimal_isNumber ho, decimal_isNumber hl, rfl⟩

/-! ### The parse phase -/

theorem parseNumber_isNumber {ds : List Nat} {v : Nat} (h : IsNumber ds v) {y : Nat} (hy : isDigit y = false)
    (rest : List Nat) : parseNumber (ds ++ y :: rest) = some (v, y :: rest) := by
  have hall : ∀ d ∈ ds, isDigit d = true := fun d hd => (isDigit_iff d).2 (h.allDigits d hd)
  have h1 : (ds ++ y :: rest).takeWhile isDigit = ds := by
    rw [List.takeWhile_append_of_pos hall]; simp [hy]
  have h2 : (ds ++ y :: rest).dropWhile isDigit = y :: rest := by
    rw [List.dropWhile_append_of_pos hall]; simp [hy]
  have hv : digitsValue ds = v := h.value
  have := h.fits
  simp only [parseNumber, h1, h2, hv]
  rw [if_neg h.someDigit, if_neg (by omega)]

theorem parseNumber_inv {s rest : List Nat} {v : Nat} (h : parseNumber s = some (v, rest)) :
    ∃ ds, IsNumber ds v ∧ s = ds ++ rest := by
  simp only [parseNumber] at h
  split_ifs at h with h1 h2
  simp only [Option.some.injEq, Prod.mk.injEq] at h
  obtain ⟨rfl, rfl⟩ := h
  refine ⟨_, ⟨h1, fun d hd => (isDigit_iff d).1 (List.mem_takeWhile_imp hd), rfl, by omega⟩, ?_⟩
  exact (List.takeWhile_append_dropWhile).symm

theorem expectSym_cons (x : Nat) (rest : List Nat) : expectSym x (x :: rest) = some rest := by simp [expectSym]

theorem expectSym_inv {x : Nat} {s rest : List Nat} (h : expectSym x s = some rest) : s = x :: rest := by
  cases s with
  | nil => simp [expectSym] at h
  | cons y s =>
    simp only [expectSym] at h
    split_ifs at h with hy
    simp only [Option.some.injEq] at h
    rw [hy, h]

/-- A record of the grammar parses to its token. -/
theorem parseRecord_isRecord {r : List Nat} {t : Token} (h : IsRecord r t) (rest : List Nat) :
    parseRecord (r ++ rest) = some (t, rest) := by
  obtain ⟨o, l, ho, hl, rfl⟩ := h
  have e : wireRecord o l t.literal ++ rest = symLB :: (o ++ symBar :: (l ++ symBar :: t.literal :: symRB :: rest)) := by
    simp [wireRecord]
  rw [e, parseRecord, expectSym_cons, Option.bind_some, parseNumber_isNumber ho (by decide), Option.bind_some, expectSym_cons,
    Option.bind_some, parseNumber_isNumber hl (by decide), Option.bind_some, expectSym_cons]
  simp [parseLiteral, expectSym]

/-- What parses is a record of the grammar. -/
theorem parseRecord_inv {s rest : List Nat} {t : Token} (h : parseRecord s = some (t, rest)) :
    ∃ r, IsRecord r t ∧ s = r ++ rest := by
  simp only [parseRecord, Option.bind_eq_some_iff] at h
  obtain ⟨s1, h1, ⟨o, s1'⟩, h2, s2, h3, ⟨l, s2'⟩, h4, s3, h5, ⟨x, s3'⟩, h6, s4, h7, h8⟩ := h
  simp only [Option.some.injEq, Prod.mk.injEq] at h8
  obtain ⟨rfl, rfl⟩ := h8
  simp only at h3 h5 h7
  obtain ⟨od, ho, rfl⟩ := parseNumber_inv h2
  obtain ⟨ld, hl, hs2⟩ := parseNumber_inv h4
  have hx : s3 = x :: s3' := by
    cases s3 with
    | nil => simp [parseLiteral] at h6
    | cons a b => simp [parseLiteral] at h6; simp [h6]
  refine ⟨wireRecord od ld x, ⟨od, ld, ho, hl, rfl⟩, ?_⟩
  rw [expectSym_inv h1, expectSym_inv h3, hs2, expectSym_inv h5, hx, expectSym_inv h7]
  simp [wireRecord]

theorem IsRecord.ne_nil {r : List Nat} {t : Token} (h : IsRecord r t) : 1 ≤ r.length := by
  obtain ⟨o, l, _, _, rfl⟩ := h
  simp [wireRecord]

theorem parseStream_isStream {p : Nat} {s : List Nat} {toks : List (Token × Nat)} (h : IsStream p s toks) {fuel : Nat}
    (hf : s.length ≤ fuel) : parseStream fuel p s = .ok toks := by
  induction h generalizing fuel with
  | nil p => cases fuel <;> rfl
  | @cons p r rest t toks hr _ ih =>
    have h1 := hr.ne_nil
    rw [List.length_append] at hf
    obtain ⟨fuel, rfl⟩ : ∃ k, fuel = k + 1 := ⟨fuel - 1, by omega⟩
    have hp := parseRecord_isRecord hr rest
    cases hs : r ++ rest with
    | nil => simp [List.append_eq_nil_iff] at hs; simp [hs.1] at h1
    | cons x xs =>
      rw [hs] at hp
      rw [parseStream, hp]
      simp only
      rw [← hs, List.length_append, Nat.add_sub_cancel, ih (by omega)]
      rfl

theorem parseStream_inv {fuel p : Nat} {s : List Nat} {toks : List (Token × Nat)} (h : parseStream fuel p s = .ok toks) :
    IsStream p s toks := by
  induction fuel generalizing p s toks with
  | zero =>
    cases s with
    | nil => cases h; exact .nil p
    | cons => simp [parseStream] at h
  | succ fuel ih =>
    cases s with
    | nil => cases h; exact .nil p
    | cons x xs =>
      rw [parseStream] at h
      cases hr : parseRecord (x :: xs) with
      | none => simp [hr] at h
      | some tr =>
        obtain ⟨t, rest⟩ := tr
        simp only [hr] at h
        obtain ⟨r, hrec, hs⟩ := parseRecord_inv hr
        rw [hs, List.length_append, Nat.add_sub_cancel] at h
        obtain ⟨ts, hp, rfl⟩ := map_eq_ok h
        rw [hs]
        exact .cons hrec (ih hp)

/-- The parse stops at the first index after whole records where no record begins. -/
theorem parseStream_stops {p : Nat} {s : List Nat} {toks : List (Token × Nat)} (h : IsStream p s toks) (rest : List Nat)
    (hne : rest ≠ []) (hno : parseRecord rest = none) {fuel : Nat} (hf : s.length + rest.length ≤ fuel) :
    parseStream fuel p (s ++ rest) = .error (.malformedToken (p + s.length)) := by
  induction h generalizing fuel with
  | nil p =>
    obtain ⟨fuel, rfl⟩ : ∃ k, fuel = k + 1 := ⟨fuel - 1, by have := List.length_pos_iff.2 hne; simp at hf; omega⟩
    cases rest with
    | nil => exact absurd rfl hne
    | cons x xs => simp [parseStream, hno]
  | @cons p r s t toks hr _ ih =>
    have h1 := hr.ne_nil
    rw [List.length_append] at hf
    obtain ⟨fuel, rfl⟩ : ∃ k, fuel = k + 1 := ⟨fuel - 1, by omega⟩
    have hp := parseRecord_isRecord hr (s ++ rest)
    rw [List.append_assoc]
    cases hs : r ++ (s ++ rest) with
    | nil => simp [List.append_eq_nil_iff] at hs; simp [hs.1] at h1
    | cons x xs =>
      rw [hs] at hp
      rw [parseStream, hp]
      simp only
      rw [← hs, List.length_append (as := r), Nat.add_sub_cancel, ih (by omega), List.length_append, ← Nat.add_assoc]
      rfl

/-! ### The matcher -/

theorem matchesAt_iff {text : List Nat} {c p k : Nat} :
    matchesAt text c p k = true ↔ ∀ i, i < k → text.getD (p + i) 0 = text.getD (c + i) 0 := by
  simp only [matchesAt, symAt, List.all_eq_true, List.mem_range, beq_iff_eq]

theorem leastStart_some {text : List Nat} {w c k p : Nat} (h : leastStart text w c k = some p) :
    Occurs text w c p k ∧ ∀ q, Occurs text w c q k → p ≤ q := by
  rw [leastStart, List.find?_range'_eq_some] at h
  obtain ⟨h1, h2, h3⟩ := h
  rw [List.mem_range'_1] at h2
  refine ⟨⟨h2.1, by omega, matchesAt_iff.1 h1⟩, fun q hq => ?_⟩
  by_contra hlt
  have := h3 q hq.1 (by omega)
  rw [matchesAt_iff.2 hq.2.2] at this
  simp at this

theorem leastStart_none {text : List Nat} {w c k : Nat} (h : leastStart text w c k = none) : ¬∃ p, Occurs text w c p k := by
  rintro ⟨p, h1, h2, h3⟩
  rw [leastStart, List.find?_eq_none] at h
  exact h p (List.mem_range'_1.2 ⟨h1, by omega⟩) (matchesAt_iff.2 h3)

theorem Occurs.mono {text : List Nat} {w c p k k' : Nat} (h : Occurs text w c p k) (hk : k' ≤ k) : Occurs text w c p k' :=
  ⟨h.1, h.2.1, fun i hi => h.2.2 i (by omega)⟩

/-- What the growth loop keeps: a length with its least occurrence. -/
theorem growMatch_spec {text : List Nat} {w c fuel k p : Nat}
    (h : 1 ≤ k → Occurs text w c p k ∧ ∀ q, Occurs text w c q k → p ≤ q) :
    k ≤ (growMatch text w c fuel k p).1 ∧ (growMatch text w c fuel k p).1 ≤ k + fuel ∧
      (1 ≤ (growMatch text w c fuel k p).1 → Occurs text w c (growMatch text w c fuel k p).2 (growMatch text w c fuel k p).1 ∧
        ∀ q, Occurs text w c q (growMatch text w c fuel k p).1 → (growMatch text w c fuel k p).2 ≤ q) ∧
      ∀ k', (growMatch text w c fuel k p).1 < k' → k' ≤ k + fuel → ¬∃ q, Occurs text w c q k' := by
  induction fuel generalizing k p with
  | zero => exact ⟨le_refl _, le_refl _, h, fun k' h1 h2 => by simp [growMatch] at h1; omega⟩
  | succ fuel ih =>
    rw [growMatch]
    cases hl : leastStart text w c (k + 1) with
    | none =>
      refine ⟨le_refl _, by simp, h, fun k' h1 h2 ⟨q, hq⟩ => leastStart_none hl ⟨q, hq.mono ?_⟩⟩
      simpa using h1
    | some q =>
      obtain ⟨h1, h2, h3, h4⟩ := ih (k := k + 1) (p := q) (fun _ => leastStart_some hl)
      simp only
      exact ⟨by omega, by omega, h3, fun k' hk hk' => h4 k' hk (by omega)⟩

theorem longestMatch_spec (text : List Nat) (w l c : Nat) :
    IsMatchLength text w l c (longestMatch text w l c).1 ∧
      IsMatchOffset text w c (longestMatch text w l c).1 (matchOffset c (longestMatch text w l c)) := by
  obtain ⟨_, h2, h3, h4⟩ := growMatch_spec (text := text) (w := w) (c := c) (fuel := min l (text.length - c - 1)) (k := 0)
    (p := 0) (by omega)
  rw [Nat.zero_add] at h2 h4
  refine ⟨⟨le_trans h2 (min_le_left _ _), le_trans h2 (min_le_right _ _), fun h => ⟨_, (h3 h).1⟩, fun k' hk hl hn => ?_⟩,
    fun h0 => ?_, fun h1 => ⟨_, (h3 h1).1, (h3 h1).2, ?_⟩⟩
  · exact h4 k' hk (le_min hl hn)
  · rw [matchOffset, h0]; rfl
  · rw [matchOffset, if_pos h1]; rfl

theorem IsMatchLength.unique {text : List Nat} {w l c k k' : Nat} (h : IsMatchLength text w l c k)
    (h' : IsMatchLength text w l c k') : k = k' := by
  rcases lt_trichotomy k k' with hlt | heq | hgt
  · exact absurd (h'.2.2.1 (by omega)) (h.2.2.2 k' hlt h'.1 h'.2.1)
  · exact heq
  · exact absurd (h.2.2.1 (by omega)) (h'.2.2.2 k hgt h.1 h.2.1)

theorem IsMatchOffset.unique {text : List Nat} {w c k o o' : Nat} (h : IsMatchOffset text w c k o)
    (h' : IsMatchOffset text w c k o') : o = o' := by
  rcases Nat.eq_zero_or_pos k with h0 | h0
  · rw [h.1 h0, h'.1 h0]
  · obtain ⟨p, hp, hl, rfl⟩ := h.2 h0
    obtain ⟨q, hq, hl', rfl⟩ := h'.2 h0
    rw [le_antisymm (hl q hq) (hl' p hp)]

/-! ### Compression -/

theorem compressFrom_spec (text : List Nat) (w l : Nat) (fuel c : Nat) (h : text.length ≤ c + fuel) :
    Compresses text w l c (compressFrom text w l fuel c) := by
  induction fuel generalizing c with
  | zero => exact .done (by omega)
  | succ fuel ih =>
    rw [compressFrom]
    split_ifs with hc
    · obtain ⟨h1, h2⟩ := longestMatch_spec text w l c
      exact .token hc h1 h2 rfl (ih _ (by omega))
    · exact .done (by omega)

theorem compress_spec (text : List Nat) (w l : Nat) : Compresses text w l 0 (compress text w l) :=
  compressFrom_spec text w l _ _ (by omega)

theorem Compresses.unique {text : List Nat} {w l c : Nat} {toks toks' : List (Token × Nat)}
    (h : Compresses text w l c toks) (h' : Compresses text w l c toks') : toks = toks' := by
  induction h generalizing toks' with
  | done hc =>
    cases h' with
    | done => rfl
    | token hc' => omega
  | @token c t toks hc hl ho hlit _ ih =>
    cases h' with
    | done hc' => omega
    | @token _ t' toks' hc' hl' ho' hlit' hrest =>
      obtain ⟨o, k, x⟩ := t
      obtain ⟨o', k', x'⟩ := t'
      simp only at *
      obtain rfl := hl.unique hl'
      obtain rfl := ho.unique ho'
      rw [ih hrest, hlit, hlit']

theorem IsMatchOffset.bounds {text : List Nat} {w c k o : Nat} (h : IsMatchOffset text w c k o) :
    (k = 0 ∧ o = 0) ∨ (1 ≤ k ∧ 1 ≤ o ∧ o ≤ w ∧ o ≤ c) := by
  rcases Nat.eq_zero_or_pos k with h0 | h0
  · exact .inl ⟨h0, h.1 h0⟩
  · obtain ⟨p, hp, _, rfl⟩ := h.2 h0
    have := hp.1
    have := hp.2.1
    exact .inr ⟨h0, by omega, by omega, by omega⟩

theorem writeRecords_ok {cap out : Nat} {toks : List (Token × Nat)}
    (h : out + (toks.flatMap (fun e => record e.1)).length ≤ cap) :
    writeRecords cap out toks = .ok (toks.flatMap (fun e => record e.1)) := by
  induction toks generalizing out with
  | nil => rfl
  | cons e toks ih =>
    obtain ⟨t, c⟩ := e
    simp only [List.flatMap_cons, List.length_append] at h
    rw [writeRecords, if_neg (by omega), ih (by omega), List.flatMap_cons]
    rfl

theorem writeRecords_overflow {cap out : Nat} {pre post : List (Token × Nat)} {t : Token} {c : Nat}
    (h : out + (pre.flatMap (fun e => record e.1)).length ≤ cap)
    (ho : cap < out + (pre.flatMap (fun e => record e.1)).length + (record t).length) :
    writeRecords cap out (pre ++ (t, c) :: post) = .error (.dstOverflow c) := by
  induction pre generalizing out with
  | nil => rw [List.nil_append, writeRecords, if_pos (by simpa using ho)]
  | cons e pre ih =>
    obtain ⟨t', c'⟩ := e
    simp only [List.flatMap_cons, List.length_append] at h ho
    rw [List.cons_append, writeRecords, if_neg (by omega), ih (by omega) (by omega)]
    rfl

theorem writeRecords_inv {cap out : Nat} {toks : List (Token × Nat)} {stream : List Nat}
    (h : writeRecords cap out toks = .ok stream) (hm : out ≤ cap) :
    stream = toks.flatMap (fun e => record e.1) ∧ out + stream.length ≤ cap := by
  induction toks generalizing out stream with
  | nil => cases h; simpa using hm
  | cons e toks ih =>
    obtain ⟨t, c⟩ := e
    rw [writeRecords] at h
    split_ifs at h with h1
    obtain ⟨s, hr, rfl⟩ := map_eq_ok h
    obtain ⟨rfl, h2⟩ := ih hr (by omega)
    simp only [List.length_append, List.flatMap_cons, true_and] at h2 ⊢
    omega

/-- The records of tokens with small numbers are a stream of the grammar, each token at its record's index. -/
theorem isStream_records (toks : List (Token × Nat)) (h : ∀ e ∈ toks, e.1.offset < 2 ^ 32 ∧ e.1.length < 2 ^ 32) (p : Nat) :
    ∃ toks', IsStream p (toks.flatMap (fun e => record e.1)) toks' ∧
      toks'.map (fun e => e.1) = toks.map (fun e => e.1) := by
  induction toks generalizing p with
  | nil => exact ⟨[], .nil p, rfl⟩
  | cons e toks ih =>
    obtain ⟨toks', hs, hm⟩ := ih (fun d hd => h d (by simp [hd])) (p + (record e.1).length)
    have he := h e (by simp)
    exact ⟨(e.1, p) :: toks', .cons (record_isRecord he.1 he.2) hs, by simp [hm]⟩

/-! ### The apply phase -/

theorem length_copyLive (len s : Nat) (out : List Nat) : (copyLive len s out).length = out.length + len := by
  induction len generalizing s out with
  | zero => rfl
  | succ len ih => rw [copyLive, ih]; simp; omega

theorem copyLive_kept (len s : Nat) (out : List Nat) (j : Nat) (hj : j < out.length) :
    (copyLive len s out).getD j 0 = out.getD j 0 := by
  induction len generalizing s out with
  | zero => rfl
  | succ len ih =>
    rw [copyLive, ih _ _ (by simp; omega), List.getD_append _ _ _ _ hj]

theorem copyLive_copied (len s : Nat) (out : List Nat) (hs : s < out.length) (j : Nat) (hj : j < len) :
    (copyLive len s out).getD (out.length + j) 0 = (copyLive len s out).getD (s + j) 0 := by
  induction len generalizing s out j with
  | zero => omega
  | succ len ih =>
    rw [copyLive]
    cases j with
    | zero =>
      rw [copyLive_kept _ _ _ _ (by simp), copyLive_kept _ _ _ _ (by simp; omega), Nat.add_zero, Nat.add_zero,
        List.getD_append_right _ _ _ _ (le_refl _), List.getD_append _ _ _ _ hs]
      simp [symAt]
    | succ j =>
      have := ih (s + 1) (out ++ [symAt out s]) (by simp; omega) j (by omega)
      rw [List.length_append, List.length_singleton] at this
      rw [show out.length + (j + 1) = out.length + 1 + j by omega, this, show s + 1 + j = s + (j + 1) by omega]

/-- The live copy and the literal do what a legal token means. -/
theorem expands_copyLive {out : List Nat} {t : Token} (h1 : 1 ≤ t.offset) (h2 : t.offset ≤ out.length) :
    Expands out t (copyLive t.length (out.length - t.offset) out ++ [t.literal]) := by
  have hlen := length_copyLive t.length (out.length - t.offset) out
  refine ⟨.inr ⟨h1, h2⟩, by simp [hlen], fun j hj => ?_, fun j hj => ?_, ?_⟩
  · rw [List.getD_append _ _ _ _ (by omega), copyLive_kept _ _ _ _ hj]
  · rw [List.getD_append _ _ _ _ (by omega), List.getD_append _ _ _ _ (by omega),
      copyLive_copied _ _ _ (by omega) _ hj]
    congr 1; omega
  · rw [List.getD_append_right _ _ _ _ (by omega), hlen]; simp

theorem expands_raw {out : List Nat} {t : Token} (h1 : t.offset = 0) (h2 : t.length = 0) :
    Expands out t (out ++ [t.literal]) := by
  refine ⟨.inl ⟨h1, h2⟩, by simp [h2], fun j hj => List.getD_append _ _ _ _ hj, fun j hj => by omega, ?_⟩
  rw [h2, Nat.add_zero, List.getD_append_right _ _ _ _ (le_refl _)]; simp

theorem list_ext_getD {a b : List Nat} (hl : a.length = b.length) (h : ∀ j, j < a.length → a.getD j 0 = b.getD j 0) :
    a = b := by
  apply List.ext_getElem hl
  intro j h1 h2
  have := h j h1
  rwa [List.getD_eq_getElem _ _ h1, List.getD_eq_getElem _ _ h2] at this

/-- A token's meaning determines the output. -/
theorem Expands.unique {out next next' : List Nat} {t : Token} (h : Expands out t next) (h' : Expands out t next') :
    next = next' := by
  refine list_ext_getD (by rw [h.newLength, h'.newLength]) fun j hj => ?_
  induction j using Nat.strongRecOn with
  | ind j ih =>
    rw [h.newLength] at hj
    by_cases h1 : j < out.length
    · rw [h.kept j h1, h'.kept j h1]
    · by_cases h2 : j = out.length + t.length
      · rw [h2, h.literal, h'.literal]
      · obtain ⟨k, rfl⟩ : ∃ k, j = out.length + k := ⟨j - out.length, by omega⟩
        have hk : k < t.length := by omega
        rw [h.copied k hk, h'.copied k hk]
        rcases h.legal with ⟨_, h0⟩ | ⟨h0, _⟩
        · omega
        · exact ih _ (by omega) (by rw [h.newLength]; omega)

theorem Expands.length_le {out next : List Nat} {t : Token} (h : Expands out t next) : out.length ≤ next.length := by
  rw [h.newLength]; omega

theorem Decompresses.length_le {out final : List Nat} {toks : List (Token × Nat)} (h : Decompresses out toks final) :
    out.length ≤ final.length := by
  induction h with
  | nil => exact le_refl _
  | cons he _ ih => exact le_trans he.length_le ih

/-- One token of the apply phase. -/
theorem applyTokens_cons {cap : Nat} {out next : List Nat} {t : Token} {t0 : Nat} {toks : List (Token × Nat)}
    (h : Expands out t next) : applyTokens cap out ((t, t0) :: toks) =
      if cap < next.length then .error (.dstOverflow t0) else applyTokens cap next toks := by
  rw [applyTokens, h.newLength]
  rcases h.legal with ⟨h0, h1⟩ | ⟨h0, h1⟩
  · rw [if_pos ⟨h0, h1⟩, h1, h.unique (expands_raw h0 h1)]
  · rw [if_neg (by omega), if_neg (by omega), h.unique (expands_copyLive h0 h1)]

theorem applyTokens_ok {cap : Nat} {out final : List Nat} {toks : List (Token × Nat)} (h : Decompresses out toks final)
    (hc : final.length ≤ cap) : applyTokens cap out toks = .ok final := by
  induction h with
  | nil => rfl
  | cons he hd ih =>
    rw [applyTokens_cons he, if_neg (by have := hd.length_le; omega), ih hc]

theorem applyTokens_inv {cap : Nat} {out final : List Nat} {toks : List (Token × Nat)}
    (h : applyTokens cap out toks = .ok final) (hm : out.length ≤ cap) :
    Decompresses out toks final ∧ final.length ≤ cap := by
  induction toks generalizing out with
  | nil => cases h; exact ⟨.nil _, hm⟩
  | cons e toks ih =>
    obtain ⟨t, t0⟩ := e
    have hlegal : ∃ next, Expands out t next := by
      rw [applyTokens] at h
      split_ifs at h with h1 h2 h3 h4
      · exact ⟨_, expands_raw h1.1 h1.2⟩
      · exact ⟨_, expands_copyLive (by omega) (by omega)⟩
    obtain ⟨next, hn⟩ := hlegal
    rw [applyTokens_cons hn] at h
    split_ifs at h with hlt
    obtain ⟨h1, h2⟩ := ih h (by omega)
    exact ⟨.cons hn h1, h2⟩

/-- Tokens that expand and fit are passed. -/
theorem applyTokens_append {cap : Nat} {out mid : List Nat} {pre post : List (Token × Nat)} (h : Decompresses out pre mid)
    (hc : mid.length ≤ cap) : applyTokens cap out (pre ++ post) = applyTokens cap mid post := by
  induction h with
  | nil => rfl
  | cons he hd ih =>
    rw [List.cons_append, applyTokens_cons he, if_neg (by have := hd.length_le; omega), ih hc]

/-! ### Compression, then decompression -/

/-- The prefix of a text that Compress has consumed, with one more token, is what the token makes of the prefix. -/
theorem expands_take {text : List Nat} {w l c : Nat} {t : Token} (hc : c < text.length)
    (hl : IsMatchLength text w l c t.length) (ho : IsMatchOffset text w c t.length t.offset)
    (hlit : t.literal = text.getD (c + t.length) 0) : Expands (text.take c) t (text.take (c + t.length + 1)) := by
  have hk := hl.2.1
  have ht : (text.take c).length = c := by simp; omega
  have getD_take : ∀ n j, j < n → (text.take n).getD j 0 = text.getD j 0 := fun n j h => by
    simp [List.getD_eq_getElem?_getD, h]
  refine ⟨?_, by simp; omega, fun j hj => ?_, fun j hj => ?_, ?_⟩
  · rcases ho.bounds with h | h
    · exact .inl ⟨h.2, h.1⟩
    · rw [ht]; exact .inr ⟨h.2.1, h.2.2.2⟩
  · rw [ht] at hj
    rw [getD_take _ _ (by omega), getD_take _ _ hj]
  · obtain ⟨p, hp, _, hpo⟩ := ho.2 (by omega)
    have h1 := hp.2.1
    rw [ht, getD_take _ _ (by omega), getD_take _ _ (by omega), ← hp.2.2 j hj]
    congr 1; omega
  · rw [ht, getD_take _ _ (by omega), hlit]

theorem Compresses.decompresses {text : List Nat} {w l c : Nat} {toks : List (Token × Nat)}
    (h : Compresses text w l c toks) {toks' : List (Token × Nat)} (hm : toks'.map (fun e => e.1) = toks.map (fun e => e.1)) :
    Decompresses (text.take c) toks' text := by
  induction h generalizing toks' with
  | done hc =>
    rw [List.map_nil, List.map_eq_nil_iff] at hm
    rw [hm, List.take_of_length_le hc]
    exact .nil _
  | token hc hl ho hlit _ ih =>
    cases toks' with
    | nil => simp at hm
    | cons e toks' =>
      obtain ⟨t', t0⟩ := e
      simp only [List.map_cons, List.cons.injEq] at hm
      obtain ⟨rfl, hm⟩ := hm
      exact .cons (expands_take hc hl ho hlit) (ih hm)

theorem Compresses.bounds {text : List Nat} {w l c : Nat} {toks : List (Token × Nat)} (h : Compresses text w l c toks) :
    ∀ e ∈ toks, (e.1.offset = 0 ∧ e.1.length = 0) ∨
      (1 ≤ e.1.offset ∧ e.1.offset ≤ w ∧ 1 ≤ e.1.length ∧ e.1.length ≤ l) := by
  induction h with
  | done => simp
  | token hc hl ho _ _ ih =>
    intro e he
    rcases List.mem_cons.1 he with rfl | he
    · rcases ho.bounds with h | h
      · exact .inl ⟨h.2, h.1⟩
      · exact .inr ⟨h.2.1, h.2.2.1, h.1, hl.1⟩
    · exact ih e he

/-- Decompressing a compressed text gives it back, whatever the window and the lookahead. -/
theorem decompress_compress {text : List Nat} {w l cap : Nat} (hw : w < 2 ^ 32) (hl : l < 2 ^ 32) (hc : text.length ≤ cap) :
    decompress cap ((compress text w l).flatMap (fun e => record e.1)) = .ok text := by
  have hb := (compress_spec text w l).bounds
  obtain ⟨toks', hs, hm⟩ := isStream_records (compress text w l)
    (fun e he => by rcases hb e he with h | h <;> constructor <;> omega) 0
  rw [decompress, parseStream_isStream hs (le_refl _)]
  have := (compress_spec text w l).decompresses hm
  exact applyTokens_ok this hc

/-! ### Lengths and symbols -/

theorem decimal_length_le (ds : List Nat) (hne : ds ≠ []) (h : ∀ d ∈ ds, 0x30 ≤ d ∧ d ≤ 0x39) :
    (decimal (digitsValue ds)).length ≤ ds.length := by
  induction ds using List.reverseRecOn with
  | nil => exact absurd rfl hne
  | append_singleton a d ih =>
    have hd := h d (by simp)
    rw [digitsValue_snoc]
    by_cases hlt : 10 * digitsValue a + (d - symZero) < 10
    · rw [decimal_of_lt hlt]; simp
    · rw [decimal_step hlt]
      have h1 : (10 * digitsValue a + (d - symZero)) / 10 = digitsValue a := by simp only [symZero] at *; omega
      have hane : a ≠ [] := by
        rintro rfl
        simp [digitsValue, symZero] at hlt; omega
      have := ih hane (fun x hx => h x (by simp [hx]))
      rw [h1]; simpa using this

theorem IsNumber.length_le {ds : List Nat} {v : Nat} (h : IsNumber ds v) : (decimal v).length ≤ ds.length := by
  have := decimal_length_le ds h.someDigit h.allDigits
  rwa [show digitsValue ds = v from h.value] at this

theorem decimal_lt {n x : Nat} {p : Params} (h : x ∈ decimal n) : x < p.alphabetMax := by
  have := decimal_digits n x h
  have : 256 ≤ p.alphabetMax := by rw [alphabetMax_eq]; exact Nat.le_self_pow (sb_pos p).ne' 256
  omega

theorem record_lt {t : Token} {p : Params} (ht : t.literal < p.alphabetMax) : ∀ x ∈ record t, x < p.alphabetMax := by
  have : 256 ≤ p.alphabetMax := by rw [alphabetMax_eq]; exact Nat.le_self_pow (sb_pos p).ne' 256
  intro x hx
  simp only [record, List.mem_append, List.mem_cons, List.not_mem_nil, or_false] at hx
  rcases hx with (((hx | hx) | hx) | hx) | hx | hx | hx
  · subst hx; simp only [symLB]; omega
  · exact decimal_lt hx
  · subst hx; simp only [symBar]; omega
  · exact decimal_lt hx
  · subst hx; simp only [symBar]; omega
  · rw [hx]; exact ht
  · subst hx; simp only [symRB]; omega

theorem Compresses.literal_mem {text : List Nat} {w l c : Nat} {toks : List (Token × Nat)}
    (h : Compresses text w l c toks) : ∀ e ∈ toks, e.1.literal ∈ text := by
  induction h with
  | done => simp
  | @token c t toks hc hl ho hlit _ ih =>
    intro e he
    rcases List.mem_cons.1 he with rfl | he
    · have := hl.2.1
      simp only [hlit]
      rw [List.getD_eq_getElem _ _ (by omega)]
      exact List.getElem_mem _
    · exact ih e he

theorem records_lt {text : List Nat} {w l : Nat} {p : Params} (h : ∀ x ∈ text, x < p.alphabetMax) :
    ∀ x ∈ (compress text w l).flatMap (fun e => record e.1), x < p.alphabetMax := by
  intro x hx
  obtain ⟨e, he, hx⟩ := List.mem_flatMap.1 hx
  exact record_lt (h _ (Compresses.literal_mem (compress_spec text w l) e he)) x hx

theorem IsStream.literal_mem {p : Nat} {s : List Nat} {toks : List (Token × Nat)} (h : IsStream p s toks) :
    ∀ e ∈ toks, e.1.literal ∈ s := by
  induction h with
  | nil => simp
  | cons hr _ ih =>
    intro e he
    rcases List.mem_cons.1 he with rfl | he
    · obtain ⟨o, l, _, _, rfl⟩ := hr
      simp [wireRecord]
    · simp [ih e he]

theorem Expands.symbols_lt {out next : List Nat} {t : Token} {A : Nat} (h : Expands out t next) (ho : ∀ x ∈ out, x < A)
    (ht : t.literal < A) : ∀ x ∈ next, x < A := by
  have key : ∀ j, j < next.length → next.getD j 0 < A := by
    intro j
    induction j using Nat.strongRecOn with
    | ind j ih =>
      intro hj
      rw [h.newLength] at hj
      by_cases h1 : j < out.length
      · rw [h.kept j h1, List.getD_eq_getElem _ _ h1]; exact ho _ (List.getElem_mem _)
      · by_cases h2 : j = out.length + t.length
        · rw [h2, h.literal]; exact ht
        · obtain ⟨k, rfl⟩ : ∃ k, j = out.length + k := ⟨j - out.length, by omega⟩
          have hk : k < t.length := by omega
          rw [h.copied k hk]
          rcases h.legal with ⟨_, h0⟩ | ⟨h0, _⟩
          · omega
          · exact ih _ (by omega) (by rw [h.newLength]; omega)
  intro x hx
  obtain ⟨j, hj, rfl⟩ := List.getElem_of_mem hx
  have := key j hj
  rwa [List.getD_eq_getElem _ _ hj] at this

theorem Decompresses.symbols_lt {out final : List Nat} {toks : List (Token × Nat)} {A : Nat}
    (h : Decompresses out toks final) (ho : ∀ x ∈ out, x < A) (ht : ∀ e ∈ toks, e.1.literal < A) : ∀ x ∈ final, x < A := by
  induction h with
  | nil => exact ho
  | cons he _ ih =>
    exact ih (Expands.symbols_lt he ho (ht _ List.mem_cons_self)) (fun e he' => ht e (List.mem_cons_of_mem _ he'))

theorem parseRecord_eq_none {rest : List Nat} (h : ∀ r t rest', IsRecord r t → rest ≠ r ++ rest') :
    parseRecord rest = none := by
  cases hr : parseRecord rest with
  | none => rfl
  | some p =>
    obtain ⟨r, h1, h2⟩ := parseRecord_inv (t := p.1) (rest := p.2) hr
    exact absurd h2 (h r _ _ h1)

end Sys2Proof.Machine
end

