-- ==== Sys2Proof/Laws/State.lean ====
section
/-! SUPPORT. One lemma per field per shared update, each true by `rfl`, so that no later proof unfolds a record update. -/

namespace Sys2Proof.Machine

/-! ### writeBytes -/

@[simp] theorem writeBytes_params (a : Nat) (bs : List Byte) (s : State) : (writeBytes a bs s).params = s.params := rfl
@[simp] theorem writeBytes_resetLine (a : Nat) (bs : List Byte) (s : State) : (writeBytes a bs s).resetLine = s.resetLine := rfl
@[simp] theorem writeBytes_phase (a : Nat) (bs : List Byte) (s : State) : (writeBytes a bs s).phase = s.phase := rfl
@[simp] theorem writeBytes_irqEn (a : Nat) (bs : List Byte) (s : State) : (writeBytes a bs s).irqEn = s.irqEn := rfl
@[simp] theorem writeBytes_done (a : Nat) (bs : List Byte) (s : State) : (writeBytes a bs s).done = s.done := rfl
@[simp] theorem writeBytes_err (a : Nat) (bs : List Byte) (s : State) : (writeBytes a bs s).err = s.err := rfl
@[simp] theorem writeBytes_wbusy (a : Nat) (bs : List Byte) (s : State) : (writeBytes a bs s).wbusy = s.wbusy := rfl
@[simp] theorem writeBytes_errCode (a : Nat) (bs : List Byte) (s : State) : (writeBytes a bs s).errCode = s.errCode := rfl
@[simp] theorem writeBytes_lastOp (a : Nat) (bs : List Byte) (s : State) : (writeBytes a bs s).lastOp = s.lastOp := rfl
@[simp] theorem writeBytes_srcAddr (a : Nat) (bs : List Byte) (s : State) : (writeBytes a bs s).srcAddr = s.srcAddr := rfl
@[simp] theorem writeBytes_srcLen (a : Nat) (bs : List Byte) (s : State) : (writeBytes a bs s).srcLen = s.srcLen := rfl
@[simp] theorem writeBytes_dstAddr (a : Nat) (bs : List Byte) (s : State) : (writeBytes a bs s).dstAddr = s.dstAddr := rfl
@[simp] theorem writeBytes_dstCap (a : Nat) (bs : List Byte) (s : State) : (writeBytes a bs s).dstCap = s.dstCap := rfl
@[simp] theorem writeBytes_lzCfg (a : Nat) (bs : List Byte) (s : State) : (writeBytes a bs s).lzCfg = s.lzCfg := rfl
@[simp] theorem writeBytes_cursor (a : Nat) (bs : List Byte) (s : State) : (writeBytes a bs s).cursor = s.cursor := rfl
@[simp] theorem writeBytes_symSel (a : Nat) (bs : List Byte) (s : State) : (writeBytes a bs s).symSel = s.symSel := rfl
@[simp] theorem writeBytes_resultLen (a : Nat) (bs : List Byte) (s : State) : (writeBytes a bs s).resultLen = s.resultLen := rfl
@[simp] theorem writeBytes_matchOff (a : Nat) (bs : List Byte) (s : State) : (writeBytes a bs s).matchOff = s.matchOff := rfl
@[simp] theorem writeBytes_errInfo (a : Nat) (bs : List Byte) (s : State) : (writeBytes a bs s).errInfo = s.errInfo := rfl
@[simp] theorem writeBytes_codec (a : Nat) (bs : List Byte) (s : State) : (writeBytes a bs s).codec = s.codec := rfl
@[simp] theorem writeBytes_mem (a : Nat) (bs : List Byte) (s : State) :
    (writeBytes a bs s).mem = Memory.writeBytes s.mem a bs := rfl
@[simp] theorem writeBytes_memDraw (a : Nat) (bs : List Byte) (s : State) : (writeBytes a bs s).memDraw = s.memDraw := rfl
@[simp] theorem writeBytes_draws (a : Nat) (bs : List Byte) (s : State) : (writeBytes a bs s).draws = s.draws := rfl
@[simp] theorem writeBytes_pending (a : Nat) (bs : List Byte) (s : State) : (writeBytes a bs s).pending = s.pending := rfl
@[simp] theorem writeBytes_answer (a : Nat) (bs : List Byte) (s : State) : (writeBytes a bs s).answer = s.answer := rfl

/-! ### takeDraw -/

@[simp] theorem takeDraw_params (s : State) : (takeDraw s).params = s.params := rfl
@[simp] theorem takeDraw_resetLine (s : State) : (takeDraw s).resetLine = s.resetLine := rfl
@[simp] theorem takeDraw_phase (s : State) : (takeDraw s).phase = s.phase := rfl
@[simp] theorem takeDraw_irqEn (s : State) : (takeDraw s).irqEn = s.irqEn := rfl
@[simp] theorem takeDraw_done (s : State) : (takeDraw s).done = s.done := rfl
@[simp] theorem takeDraw_err (s : State) : (takeDraw s).err = s.err := rfl
@[simp] theorem takeDraw_wbusy (s : State) : (takeDraw s).wbusy = s.wbusy := rfl
@[simp] theorem takeDraw_errCode (s : State) : (takeDraw s).errCode = s.errCode := rfl
@[simp] theorem takeDraw_lastOp (s : State) : (takeDraw s).lastOp = s.lastOp := rfl
@[simp] theorem takeDraw_srcAddr (s : State) : (takeDraw s).srcAddr = s.srcAddr := rfl
@[simp] theorem takeDraw_srcLen (s : State) : (takeDraw s).srcLen = s.srcLen := rfl
@[simp] theorem takeDraw_dstAddr (s : State) : (takeDraw s).dstAddr = s.dstAddr := rfl
@[simp] theorem takeDraw_dstCap (s : State) : (takeDraw s).dstCap = s.dstCap := rfl
@[simp] theorem takeDraw_lzCfg (s : State) : (takeDraw s).lzCfg = s.lzCfg := rfl
@[simp] theorem takeDraw_cursor (s : State) : (takeDraw s).cursor = s.cursor := rfl
@[simp] theorem takeDraw_symSel (s : State) : (takeDraw s).symSel = s.symSel := rfl
@[simp] theorem takeDraw_resultLen (s : State) : (takeDraw s).resultLen = s.resultLen := rfl
@[simp] theorem takeDraw_matchOff (s : State) : (takeDraw s).matchOff = s.matchOff := rfl
@[simp] theorem takeDraw_errInfo (s : State) : (takeDraw s).errInfo = s.errInfo := rfl
@[simp] theorem takeDraw_codec (s : State) : (takeDraw s).codec = s.codec := rfl
@[simp] theorem takeDraw_mem (s : State) : (takeDraw s).mem = s.mem := rfl
@[simp] theorem takeDraw_memDraw (s : State) : (takeDraw s).memDraw = s.memDraw := rfl
@[simp] theorem takeDraw_draws (s : State) : (takeDraw s).draws = s.draws + 1 := rfl
@[simp] theorem takeDraw_pending (s : State) : (takeDraw s).pending = s.pending := rfl
@[simp] theorem takeDraw_answer (s : State) : (takeDraw s).answer = s.answer := rfl

/-! ### drawDestination -/

@[simp] theorem drawDestination_params (s : State) : (drawDestination s).params = s.params := rfl
@[simp] theorem drawDestination_resetLine (s : State) : (drawDestination s).resetLine = s.resetLine := rfl
@[simp] theorem drawDestination_phase (s : State) : (drawDestination s).phase = s.phase := rfl
@[simp] theorem drawDestination_irqEn (s : State) : (drawDestination s).irqEn = s.irqEn := rfl
@[simp] theorem drawDestination_done (s : State) : (drawDestination s).done = s.done := rfl
@[simp] theorem drawDestination_err (s : State) : (drawDestination s).err = s.err := rfl
@[simp] theorem drawDestination_wbusy (s : State) : (drawDestination s).wbusy = s.wbusy := rfl
@[simp] theorem drawDestination_errCode (s : State) : (drawDestination s).errCode = s.errCode := rfl
@[simp] theorem drawDestination_lastOp (s : State) : (drawDestination s).lastOp = s.lastOp := rfl
@[simp] theorem drawDestination_srcAddr (s : State) : (drawDestination s).srcAddr = s.srcAddr := rfl
@[simp] theorem drawDestination_srcLen (s : State) : (drawDestination s).srcLen = s.srcLen := rfl
@[simp] theorem drawDestination_dstAddr (s : State) : (drawDestination s).dstAddr = s.dstAddr := rfl
@[simp] theorem drawDestination_dstCap (s : State) : (drawDestination s).dstCap = s.dstCap := rfl
@[simp] theorem drawDestination_lzCfg (s : State) : (drawDestination s).lzCfg = s.lzCfg := rfl
@[simp] theorem drawDestination_cursor (s : State) : (drawDestination s).cursor = s.cursor := rfl
@[simp] theorem drawDestination_symSel (s : State) : (drawDestination s).symSel = s.symSel := rfl
@[simp] theorem drawDestination_resultLen (s : State) : (drawDestination s).resultLen = s.resultLen := rfl
@[simp] theorem drawDestination_matchOff (s : State) : (drawDestination s).matchOff = s.matchOff := rfl
@[simp] theorem drawDestination_errInfo (s : State) : (drawDestination s).errInfo = s.errInfo := rfl
@[simp] theorem drawDestination_codec (s : State) : (drawDestination s).codec = s.codec := rfl
@[simp] theorem drawDestination_mem (s : State) :
    (drawDestination s).mem = Memory.writeBytes s.mem s.dstAddr.toNat (freeBytes s.draws s.dstAddr.toNat s.dstCap.toNat) := rfl
@[simp] theorem drawDestination_memDraw (s : State) : (drawDestination s).memDraw = s.memDraw := rfl
@[simp] theorem drawDestination_draws (s : State) : (drawDestination s).draws = s.draws + 1 := rfl
@[simp] theorem drawDestination_pending (s : State) : (drawDestination s).pending = s.pending := rfl
@[simp] theorem drawDestination_answer (s : State) : (drawDestination s).answer = s.answer := rfl

/-! ### complete -/

@[simp] theorem complete_params (n : Nat) (s : State) : (complete n s).params = s.params := rfl
@[simp] theorem complete_resetLine (n : Nat) (s : State) : (complete n s).resetLine = s.resetLine := rfl
@[simp] theorem complete_phase (n : Nat) (s : State) : (complete n s).phase = .idle := rfl
@[simp] theorem complete_irqEn (n : Nat) (s : State) : (complete n s).irqEn = s.irqEn := rfl
@[simp] theorem complete_done (n : Nat) (s : State) : (complete n s).done = true := rfl
@[simp] theorem complete_err (n : Nat) (s : State) : (complete n s).err = s.err := rfl
@[simp] theorem complete_wbusy (n : Nat) (s : State) : (complete n s).wbusy = s.wbusy := rfl
@[simp] theorem complete_errCode (n : Nat) (s : State) : (complete n s).errCode = s.errCode := rfl
@[simp] theorem complete_lastOp (n : Nat) (s : State) : (complete n s).lastOp = s.lastOp := rfl
@[simp] theorem complete_srcAddr (n : Nat) (s : State) : (complete n s).srcAddr = s.srcAddr := rfl
@[simp] theorem complete_srcLen (n : Nat) (s : State) : (complete n s).srcLen = s.srcLen := rfl
@[simp] theorem complete_dstAddr (n : Nat) (s : State) : (complete n s).dstAddr = s.dstAddr := rfl
@[simp] theorem complete_dstCap (n : Nat) (s : State) : (complete n s).dstCap = s.dstCap := rfl
@[simp] theorem complete_lzCfg (n : Nat) (s : State) : (complete n s).lzCfg = s.lzCfg := rfl
@[simp] theorem complete_cursor (n : Nat) (s : State) : (complete n s).cursor = s.cursor := rfl
@[simp] theorem complete_symSel (n : Nat) (s : State) : (complete n s).symSel = s.symSel := rfl
@[simp] theorem complete_resultLen (n : Nat) (s : State) : (complete n s).resultLen = BitVec.ofNat 32 n := rfl
@[simp] theorem complete_matchOff (n : Nat) (s : State) : (complete n s).matchOff = s.matchOff := rfl
@[simp] theorem complete_errInfo (n : Nat) (s : State) : (complete n s).errInfo = s.errInfo := rfl
@[simp] theorem complete_codec (n : Nat) (s : State) : (complete n s).codec = s.codec := rfl
@[simp] theorem complete_mem (n : Nat) (s : State) : (complete n s).mem = s.mem := rfl
@[simp] theorem complete_memDraw (n : Nat) (s : State) : (complete n s).memDraw = s.memDraw := rfl
@[simp] theorem complete_draws (n : Nat) (s : State) : (complete n s).draws = s.draws := rfl
@[simp] theorem complete_pending (n : Nat) (s : State) : (complete n s).pending = s.pending := rfl
@[simp] theorem complete_answer (n : Nat) (s : State) : (complete n s).answer = s.answer := rfl

/-! ### recordError -/

@[simp] theorem recordError_params (e : CmdError) (s : State) : (recordError e s).params = s.params := rfl
@[simp] theorem recordError_resetLine (e : CmdError) (s : State) : (recordError e s).resetLine = s.resetLine := rfl
@[simp] theorem recordError_phase (e : CmdError) (s : State) : (recordError e s).phase = .idle := rfl
@[simp] theorem recordError_irqEn (e : CmdError) (s : State) : (recordError e s).irqEn = s.irqEn := rfl
@[simp] theorem recordError_done (e : CmdError) (s : State) : (recordError e s).done = true := rfl
@[simp] theorem recordError_err (e : CmdError) (s : State) : (recordError e s).err = true := rfl
@[simp] theorem recordError_wbusy (e : CmdError) (s : State) : (recordError e s).wbusy = s.wbusy := rfl
@[simp] theorem recordError_errCode (e : CmdError) (s : State) : (recordError e s).errCode = e.code := rfl
@[simp] theorem recordError_lastOp (e : CmdError) (s : State) : (recordError e s).lastOp = s.lastOp := rfl
@[simp] theorem recordError_srcAddr (e : CmdError) (s : State) : (recordError e s).srcAddr = s.srcAddr := rfl
@[simp] theorem recordError_srcLen (e : CmdError) (s : State) : (recordError e s).srcLen = s.srcLen := rfl
@[simp] theorem recordError_dstAddr (e : CmdError) (s : State) : (recordError e s).dstAddr = s.dstAddr := rfl
@[simp] theorem recordError_dstCap (e : CmdError) (s : State) : (recordError e s).dstCap = s.dstCap := rfl
@[simp] theorem recordError_lzCfg (e : CmdError) (s : State) : (recordError e s).lzCfg = s.lzCfg := rfl
@[simp] theorem recordError_cursor (e : CmdError) (s : State) : (recordError e s).cursor = s.cursor := rfl
@[simp] theorem recordError_symSel (e : CmdError) (s : State) : (recordError e s).symSel = s.symSel := rfl
@[simp] theorem recordError_resultLen (e : CmdError) (s : State) : (recordError e s).resultLen = 0#32 := rfl
@[simp] theorem recordError_matchOff (e : CmdError) (s : State) : (recordError e s).matchOff = 0#32 := rfl
@[simp] theorem recordError_errInfo (e : CmdError) (s : State) : (recordError e s).errInfo = e.info := rfl
@[simp] theorem recordError_codec (e : CmdError) (s : State) : (recordError e s).codec = s.codec := rfl
@[simp] theorem recordError_mem (e : CmdError) (s : State) : (recordError e s).mem = s.mem := rfl
@[simp] theorem recordError_memDraw (e : CmdError) (s : State) : (recordError e s).memDraw = s.memDraw := rfl
@[simp] theorem recordError_draws (e : CmdError) (s : State) : (recordError e s).draws = s.draws := rfl
@[simp] theorem recordError_pending (e : CmdError) (s : State) : (recordError e s).pending = s.pending := rfl
@[simp] theorem recordError_answer (e : CmdError) (s : State) : (recordError e s).answer = s.answer := rfl

/-! ### accept -/

@[simp] theorem accept_params (w : Word) (k : Nat) (s : State) : (accept w k s).params = s.params := rfl
@[simp] theorem accept_resetLine (w : Word) (k : Nat) (s : State) : (accept w k s).resetLine = s.resetLine := rfl
@[simp] theorem accept_phase (w : Word) (k : Nat) (s : State) : (accept w k s).phase = .busy w k := rfl
@[simp] theorem accept_irqEn (w : Word) (k : Nat) (s : State) : (accept w k s).irqEn = s.irqEn := rfl
@[simp] theorem accept_done (w : Word) (k : Nat) (s : State) : (accept w k s).done = false := rfl
@[simp] theorem accept_err (w : Word) (k : Nat) (s : State) : (accept w k s).err = false := rfl
@[simp] theorem accept_wbusy (w : Word) (k : Nat) (s : State) : (accept w k s).wbusy = s.wbusy := rfl
@[simp] theorem accept_errCode (w : Word) (k : Nat) (s : State) : (accept w k s).errCode = .none := rfl
@[simp] theorem accept_lastOp (w : Word) (k : Nat) (s : State) : (accept w k s).lastOp = opField w := rfl
@[simp] theorem accept_srcAddr (w : Word) (k : Nat) (s : State) : (accept w k s).srcAddr = s.srcAddr := rfl
@[simp] theorem accept_srcLen (w : Word) (k : Nat) (s : State) : (accept w k s).srcLen = s.srcLen := rfl
@[simp] theorem accept_dstAddr (w : Word) (k : Nat) (s : State) : (accept w k s).dstAddr = s.dstAddr := rfl
@[simp] theorem accept_dstCap (w : Word) (k : Nat) (s : State) : (accept w k s).dstCap = s.dstCap := rfl
@[simp] theorem accept_lzCfg (w : Word) (k : Nat) (s : State) : (accept w k s).lzCfg = s.lzCfg := rfl
@[simp] theorem accept_cursor (w : Word) (k : Nat) (s : State) : (accept w k s).cursor = s.cursor := rfl
@[simp] theorem accept_symSel (w : Word) (k : Nat) (s : State) : (accept w k s).symSel = s.symSel := rfl
@[simp] theorem accept_resultLen (w : Word) (k : Nat) (s : State) : (accept w k s).resultLen = 0#32 := rfl
@[simp] theorem accept_matchOff (w : Word) (k : Nat) (s : State) : (accept w k s).matchOff = 0#32 := rfl
@[simp] theorem accept_errInfo (w : Word) (k : Nat) (s : State) : (accept w k s).errInfo = 0#32 := rfl
@[simp] theorem accept_codec (w : Word) (k : Nat) (s : State) :
    (accept w k s).codec = if w = encode .hbuild then none else s.codec := rfl
@[simp] theorem accept_mem (w : Word) (k : Nat) (s : State) : (accept w k s).mem = s.mem := rfl
@[simp] theorem accept_memDraw (w : Word) (k : Nat) (s : State) : (accept w k s).memDraw = s.memDraw := rfl
@[simp] theorem accept_draws (w : Word) (k : Nat) (s : State) : (accept w k s).draws = s.draws := rfl
@[simp] theorem accept_pending (w : Word) (k : Nat) (s : State) : (accept w k s).pending = s.pending := rfl
@[simp] theorem accept_answer (w : Word) (k : Nat) (s : State) : (accept w k s).answer = s.answer := rfl

/-! ### respond -/

@[simp] theorem respond_params (v : Option Word) (s : State) : (respond v s).params = s.params := rfl
@[simp] theorem respond_resetLine (v : Option Word) (s : State) : (respond v s).resetLine = s.resetLine := rfl
@[simp] theorem respond_phase (v : Option Word) (s : State) : (respond v s).phase = s.phase := rfl
@[simp] theorem respond_irqEn (v : Option Word) (s : State) : (respond v s).irqEn = s.irqEn := rfl
@[simp] theorem respond_done (v : Option Word) (s : State) : (respond v s).done = s.done := rfl
@[simp] theorem respond_err (v : Option Word) (s : State) : (respond v s).err = s.err := rfl
@[simp] theorem respond_wbusy (v : Option Word) (s : State) : (respond v s).wbusy = s.wbusy := rfl
@[simp] theorem respond_errCode (v : Option Word) (s : State) : (respond v s).errCode = s.errCode := rfl
@[simp] theorem respond_lastOp (v : Option Word) (s : State) : (respond v s).lastOp = s.lastOp := rfl
@[simp] theorem respond_srcAddr (v : Option Word) (s : State) : (respond v s).srcAddr = s.srcAddr := rfl
@[simp] theorem respond_srcLen (v : Option Word) (s : State) : (respond v s).srcLen = s.srcLen := rfl
@[simp] theorem respond_dstAddr (v : Option Word) (s : State) : (respond v s).dstAddr = s.dstAddr := rfl
@[simp] theorem respond_dstCap (v : Option Word) (s : State) : (respond v s).dstCap = s.dstCap := rfl
@[simp] theorem respond_lzCfg (v : Option Word) (s : State) : (respond v s).lzCfg = s.lzCfg := rfl
@[simp] theorem respond_cursor (v : Option Word) (s : State) : (respond v s).cursor = s.cursor := rfl
@[simp] theorem respond_symSel (v : Option Word) (s : State) : (respond v s).symSel = s.symSel := rfl
@[simp] theorem respond_resultLen (v : Option Word) (s : State) : (respond v s).resultLen = s.resultLen := rfl
@[simp] theorem respond_matchOff (v : Option Word) (s : State) : (respond v s).matchOff = s.matchOff := rfl
@[simp] theorem respond_errInfo (v : Option Word) (s : State) : (respond v s).errInfo = s.errInfo := rfl
@[simp] theorem respond_codec (v : Option Word) (s : State) : (respond v s).codec = s.codec := rfl
@[simp] theorem respond_mem (v : Option Word) (s : State) : (respond v s).mem = s.mem := rfl
@[simp] theorem respond_memDraw (v : Option Word) (s : State) : (respond v s).memDraw = s.memDraw := rfl
@[simp] theorem respond_draws (v : Option Word) (s : State) : (respond v s).draws = s.draws := rfl
@[simp] theorem respond_pending (v : Option Word) (s : State) : (respond v s).pending = s.pending := rfl
@[simp] theorem respond_answer (v : Option Word) (s : State) : (respond v s).answer = v := rfl

/-! ### loseWrite -/

@[simp] theorem loseWrite_params (s : State) : (loseWrite s).params = s.params := rfl
@[simp] theorem loseWrite_resetLine (s : State) : (loseWrite s).resetLine = s.resetLine := rfl
@[simp] theorem loseWrite_phase (s : State) : (loseWrite s).phase = s.phase := rfl
@[simp] theorem loseWrite_irqEn (s : State) : (loseWrite s).irqEn = s.irqEn := rfl
@[simp] theorem loseWrite_done (s : State) : (loseWrite s).done = s.done := rfl
@[simp] theorem loseWrite_err (s : State) : (loseWrite s).err = s.err := rfl
@[simp] theorem loseWrite_wbusy (s : State) : (loseWrite s).wbusy = true := rfl
@[simp] theorem loseWrite_errCode (s : State) : (loseWrite s).errCode = s.errCode := rfl
@[simp] theorem loseWrite_lastOp (s : State) : (loseWrite s).lastOp = s.lastOp := rfl
@[simp] theorem loseWrite_srcAddr (s : State) : (loseWrite s).srcAddr = s.srcAddr := rfl
@[simp] theorem loseWrite_srcLen (s : State) : (loseWrite s).srcLen = s.srcLen := rfl
@[simp] theorem loseWrite_dstAddr (s : State) : (loseWrite s).dstAddr = s.dstAddr := rfl
@[simp] theorem loseWrite_dstCap (s : State) : (loseWrite s).dstCap = s.dstCap := rfl
@[simp] theorem loseWrite_lzCfg (s : State) : (loseWrite s).lzCfg = s.lzCfg := rfl
@[simp] theorem loseWrite_cursor (s : State) : (loseWrite s).cursor = s.cursor := rfl
@[simp] theorem loseWrite_symSel (s : State) : (loseWrite s).symSel = s.symSel := rfl
@[simp] theorem loseWrite_resultLen (s : State) : (loseWrite s).resultLen = s.resultLen := rfl
@[simp] theorem loseWrite_matchOff (s : State) : (loseWrite s).matchOff = s.matchOff := rfl
@[simp] theorem loseWrite_errInfo (s : State) : (loseWrite s).errInfo = s.errInfo := rfl
@[simp] theorem loseWrite_codec (s : State) : (loseWrite s).codec = s.codec := rfl
@[simp] theorem loseWrite_mem (s : State) : (loseWrite s).mem = s.mem := rfl
@[simp] theorem loseWrite_memDraw (s : State) : (loseWrite s).memDraw = s.memDraw := rfl
@[simp] theorem loseWrite_draws (s : State) : (loseWrite s).draws = s.draws := rfl
@[simp] theorem loseWrite_pending (s : State) : (loseWrite s).pending = s.pending := rfl
@[simp] theorem loseWrite_answer (s : State) : (loseWrite s).answer = s.answer := rfl

/-! ### writeStatus -/

@[simp] theorem writeStatus_params (v : Word) (s : State) : (writeStatus v s).params = s.params := rfl
@[simp] theorem writeStatus_resetLine (v : Word) (s : State) : (writeStatus v s).resetLine = s.resetLine := rfl
@[simp] theorem writeStatus_phase (v : Word) (s : State) : (writeStatus v s).phase = s.phase := rfl
@[simp] theorem writeStatus_irqEn (v : Word) (s : State) : (writeStatus v s).irqEn = s.irqEn := rfl
@[simp] theorem writeStatus_done (v : Word) (s : State) : (writeStatus v s).done = (s.done && !v.getLsbD 1) := rfl
@[simp] theorem writeStatus_err (v : Word) (s : State) : (writeStatus v s).err = s.err := rfl
@[simp] theorem writeStatus_wbusy (v : Word) (s : State) : (writeStatus v s).wbusy = (s.wbusy && !v.getLsbD 4) := rfl
@[simp] theorem writeStatus_errCode (v : Word) (s : State) : (writeStatus v s).errCode = s.errCode := rfl
@[simp] theorem writeStatus_lastOp (v : Word) (s : State) : (writeStatus v s).lastOp = s.lastOp := rfl
@[simp] theorem writeStatus_srcAddr (v : Word) (s : State) : (writeStatus v s).srcAddr = s.srcAddr := rfl
@[simp] theorem writeStatus_srcLen (v : Word) (s : State) : (writeStatus v s).srcLen = s.srcLen := rfl
@[simp] theorem writeStatus_dstAddr (v : Word) (s : State) : (writeStatus v s).dstAddr = s.dstAddr := rfl
@[simp] theorem writeStatus_dstCap (v : Word) (s : State) : (writeStatus v s).dstCap = s.dstCap := rfl
@[simp] theorem writeStatus_lzCfg (v : Word) (s : State) : (writeStatus v s).lzCfg = s.lzCfg := rfl
@[simp] theorem writeStatus_cursor (v : Word) (s : State) : (writeStatus v s).cursor = s.cursor := rfl
@[simp] theorem writeStatus_symSel (v : Word) (s : State) : (writeStatus v s).symSel = s.symSel := rfl
@[simp] theorem writeStatus_resultLen (v : Word) (s : State) : (writeStatus v s).resultLen = s.resultLen := rfl
@[simp] theorem writeStatus_matchOff (v : Word) (s : State) : (writeStatus v s).matchOff = s.matchOff := rfl
@[simp] theorem writeStatus_errInfo (v : Word) (s : State) : (writeStatus v s).errInfo = s.errInfo := rfl
@[simp] theorem writeStatus_codec (v : Word) (s : State) : (writeStatus v s).codec = s.codec := rfl
@[simp] theorem writeStatus_mem (v : Word) (s : State) : (writeStatus v s).mem = s.mem := rfl
@[simp] theorem writeStatus_memDraw (v : Word) (s : State) : (writeStatus v s).memDraw = s.memDraw := rfl
@[simp] theorem writeStatus_draws (v : Word) (s : State) : (writeStatus v s).draws = s.draws := rfl
@[simp] theorem writeStatus_pending (v : Word) (s : State) : (writeStatus v s).pending = s.pending := rfl
@[simp] theorem writeStatus_answer (v : Word) (s : State) : (writeStatus v s).answer = s.answer := rfl

/-! ### resetRegisters -/

@[simp] theorem resetRegisters_params (s : State) : (resetRegisters s).params = s.params := rfl
@[simp] theorem resetRegisters_resetLine (s : State) : (resetRegisters s).resetLine = s.resetLine := rfl
@[simp] theorem resetRegisters_phase (s : State) : (resetRegisters s).phase = .idle := rfl
@[simp] theorem resetRegisters_irqEn (s : State) : (resetRegisters s).irqEn = false := rfl
@[simp] theorem resetRegisters_done (s : State) : (resetRegisters s).done = false := rfl
@[simp] theorem resetRegisters_err (s : State) : (resetRegisters s).err = false := rfl
@[simp] theorem resetRegisters_wbusy (s : State) : (resetRegisters s).wbusy = false := rfl
@[simp] theorem resetRegisters_errCode (s : State) : (resetRegisters s).errCode = .none := rfl
@[simp] theorem resetRegisters_lastOp (s : State) : (resetRegisters s).lastOp = 0#4 := rfl
@[simp] theorem resetRegisters_srcAddr (s : State) : (resetRegisters s).srcAddr = 0#32 := rfl
@[simp] theorem resetRegisters_srcLen (s : State) : (resetRegisters s).srcLen = 0#32 := rfl
@[simp] theorem resetRegisters_dstAddr (s : State) : (resetRegisters s).dstAddr = 0#32 := rfl
@[simp] theorem resetRegisters_dstCap (s : State) : (resetRegisters s).dstCap = 0#32 := rfl
@[simp] theorem resetRegisters_lzCfg (s : State) : (resetRegisters s).lzCfg = lzCfgReset := rfl
@[simp] theorem resetRegisters_cursor (s : State) : (resetRegisters s).cursor = 0#32 := rfl
@[simp] theorem resetRegisters_symSel (s : State) : (resetRegisters s).symSel = 0#32 := rfl
@[simp] theorem resetRegisters_resultLen (s : State) : (resetRegisters s).resultLen = 0#32 := rfl
@[simp] theorem resetRegisters_matchOff (s : State) : (resetRegisters s).matchOff = 0#32 := rfl
@[simp] theorem resetRegisters_errInfo (s : State) : (resetRegisters s).errInfo = 0#32 := rfl
@[simp] theorem resetRegisters_codec (s : State) : (resetRegisters s).codec = none := rfl
@[simp] theorem resetRegisters_mem (s : State) : (resetRegisters s).mem = s.mem := rfl
@[simp] theorem resetRegisters_memDraw (s : State) : (resetRegisters s).memDraw = s.memDraw := rfl
@[simp] theorem resetRegisters_draws (s : State) : (resetRegisters s).draws = s.draws := rfl
@[simp] theorem resetRegisters_pending (s : State) : (resetRegisters s).pending = s.pending := rfl
@[simp] theorem resetRegisters_answer (s : State) : (resetRegisters s).answer = s.answer := rfl

end Sys2Proof.Machine
end

