-- ==== Sys2Proof/Laws/Commands.lean ====
section
/-! SUPPORT. What a command can do: the common checks, the two ways `execute` ends, what each body leaves, and the frame of
every command. -/

namespace Sys2Proof.Machine

/-! ### The common checks -/

theorem checkAlign_eq_none_iff (i : Instr) (s : State) : checkAlign i s = none ↔
    (symbolSource i = true → s.srcAddr.toNat % s.params.sb = 0) ∧
      (symbolDestination i = true → s.dstAddr.toNat % s.params.sb = 0) := by
  unfold checkAlign
  split_ifs with h1 h2 <;> simp_all

theorem checkRange_eq_none_iff (i : Instr) (s : State) : checkRange i s = none ↔
    (hasSource i = true → s.srcAddr.toNat + sourceBytes i s ≤ s.params.bufSize) ∧
      (hasDestination i = true → s.dstAddr.toNat + s.dstCap.toNat ≤ s.params.bufSize) := by
  unfold checkRange
  split_ifs with h1 h2 <;> simp_all

theorem checkOverlap_eq_none_iff (i : Instr) (s : State) : checkOverlap i s = none ↔
    (hasSource i = true → hasDestination i = true →
      sourceBytes i s = 0 ∨ s.dstCap.toNat = 0 ∨ s.dstAddr.toNat + s.dstCap.toNat ≤ s.srcAddr.toNat ∨
        s.srcAddr.toNat + sourceBytes i s ≤ s.dstAddr.toNat) := by
  unfold checkOverlap
  split_ifs with h1
  · simp only [Bool.and_eq_true, decide_eq_true_eq] at h1
    simp only [false_iff, not_forall]
    exact ⟨h1.1.1.1.1.1, h1.1.1.1.1.2, by omega⟩
  · simp only [Bool.and_eq_true, decide_eq_true_eq] at h1
    simp only [true_iff]
    intro ha hb
    by_contra hc
    exact h1 ⟨⟨⟨⟨⟨ha, hb⟩, by omega⟩, by omega⟩, by omega⟩, by omega⟩

theorem commonError_eq_none_iff (i : Instr) (s : State) : commonError i s = none ↔ ChecksPass i s := by
  have h1 := checkAlign_eq_none_iff i s
  have h2 := checkRange_eq_none_iff i s
  have h3 := checkOverlap_eq_none_iff i s
  constructor
  · intro h
    unfold commonError at h
    split at h
    · cases h
    · rename_i ha
      split at h
      · cases h
      · rename_i hr
        exact ⟨(h1.1 ha).1, (h1.1 ha).2, (h2.1 hr).1, (h2.1 hr).2, h3.1 h⟩
  · rintro ⟨a, b, c, d, e⟩
    simp only [commonError, h1.2 ⟨a, b⟩, h2.2 ⟨c, d⟩, h3.2 e]

theorem commonError_not_inBody {i : Instr} {s : State} {e : CmdError} (h : commonError i s = some e) : e.inBody = false := by
  unfold commonError at h
  split at h
  · rename_i he
    unfold checkAlign at he
    cases h
    split_ifs at he <;> cases he <;> rfl
  · split at h
    · rename_i he
      unfold checkRange at he
      cases h
      split_ifs at he <;> cases he <;> rfl
    · unfold checkOverlap at h
      split_ifs at h
      cases h; rfl

/-- The checks read registers only. -/
theorem commonError_congr {i : Instr} {s t : State} (hp : s.params = t.params) (h1 : s.srcAddr = t.srcAddr)
    (h2 : s.srcLen = t.srcLen) (h3 : s.dstAddr = t.dstAddr) (h4 : s.dstCap = t.dstCap) : commonError i s = commonError i t := by
  have hb : sourceBytes i s = sourceBytes i t := by cases i <;> simp [sourceBytes, hp, h2]
  simp only [commonError, checkAlign, checkRange, checkOverlap, hp, h1, h3, h4, hb]

/-! ### raise -/

theorem raise_of_not_inBody {i : Instr} {e : CmdError} (h : e.inBody = false) (s : State) : raise i e s = recordError e s := by
  simp [raise, h]

theorem raise_of_no_destination {i : Instr} (h : hasDestination i = false) (e : CmdError) (s : State) :
    raise i e s = recordError e s := by
  simp [raise, h]

theorem raise_drawn {i : Instr} {e : CmdError} (h : e.inBody = true) (hd : hasDestination i = true) (s : State) :
    raise i e s = recordError e (drawDestination s) := by
  simp [raise, h, hd]

@[simp] theorem length_freeBytes (k a n : Nat) : (freeBytes k a n).length = n := by simp [freeBytes]

theorem readByte_drawDestination_outside {s : State} {x : Nat}
    (h : x < s.dstAddr.toNat ∨ s.dstAddr.toNat + s.dstCap.toNat ≤ x) : (drawDestination s).readByte x = s.readByte x :=
  readByte_writeBytes_outside (s := s) (by simpa using h)

/-! ### execute -/

/-- `execute` always answers a next state: an error of the common checks, the body's success, or the body's error. -/
theorem execute_cases (i : Instr) (body : State → Except CmdError State) (s : State) :
    ∃ t, execute i body s = .next t ∧
      ((∃ e, commonError i s = some e ∧ t = recordError e s) ∨
       (ChecksPass i s ∧ body s = .ok t) ∨
       (ChecksPass i s ∧ ∃ e, body s = .error e ∧ t = raise i e s)) := by
  unfold execute
  cases hc : commonError i s with
  | some e => exact ⟨_, rfl, .inl ⟨e, rfl, raise_of_not_inBody (commonError_not_inBody hc) s⟩⟩
  | none =>
    have hp := (commonError_eq_none_iff i s).1 hc
    cases hb : body s with
    | ok t => exact ⟨t, rfl, .inr (.inl ⟨hp, rfl⟩)⟩
    | error e => exact ⟨_, rfl, .inr (.inr ⟨hp, e, rfl, rfl⟩)⟩

theorem execute_ok {i : Instr} {body : State → Except CmdError State} {s t : State} (hp : ChecksPass i s)
    (hb : body s = .ok t) : execute i body s = .next t := by
  simp [execute, (commonError_eq_none_iff i s).2 hp, hb]

theorem execute_error {i : Instr} {body : State → Except CmdError State} {s : State} {e : CmdError} (hp : ChecksPass i s)
    (hb : body s = .error e) : execute i body s = .next (raise i e s) := by
  simp [execute, (commonError_eq_none_iff i s).2 hp, hb]

theorem execute_commonError {i : Instr} {body : State → Except CmdError State} {s : State} {e : CmdError}
    (h : commonError i s = some e) : execute i body s = .next (recordError e s) := by
  simp [execute, h, raise_of_not_inBody (commonError_not_inBody h)]

/-- The body of each command. -/
def bodyOf : Instr → State → Except CmdError State
  | .nop => nopBody
  | .hbuild => hbuildBody
  | .henc => hencBody
  | .hdec => hdecBody
  | .hdiscard => hdiscardBody
  | .lzc => lzcBody
  | .lzd => lzdBody
  | .lzmatch => lzmatchBody

theorem exec_eq_execute (i : Instr) (s : State) : exec i s = execute i (bodyOf i) s := by cases i <;> rfl

/-! ### What a successful body leaves -/

/-- The frame of a successful body: only these fields differ, and only destination bytes. -/
structure BodyFrame (i : Instr) (s t : State) : Prop where
  fields : t = { s with
    mem := t.mem, codec := t.codec, matchOff := t.matchOff, resultLen := t.resultLen, done := true, phase := .idle }
  bytes : ∀ a, inDestination i s a = false → t.readByte a = s.readByte a
  noDestination : hasDestination i = false → t.mem = s.mem
  codecKept : i ≠ .hbuild → i ≠ .hdiscard → t.codec = s.codec
  offsetKept : i ≠ .lzmatch → t.matchOff = s.matchOff
  stored : ∃ bs : List Byte, t.mem = Memory.writeBytes s.mem s.dstAddr.toNat bs ∧
    (hasDestination i = true → bs.length ≤ s.dstCap.toNat)

theorem not_inDestination {i : Instr} {s : State} {a : Nat} (hd : hasDestination i = true)
    (h : inDestination i s a = false) : a < s.dstAddr.toNat ∨ s.dstAddr.toNat + s.dstCap.toNat ≤ a := by
  simp only [inDestination, hd, inInterval, Bool.true_and, Bool.and_eq_false_iff, decide_eq_false_iff_not] at h
  omega

theorem symbolCapacity_le (s : State) : symbolCapacity s * s.params.sb ≤ s.dstCap.toNat := Nat.div_mul_le_self _ _

theorem length_writeText_le {s : State} {text : List Nat} (h : text.length ≤ symbolCapacity s) :
    text.length * s.params.sb ≤ s.dstCap.toNat :=
  le_trans (Nat.mul_le_mul_right _ h) (symbolCapacity_le s)

/-- Completing with a text that fits the destination. -/
theorem bodyFrame_text {i : Instr} (hd : hasDestination i = true) (s : State) (text : List Nat)
    (hl : text.length ≤ symbolCapacity s) :
    BodyFrame i s (complete text.length (writeText s.dstAddr.toNat text s)) := by
  have := length_writeText_le hl
  refine ⟨rfl, fun a ha => ?_, fun h => by simp [hd] at h, fun _ _ => rfl, fun _ => rfl, _, rfl, fun _ => by simpa⟩
  exact readByte_writeText_outside (s := s) (by have := not_inDestination hd ha; omega)

/-- Completing with a bitstring that fits the destination. -/
theorem bodyFrame_bits {i : Instr} (hd : hasDestination i = true) (s : State) (bits : Bits)
    (hl : bits.length ≤ 8 * s.dstCap.toNat) :
    BodyFrame i s (complete bits.length (writeBits s.dstAddr.toNat bits s)) := by
  refine ⟨rfl, fun a ha => ?_, fun h => by simp [hd] at h, fun _ _ => rfl, fun _ => rfl, _, rfl,
    fun _ => by rw [length_packBits]; omega⟩
  exact readByte_writeBits_outside (s := s) (by have := not_inDestination hd ha; omega)

theorem length_le_of_decodeBits {root node : DTree} {cap : Nat} {start : Option Nat} {i out : Nat} {bits : Bits}
    {text : List Nat} (h : decodeBits root cap node start i out bits = .ok text) (ho : out ≤ cap) :
    out + text.length ≤ cap := by
  induction bits generalizing node start i out text with
  | nil =>
    cases start with
    | none => simp only [decodeBits, Except.ok.injEq] at h; subst h; simpa using ho
    | some st => simp [decodeBits] at h
  | cons b bits ih =>
    rw [decodeBits] at h
    split at h
    · cases h
    · split_ifs at h with hcap
      obtain ⟨rest, hr, rfl⟩ := map_eq_ok h
      have := ih hr (by omega)
      simp only [List.length_cons]; omega
    · exact ih h ho

/-- Every body that succeeds keeps the frame. -/
theorem bodyOf_frame {i : Instr} {s t : State} (h : bodyOf i s = .ok t) : BodyFrame i s t := by
  cases i with
  | nop =>
    simp only [bodyOf, nopBody, Except.ok.injEq] at h; subst h
    exact ⟨rfl, fun _ _ => rfl, fun _ => rfl, fun _ _ => rfl, fun _ => rfl, [], rfl, fun h => by cases h⟩
  | hbuild =>
    simp only [bodyOf, hbuildBody] at h
    split at h
    · cases h
    · cases h
      exact ⟨rfl, fun _ _ => rfl, fun _ => rfl, fun h => absurd rfl h, fun _ => rfl, [], rfl, fun h => by cases h⟩
  | henc =>
    simp only [bodyOf, hencBody] at h
    split at h
    · cases h
    · split at h
      · cases h
      · rename_i hb
        cases h
        have := (encodeText_inv hb (Nat.zero_le _)).2.1
        exact bodyFrame_bits rfl s _ (by omega)
  | hdec =>
    simp only [bodyOf, hdecBody] at h
    split at h
    · cases h
    · split at h
      · cases h
      · rename_i hb
        cases h
        have := length_le_of_decodeBits hb (Nat.zero_le _)
        exact bodyFrame_text rfl s _ (by omega)
  | hdiscard =>
    simp only [bodyOf, hdiscardBody, Except.ok.injEq] at h; subst h
    exact ⟨rfl, fun _ _ => rfl, fun _ => rfl, fun _ h => absurd rfl h, fun _ => rfl, [], rfl, fun h => by cases h⟩
  | lzc =>
    simp only [bodyOf, lzcBody] at h
    split at h
    · cases h
    · rename_i hb
      cases h
      have := (writeRecords_inv hb (Nat.zero_le _)).2
      exact bodyFrame_text rfl s _ (by omega)
  | lzd =>
    simp only [bodyOf, lzdBody] at h
    split at h
    · cases h
    · rename_i hb
      cases h
      simp only [decompress] at hb
      split at hb
      · cases hb
      · exact bodyFrame_text rfl s _ (applyTokens_inv hb (Nat.zero_le _)).2
  | lzmatch =>
    simp only [bodyOf, lzmatchBody] at h
    split_ifs at h
    cases h
    exact ⟨rfl, fun _ _ => rfl, fun _ => rfl, fun _ _ => rfl, fun h => absurd rfl h, [], rfl, fun h => by cases h⟩

theorem encodeText_error {c : Codec} {limit : Nat} {text : List Nat} {i m : Nat} {e : CmdError}
    (h : encodeText c limit i m text = .error e) : e.code = .unknownSymbol ∨ e.code = .dstOverflow := by
  induction text generalizing i m with
  | nil => cases h
  | cons x text ih =>
    rw [encodeText] at h
    split_ifs at h
    · cases h; exact .inl rfl
    · cases h; exact .inr rfl
    · exact ih (map_eq_error h)

theorem decodeBits_error {root node : DTree} {cap : Nat} {start : Option Nat} {i out : Nat} {bits : Bits} {e : CmdError}
    (h : decodeBits root cap node start i out bits = .error e) : e.code = .malformedEncoding ∨ e.code = .dstOverflow := by
  induction bits generalizing node start i out with
  | nil =>
    cases start with
    | none => cases h
    | some st => cases h; exact .inl rfl
  | cons b bits ih =>
    rw [decodeBits] at h
    split at h
    · cases h; exact .inl rfl
    · split_ifs at h
      · cases h; exact .inr rfl
      · exact ih (map_eq_error h)
    · exact ih h

theorem writeRecords_error {cap out : Nat} {toks : List (Token × Nat)} {e : CmdError}
    (h : writeRecords cap out toks = .error e) : e.code = .dstOverflow := by
  induction toks generalizing out with
  | nil => cases h
  | cons d toks ih =>
    rw [show d = (d.1, d.2) from rfl, writeRecords] at h
    split_ifs at h
    · cases h; rfl
    · exact ih (map_eq_error h)

theorem parseStream_error {fuel p : Nat} {stream : List Nat} {e : CmdError} (h : parseStream fuel p stream = .error e) :
    e.code = .malformedToken := by
  induction fuel generalizing p stream with
  | zero => cases stream <;> cases h; rfl
  | succ fuel ih =>
    cases stream with
    | nil => cases h
    | cons x xs =>
      rw [parseStream] at h
      split at h
      · cases h; rfl
      · exact ih (map_eq_error h)

theorem applyTokens_error {cap : Nat} {out : List Nat} {toks : List (Token × Nat)} {e : CmdError}
    (h : applyTokens cap out toks = .error e) : e.code = .malformedToken ∨ e.code = .dstOverflow := by
  induction toks generalizing out with
  | nil => cases h
  | cons d toks ih =>
    rw [show d = (d.1, d.2) from rfl, applyTokens] at h
    split_ifs at h
    · cases h; exact .inr rfl
    · exact ih h
    · cases h; exact .inl rfl
    · cases h; exact .inr rfl
    · exact ih h

theorem buildCodec_error {text : List Nat} {e : CmdError} (h : buildCodec text = .error e) :
    e.code = .emptyInput ∨ e.code = .codeTooLong := by
  unfold buildCodec at h
  split at h
  · cases h; exact .inl rfl
  · split at h <;> cases h; exact .inr rfl

theorem decompress_error {cap : Nat} {stream : List Nat} {e : CmdError} (h : decompress cap stream = .error e) :
    e.code = .malformedToken ∨ e.code = .dstOverflow := by
  unfold decompress at h
  split at h
  · rename_i hp; cases h; exact .inl (parseStream_error hp)
  · exact applyTokens_error h

/-- The errors of a command's body (60_exceptions.md R125, R127 classes 5 and 6). -/
def bodyErrors : Instr → List ErrCode
  | .nop => []
  | .hbuild => [.emptyInput, .codeTooLong]
  | .henc => [.noCodec, .unknownSymbol, .dstOverflow]
  | .hdec => [.noCodec, .malformedEncoding, .dstOverflow]
  | .hdiscard => []
  | .lzc => [.dstOverflow]
  | .lzd => [.malformedToken, .dstOverflow]
  | .lzmatch => [.badCursor]

theorem bodyOf_error_code {i : Instr} {s : State} {e : CmdError} (h : bodyOf i s = .error e) : e.code ∈ bodyErrors i := by
  cases i with
  | nop => cases h
  | hbuild =>
    simp only [bodyOf, hbuildBody] at h
    split at h
    · rename_i hb; cases h; simpa [bodyErrors] using buildCodec_error hb
    · cases h
  | henc =>
    simp only [bodyOf, hencBody] at h
    split at h
    · cases h; decide
    · split at h
      · rename_i hb; cases h; simpa [bodyErrors] using .inr (encodeText_error hb)
      · cases h
  | hdec =>
    simp only [bodyOf, hdecBody] at h
    split at h
    · cases h; decide
    · split at h
      · rename_i hb; cases h; simpa [bodyErrors] using .inr (decodeBits_error hb)
      · cases h
  | hdiscard => cases h
  | lzc =>
    simp only [bodyOf, lzcBody] at h
    split at h
    · rename_i hb; cases h; simpa [bodyErrors] using writeRecords_error hb
    · cases h
  | lzd =>
    simp only [bodyOf, lzdBody] at h
    split at h
    · rename_i hb; cases h; simpa [bodyErrors] using decompress_error hb
    · cases h
  | lzmatch =>
    simp only [bodyOf, lzmatchBody] at h
    split_ifs at h
    cases h; simp [bodyErrors, CmdError.code]

/-- A body's error is of class 5 or 6 (60_exceptions.md R127). -/
theorem bodyOf_error_inBody {i : Instr} {s : State} {e : CmdError} (h : bodyOf i s = .error e) : e.inBody = true := by
  have := bodyOf_error_code h
  cases e <;> first | rfl | (cases i <;> simp [bodyErrors, CmdError.code] at this)

/-! ### The three ways a command ends -/

/-- What `exec` can answer, for every command and state. -/
inductive Ends (i : Instr) (s : State) : State → Prop where
  /-- An error of the common checks changes no byte. -/
  | checkFailed {e : CmdError} : commonError i s = some e → Ends i s (recordError e s)
  /-- Success. -/
  | succeeded {t : State} : ChecksPass i s → bodyOf i s = .ok t → BodyFrame i s t → Ends i s t
  /-- An error in the body of a command without a destination. -/
  | failed {e : CmdError} : ChecksPass i s → bodyOf i s = .error e → hasDestination i = false → Ends i s (recordError e s)
  /-- An error in the body of a command with a destination draws it. -/
  | failedDrawn {e : CmdError} : ChecksPass i s → bodyOf i s = .error e → hasDestination i = true →
      Ends i s (recordError e (drawDestination s))

theorem exec_ends (i : Instr) (s : State) : ∃ t, exec i s = .next t ∧ Ends i s t := by
  rw [exec_eq_execute]
  obtain ⟨t, ht, h⟩ := execute_cases i (bodyOf i) s
  refine ⟨t, ht, ?_⟩
  rcases h with ⟨e, he, rfl⟩ | ⟨hp, hb⟩ | ⟨hp, e, hb, rfl⟩
  · exact .checkFailed he
  · exact .succeeded hp hb (bodyOf_frame hb)
  · cases hd : hasDestination i with
    | false => rw [raise_of_no_destination hd]; exact .failed hp hb hd
    | true => rw [raise_drawn (bodyOf_error_inBody hb) hd]; exact .failedDrawn hp hb hd

theorem exec_next {i : Instr} {s t : State} (h : exec i s = .next t) : Ends i s t := by
  obtain ⟨t', ht', he⟩ := exec_ends i s
  rw [ht'] at h
  cases h; exact he

/-- The frame of a completion: however a command ends, only these fields differ. -/
theorem Ends.fields {i : Instr} {s t : State} (h : Ends i s t) : t = { s with
    mem := t.mem, codec := t.codec, matchOff := t.matchOff, resultLen := t.resultLen, errInfo := t.errInfo,
    errCode := t.errCode, err := t.err, draws := t.draws, done := true, phase := .idle } := by
  cases h with
  | checkFailed _ => rfl
  | succeeded _ _ hf => rw [hf.fields]
  | failed _ _ _ => rfl
  | failedDrawn _ _ _ => rfl

theorem Ends.phase {i : Instr} {s t : State} (h : Ends i s t) : t.phase = .idle := by rw [h.fields]

theorem Ends.done {i : Instr} {s t : State} (h : Ends i s t) : t.done = true := by rw [h.fields]

theorem CmdError.code_ne_none (e : CmdError) : e.code ≠ .none := by cases e <;> simp [CmdError.code]

theorem inDestination_eq_true {i : Instr} {s : State} {a : Nat} : inDestination i s a = true ↔
    hasDestination i = true ∧ s.dstAddr.toNat ≤ a ∧ a < s.dstAddr.toNat + s.dstCap.toNat := by
  simp [inDestination, inInterval]

theorem inSource_eq_true {i : Instr} {s : State} {a : Nat} : inSource i s a = true ↔
    hasSource i = true ∧ s.srcAddr.toNat ≤ a ∧ a < s.srcAddr.toNat + sourceBytes i s := by
  simp [inSource, inInterval]

theorem readByte_drawDestination_inside {s : State} {a : Nat} (h1 : s.dstAddr.toNat ≤ a)
    (h2 : a < s.dstAddr.toNat + s.dstCap.toNat) : (drawDestination s).readByte a = Config.freeByte s.draws a := by
  obtain ⟨k, rfl⟩ := Nat.exists_eq_add_of_le h1
  have hk : k < (freeBytes s.draws s.dstAddr.toNat s.dstCap.toNat).length := by simp; omega
  have := readByte_writeBytes_inside (a := s.dstAddr.toNat) (s := s) hk
  simpa [drawDestination, takeDraw, freeBytes, State.readByte] using this

/-- What a body error of a command with a destination leaves, in the words of claims. -/
theorem failsDrawn_of_error {i : Instr} {s : State} {e : CmdError} (hd : hasDestination i = true) :
    FailsDrawn i s e.code e.info (recordError e (drawDestination s)) := by
  refine ⟨rfl, fun a ha => ?_, fun a ha => ?_⟩
  · have := inDestination_eq_true.1 ha
    exact readByte_drawDestination_inside this.2.1 this.2.2
  · exact readByte_drawDestination_outside (not_inDestination hd ha)

theorem exec_ok {i : Instr} {s t : State} (hp : ChecksPass i s) (hb : bodyOf i s = .ok t) : exec i s = .next t := by
  rw [exec_eq_execute]; exact execute_ok hp hb

theorem exec_bodyError {i : Instr} {s : State} {e : CmdError} (hp : ChecksPass i s) (hb : bodyOf i s = .error e)
    (hd : hasDestination i = false) : exec i s = .next (failedState e.code e.info s) := by
  rw [exec_eq_execute, execute_error hp hb, raise_of_no_destination hd]; rfl

theorem exec_bodyErrorDrawn {i : Instr} {s : State} {e : CmdError} (hp : ChecksPass i s) (hb : bodyOf i s = .error e)
    (hd : hasDestination i = true) : ∃ t, exec i s = .next t ∧ FailsDrawn i s e.code e.info t := by
  refine ⟨_, ?_, failsDrawn_of_error hd⟩
  rw [exec_eq_execute, execute_error hp hb, raise_drawn (bodyOf_error_inBody hb) hd]

/-! ### What a command reads -/

theorem bufSize_le (p : Params) : p.bufSize ≤ 2 ^ 28 := by
  unfold Params.bufSize Params.logBuf
  apply Nat.pow_le_pow_right (by omega)
  have := p.logExtra.isLt; omega

theorem exec_noError {i : Instr} {s t : State} (h : exec i s = .next t) (ht : t.err = false) :
    ChecksPass i s ∧ bodyOf i s = .ok t := by
  cases exec_next h with
  | checkFailed _ => cases ht
  | succeeded hp hb _ => exact ⟨hp, hb⟩
  | failed _ _ _ => cases ht
  | failedDrawn _ _ _ => cases ht

theorem window_eq (s : State) : window s = s.lzCfg.toNat % 2 ^ 16 := by
  simp [window, BitVec.extractLsb'_toNat]

theorem lookahead_eq (s : State) : lookahead s = s.lzCfg.toNat / 2 ^ 16 % 2 ^ 8 := by
  simp [lookahead, BitVec.extractLsb'_toNat, Nat.shiftRight_eq_div_pow]

theorem exec_commonError {i : Instr} {s : State} {e : CmdError} (h : commonError i s = some e) :
    exec i s = .next (failedState e.code e.info s) := by
  rw [exec_eq_execute, execute_commonError h]; rfl

theorem bodyError_code {e : CmdError} (h : e.inBody = true) :
    e.code ∉ [ErrCode.none, .illegalCmd, .misaligned, .addrRange, .overlap] := by
  cases e <;> simp [CmdError.code, CmdError.inBody] at h ⊢

theorem commonError_code {i : Instr} {s : State} {e : CmdError} (h : commonError i s = some e) :
    e.code ∈ [ErrCode.misaligned, .addrRange, .overlap] := by
  have := commonError_not_inBody h
  unfold commonError at h
  split at h
  · rename_i he
    unfold checkAlign at he
    cases h
    split_ifs at he <;> cases he <;> decide
  · split at h
    · rename_i he
      unfold checkRange at he
      cases h
      split_ifs at he <;> cases he <;> decide
    · unfold checkOverlap at h
      split_ifs at h
      cases h; decide

theorem bodyOf_source {i : Instr} {s : State} {m : Memory} (hd : hasSource i = true)
   (h : ∀ a, inSource i s a = true → { s with mem := m }.readByte a = s.readByte a) :
    (symbolSource i = true → sourceText { s with mem := m } = sourceText s) ∧
      (i = .hdec → sourceBits { s with mem := m } = sourceBits s) := by
  refine ⟨fun hs => ?_, fun hi => ?_⟩
  · unfold sourceText
    refine readText_congr rfl ?_
    intro k hk1 hk2
    refine h _ (inSource_eq_true.2 ⟨hd, hk1, ?_⟩)
    have : sourceBytes i s = s.srcLen.toNat * s.params.sb := by cases i <;> first | rfl | cases hs
    rw [this]; exact hk2
  · unfold sourceBits
    subst hi
    refine readBits_congr ?_
    intro k hk1 hk2
    exact h _ (inSource_eq_true.2 ⟨hd, hk1, hk2⟩)

/-- A body reads no buffer byte outside the source region: states that agree there fail alike, or write the same bytes. -/
theorem bodyOf_congr_mem {i : Instr} {s : State} {m : Memory}
   (h : ∀ a, inSource i s a = true → { s with mem := m }.readByte a = s.readByte a) :
   (∃ e, bodyOf i s = .error e ∧ bodyOf i { s with mem := m } = .error e) ∨
   (∃ t bs, bodyOf i s = .ok t ∧ t.mem = Memory.writeBytes s.mem s.dstAddr.toNat bs ∧
     bodyOf i { s with mem := m } = .ok { t with mem := Memory.writeBytes m s.dstAddr.toNat bs }) := by
  cases i with
  | nop => exact .inr ⟨_, [], rfl, rfl, rfl⟩
  | hdiscard => exact .inr ⟨_, [], rfl, rfl, rfl⟩
  | hbuild =>
    have := (bodyOf_source rfl h).1 rfl
    simp only [bodyOf, hbuildBody, this]
    cases buildCodec (sourceText s) with
    | error e => exact .inl ⟨e, rfl, rfl⟩
    | ok c => exact .inr ⟨_, [], rfl, rfl, rfl⟩
  | henc =>
    have := (bodyOf_source rfl h).1 rfl
    simp only [bodyOf, hencBody, this]
    cases hcod : s.codec with
    | none => exact .inl ⟨_, rfl, rfl⟩
    | some c =>
      simp only
      cases encodeText c (8 * s.dstCap.toNat) 0 0 (sourceText s) with
      | error e => exact .inl ⟨e, rfl, rfl⟩
      | ok bits => exact .inr ⟨_, _, rfl, rfl, by simp only [complete, writeBits, writeBytes, hcod]⟩
  | hdec =>
    have := (bodyOf_source rfl h).2 rfl
    simp only [bodyOf, hdecBody, this, show symbolCapacity { s with mem := m } = symbolCapacity s from rfl]
    cases hcod : s.codec with
    | none => exact .inl ⟨_, rfl, rfl⟩
    | some c =>
      simp only
      cases decodeBits c.dtree (symbolCapacity s) c.dtree none 0 0 (sourceBits s) with
      | error e => exact .inl ⟨e, rfl, rfl⟩
      | ok bits => exact .inr ⟨_, _, rfl, rfl, by simp only [complete, writeText, writeBytes, hcod]⟩
  | lzc =>
    have := (bodyOf_source rfl h).1 rfl
    simp only [bodyOf, lzcBody, this, show symbolCapacity { s with mem := m } = symbolCapacity s from rfl,
      show window { s with mem := m } = window s from rfl, show lookahead { s with mem := m } = lookahead s from rfl]
    cases writeRecords (symbolCapacity s) 0 (compress (sourceText s) (window s) (lookahead s)) with
    | error e => exact .inl ⟨e, rfl, rfl⟩
    | ok bits => exact .inr ⟨_, _, rfl, rfl, rfl⟩
  | lzd =>
    have := (bodyOf_source rfl h).1 rfl
    simp only [bodyOf, lzdBody, this, show symbolCapacity { s with mem := m } = symbolCapacity s from rfl]
    cases decompress (symbolCapacity s) (sourceText s) with
    | error e => exact .inl ⟨e, rfl, rfl⟩
    | ok bits => exact .inr ⟨_, _, rfl, rfl, rfl⟩
  | lzmatch =>
    have := (bodyOf_source rfl h).1 rfl
    simp only [bodyOf, lzmatchBody, this,
      show window { s with mem := m } = window s from rfl, show lookahead { s with mem := m } = lookahead s from rfl]
    by_cases hc : s.srcLen.toNat ≤ s.cursor.toNat
    · exact .inl ⟨_, by rw [if_pos hc], by rw [if_pos hc]⟩
    · rw [if_neg hc, if_neg hc]; exact .inr ⟨_, [], rfl, rfl, rfl⟩

theorem readByte_writeBytes_same (s : State) (m : Memory) (a : Nat) (bs : List Byte) (x : Nat) :
   (writeBytes a bs { s with mem := m }).readByte x = (writeBytes a bs s).readByte x ∨
    ((writeBytes a bs s).readByte x = s.readByte x ∧
      (writeBytes a bs { s with mem := m }).readByte x = { s with mem := m }.readByte x) := by
  by_cases h : x < a ∨ a + bs.length ≤ x
  · exact .inr ⟨readByte_writeBytes_outside h, readByte_writeBytes_outside h⟩
  · obtain ⟨k, rfl⟩ := Nat.exists_eq_add_of_le (show a ≤ x by omega)
    have hk : k < bs.length := by omega
    left
    rw [readByte_writeBytes_inside hk, readByte_writeBytes_inside hk]

/-- What the error of a body depends on. -/
theorem bodyOf_error_congr {i : Instr} {s t : State} {e : CmdError} (hp : s.params = t.params)
    (h2 : s.srcLen = t.srcLen) (h4 : s.dstCap = t.dstCap) (h5 : s.lzCfg = t.lzCfg) (h6 : s.cursor = t.cursor)
    (hc : i = .henc ∨ i = .hdec → s.codec = t.codec) (ht : symbolSource i = true → sourceText s = sourceText t)
    (hb : i = .hdec → sourceBits s = sourceBits t)
    (h : bodyOf i s = .error e) : bodyOf i t = .error e := by
  have hcap : symbolCapacity s = symbolCapacity t := by simp [symbolCapacity, hp, h4]
  cases i with
  | nop => cases h
  | hdiscard => cases h
  | hbuild =>
    simp only [bodyOf, hbuildBody, ht rfl] at h ⊢
    cases hx : buildCodec (sourceText t) with
    | error e => rw [hx] at h; exact h
    | ok c => rw [hx] at h; cases h
  | henc =>
    simp only [bodyOf, hencBody, ht rfl, hc (.inl rfl), h4] at h ⊢
    cases hco : t.codec with
    | none => rw [hco] at h; exact h
    | some c =>
      simp only [hco] at h ⊢
      cases hx : encodeText c (8 * t.dstCap.toNat) 0 0 (sourceText t) with
      | error e => rw [hx] at h; exact h
      | ok c => rw [hx] at h; cases h
  | hdec =>
    simp only [bodyOf, hdecBody, hb rfl, hc (.inr rfl), hcap] at h ⊢
    cases hco : t.codec with
    | none => rw [hco] at h; exact h
    | some c =>
      simp only [hco] at h ⊢
      cases hx : decodeBits c.dtree (symbolCapacity t) c.dtree none 0 0 (sourceBits t) with
      | error e => rw [hx] at h; exact h
      | ok c => rw [hx] at h; cases h
  | lzc =>
    have hw : window s = window t := by simp [window, h5]
    have hl : lookahead s = lookahead t := by simp [lookahead, h5]
    simp only [bodyOf, lzcBody, ht rfl, hcap, hw, hl] at h ⊢
    cases hx : writeRecords (symbolCapacity t) 0 (compress (sourceText t) (window t) (lookahead t)) with
    | error e => rw [hx] at h; exact h
    | ok c => rw [hx] at h; cases h
  | lzd =>
    simp only [bodyOf, lzdBody, ht rfl, hcap] at h ⊢
    cases hx : decompress (symbolCapacity t) (sourceText t) with
    | error e => rw [hx] at h; exact h
    | ok c => rw [hx] at h; cases h
  | lzmatch =>
    simp only [bodyOf, lzmatchBody, h2, h6] at h ⊢
    split_ifs at h ⊢
    exact h

/-- A change `f` of the state that no check, error record, draw or body of `i` notices passes through `exec i`. -/
theorem exec_map {i : Instr} {s s' t : State} {f : State → State} (hcc : commonError i s' = commonError i s)
    (hr : ∀ e, recordError e s' = f (recordError e s))
    (hd : ∀ e, hasDestination i = true → recordError e (drawDestination s') = f (recordError e (drawDestination s)))
    (hb : bodyOf i s' = (bodyOf i s).map f) (h : exec i s = .next t) : exec i s' = .next (f t) := by
  rw [exec_eq_execute] at h ⊢
  unfold execute at h ⊢
  rw [hcc]
  cases hce : commonError i s with
  | some e =>
    simp only [hce] at h ⊢
    rw [raise_of_not_inBody (commonError_not_inBody hce)] at h ⊢
    cases h
    rw [hr]
  | none =>
    simp only [hce, hb] at h ⊢
    cases hbo : bodyOf i s with
    | ok u =>
      rw [hbo] at h
      cases h
      rfl
    | error e =>
      rw [hbo] at h
      cases h
      cases hdd : hasDestination i with
      | false => simp only [Except.map, raise_of_no_destination hdd, hr]
      | true => simp only [Except.map, raise_drawn (bodyOf_error_inBody hbo) hdd, hd e hdd]

end Sys2Proof.Machine
end

