-- ==== Sys2Proof/Laws/HostPort.lean ====
section
/-! SUPPORT. What one host transaction and one step can do, said once: every later claim about a step is a case analysis of
`TxnNext` and `StepNext`. -/

namespace Sys2Proof.Machine

theorem busy_iff (s : State) : s.busy = true ↔ ∃ w k, s.phase = .busy w k := by
  unfold State.busy
  cases h : s.phase <;> simp

theorem busy_eq_false_iff (s : State) : s.busy = false ↔ s.phase = .idle := by
  unfold State.busy
  cases h : s.phase <;> simp

theorem legalRegAccess_iff (off width : Nat) : legalRegAccess off width = true ↔ RegAccessOk off width := by
  simp [legalRegAccess, RegAccessOk, and_assoc]

theorem legalBufAccess_iff (p : Params) (addr width : Nat) : legalBufAccess p addr width = true ↔ BufAccessOk p addr width := by
  simp [legalBufAccess, BufAccessOk, or_assoc]

/-- The register at an offset is the one the map lists there. -/
theorem registerAt_cases {off : Nat} {r : Reg} (h : registerAt off = some r) : (off, r) ∈ registerMap := by
  unfold registerAt at h
  rw [List.lookup_eq_some_iff] at h
  obtain ⟨l1, l2, h1, -⟩ := h
  rw [h1]; simp

theorem registerAt_reserved {off : Nat} (h : 0x054 ≤ off) : registerAt off = none := by
  unfold registerAt registerMap
  simp only [List.lookup_cons, List.lookup_nil]
  have hne : ∀ k : Nat, k < 0x054 → (off == k) = false := fun k hk => by simp; omega
  simp [hne]

/-- What a transaction that is legal and answers a next state does, while RESET is released. -/
inductive TxnNext (s : State) : HostTxn → State → Prop where
  /-- A register read of an exact value. -/
  | regRead {off : Nat} {v : Word} : RegAccessOk off 4 → TxnNext s (.regRead off 4) { s with answer := some v }
  /-- A register read of a free value: only while BUSY. -/
  | regReadDrawn {off : Nat} {v : Word} : RegAccessOk off 4 → s.busy = true →
      TxnNext s (.regRead off 4) { s with answer := some v, draws := s.draws + 1 }
  /-- A write to an RO register or a reserved offset. -/
  | ignored {off : Nat} {v : Word} : RegAccessOk off 4 → TxnNext s (.regWrite off 4 v) { s with answer := none }
  /-- A write that BUSY loses. -/
  | lost {off : Nat} {v : Word} : RegAccessOk off 4 → s.busy = true →
      TxnNext s (.regWrite off 4 v) { s with wbusy := true, answer := none }
  | srcAddr (v : Word) : s.busy = false → TxnNext s (.regWrite 0x014 4 v) { s with srcAddr := v, answer := none }
  | srcLen (v : Word) : s.busy = false → TxnNext s (.regWrite 0x018 4 v) { s with srcLen := v, answer := none }
  | dstAddr (v : Word) : s.busy = false → TxnNext s (.regWrite 0x01C 4 v) { s with dstAddr := v, answer := none }
  | dstCap (v : Word) : s.busy = false → TxnNext s (.regWrite 0x020 4 v) { s with dstCap := v, answer := none }
  | lzCfg (v : Word) : s.busy = false →
      TxnNext s (.regWrite 0x024 4 v) { s with lzCfg := v &&& 0x00FFFFFF#32, answer := none }
  | cursor (v : Word) : s.busy = false → TxnNext s (.regWrite 0x028 4 v) { s with cursor := v, answer := none }
  | symSel (v : Word) : s.busy = false →
      TxnNext s (.regWrite 0x02C 4 v) { s with symSel := v &&& symSelMask s.params, answer := none }
  | status (v : Word) : TxnNext s (.regWrite 0x00C 4 v) (respond none (writeStatus v s))
  | ctrl (v : Word) : v.getLsbD 1 = false →
      TxnNext s (.regWrite 0x008 4 v) { s with irqEn := v.getLsbD 0, answer := none }
  | softReset (v : Word) : v.getLsbD 1 = true → TxnNext s (.regWrite 0x008 4 v) (respond none (softReset s))
  | accepted (w : Word) : s.phase = .idle →
      TxnNext s (.regWrite 0x010 4 w) (respond none (accept w (Config.freeWait s.draws) (takeDraw s)))
  | bufRead {addr width : Nat} {v : Word} : BufAccessOk s.params addr width →
      TxnNext s (.bufRead addr width) { s with answer := some v }
  /-- A read that touches the running command's destination. -/
  | bufReadDrawn {addr width : Nat} {v : Word} : BufAccessOk s.params addr width → s.busy = true →
      TxnNext s (.bufRead addr width) { s with answer := some v, draws := s.draws + 1 }
  | bufWrite {addr width : Nat} {v : Word} : BufAccessOk s.params addr width → touches (activeRegion s) addr width = false →
      TxnNext s (.bufWrite addr width v) (respond none (memWrite addr width v.toNat s))
  | resetAssert : TxnNext s .resetAssert (respond none (powerOnReset true s))
  | resetRelease : TxnNext s .resetRelease (respond none s)

theorem touches_busy {s : State} {addr width : Nat} (h : touches (activeDestination s) addr width = true) :
    s.busy = true := by
  simp only [touches, List.any_eq_true] at h
  obtain ⟨k, -, hk⟩ := h
  cases hp : s.phase with
  | idle => simp [activeDestination, runningCommand, hp] at hk
  | busy w k => simp [State.busy, hp]

theorem regWrite_next {off : Nat} (v : Word) (s : State) (h : RegAccessOk off 4) :
    TxnNext s (.regWrite off 4 v) (regWrite off v s) := by
  unfold regWrite
  split
  · exact .ignored h
  · rename_i r hr
    have hm := registerAt_cases hr
    cases hb : s.busy with
    | true =>
      cases r <;> simp only [writeReg, cmdWrite, hb, if_true] <;>
        first | exact .ignored h | exact .lost h hb | skip
      · have : off = 0x008 := by simpa [registerMap] using hm
        subst this
        cases h1 : v.getLsbD 1 with
        | true => simp only [writeCtrl, h1, if_true]; exact .softReset v h1
        | false => simp only [writeCtrl, h1]; exact .ctrl v h1
      · have : off = 0x00C := by simpa [registerMap] using hm
        subst this; exact .status v
    | false =>
      cases r <;> simp only [writeReg, cmdWrite, hb] <;> first | exact .ignored h | skip
      · have : off = 0x008 := by simpa [registerMap] using hm
        subst this
        cases h1 : v.getLsbD 1 with
        | true => simp only [writeCtrl, h1, if_true]; exact .softReset v h1
        | false => simp only [writeCtrl, h1]; exact .ctrl v h1
      · have : off = 0x00C := by simpa [registerMap] using hm
        subst this; exact .status v
      · have : off = 0x010 := by simpa [registerMap] using hm
        subst this; exact .accepted v ((busy_eq_false_iff s).1 hb)
      · have : off = 0x014 := by simpa [registerMap] using hm
        subst this; exact .srcAddr v hb
      · have : off = 0x018 := by simpa [registerMap] using hm
        subst this; exact .srcLen v hb
      · have : off = 0x01C := by simpa [registerMap] using hm
        subst this; exact .dstAddr v hb
      · have : off = 0x020 := by simpa [registerMap] using hm
        subst this; exact .dstCap v hb
      · have : off = 0x024 := by simpa [registerMap] using hm
        subst this; exact .lzCfg v hb
      · have : off = 0x028 := by simpa [registerMap] using hm
        subst this; exact .cursor v hb
      · have : off = 0x02C := by simpa [registerMap] using hm
        subst this; exact .symSel v hb

theorem regRead_next {off : Nat} (s : State) (h : RegAccessOk off 4) : TxnNext s (.regRead off 4) (regRead off s) := by
  unfold regRead
  split
  · exact .regRead h
  · split_ifs with hb
    · exact .regReadDrawn h (by simp only [Bool.and_eq_true] at hb; exact hb.2)
    · exact .regRead h

theorem bufRead_next {addr width : Nat} (s : State) (h : BufAccessOk s.params addr width) :
    TxnNext s (.bufRead addr width) (bufRead addr width s) := by
  unfold bufRead
  split_ifs with ht
  · exact .bufReadDrawn h (touches_busy ht)
  · exact .bufRead h

theorem hostTxn_regRead (off width : Nat) (s : State) : hostTxn (.regRead off width) s =
    if legalRegAccess off width then .next (regRead off s) else .fault .badRegAccess := rfl

theorem hostTxn_regWrite (off width : Nat) (v : Word) (s : State) : hostTxn (.regWrite off width v) s =
    if legalRegAccess off width then .next (regWrite off v s) else .fault .badRegAccess := rfl

theorem hostTxn_bufRead (addr width : Nat) (s : State) : hostTxn (.bufRead addr width) s =
    if legalBufAccess s.params addr width then .next (bufRead addr width s) else .fault .badBufAccess := rfl

theorem hostTxn_bufWrite (addr width : Nat) (v : Word) (s : State) : hostTxn (.bufWrite addr width v) s =
    if legalBufAccess s.params addr width then bufWrite addr width v s else .fault .badBufAccess := rfl

/-- Inversion: everything a transaction that answers a next state can do. -/
theorem hostTxn_next {x : HostTxn} {s t : State} (h : hostTxn x s = .next t) : TxnNext s x t := by
  cases x with
  | regRead off width =>
    rw [hostTxn_regRead] at h
    split_ifs at h with hl
    cases h
    have ho := (legalRegAccess_iff off width).1 hl
    obtain rfl : width = 4 := ho.1
    exact regRead_next s ho
  | regWrite off width v =>
    rw [hostTxn_regWrite] at h
    split_ifs at h with hl
    cases h
    have ho := (legalRegAccess_iff off width).1 hl
    obtain rfl : width = 4 := ho.1
    exact regWrite_next v s ho
  | bufRead addr width =>
    rw [hostTxn_bufRead] at h
    split_ifs at h with hl
    cases h
    exact bufRead_next s ((legalBufAccess_iff _ _ _).1 hl)
  | bufWrite addr width v =>
    rw [hostTxn_bufWrite] at h
    split_ifs at h with hl
    unfold bufWrite at h
    split_ifs at h with ht
    cases h
    exact .bufWrite ((legalBufAccess_iff _ _ _).1 hl) (by simpa using ht)
  | resetAssert => cases h; exact .resetAssert
  | resetRelease => cases h; exact .resetRelease

/-- The step of an engine that takes its completion step. -/
theorem step_engineMoves {s : State} {w : Word} (h : EngineMoves s w) : step s = completionStep exec w s := by
  obtain ⟨hr, k, hp, hk⟩ := h
  unfold step stepWith
  rw [hr, hp]
  rcases hk with rfl | hk
  · cases s.pending <;> rfl
  · rw [hk]

/-- The step of a host that moves. -/
theorem step_hostMoves {s : State} {x : HostTxn} {rest : List HostTxn} (h : HostMoves s) (hq : s.pending = x :: rest) :
    step s = hostTxn x (takeTransaction rest s) := by
  obtain ⟨hr, hp | ⟨w, k, hp⟩⟩ := h <;> simp [step, stepWith, hr, hp, hq]

/-- A state whose RESET is released either lets the host move, or its engine completes. -/
theorem moves_cases {s : State} (hr : s.resetLine = false) :
    (HostMoves s ∧ ∃ x rest, s.pending = x :: rest) ∨ (∃ w, EngineMoves s w) ∨ (s.phase = .idle ∧ s.pending = []) := by
  cases hp : s.phase with
  | idle =>
    cases hq : s.pending with
    | nil => exact .inr (.inr ⟨rfl, rfl⟩)
    | cons x rest => exact .inl ⟨⟨hr, .inl hp⟩, x, rest, rfl⟩
  | busy w k =>
    cases hq : s.pending with
    | nil => exact .inr (.inl ⟨w, hr, k, hp, .inr hq⟩)
    | cons x rest =>
      cases k with
      | zero => exact .inr (.inl ⟨w, hr, 0, hp, .inl rfl⟩)
      | succ k => exact .inl ⟨⟨hr, .inr ⟨w, k, hp⟩⟩, x, rest, rfl⟩

/-- Everything a step that answers a next state can do. -/
inductive StepNext (s : State) : State → Prop where
  /-- Nothing is pending, and RESET is asserted or the engine is IDLE. -/
  | stays : s.pending = [] → StepNext s s
  /-- RESET is asserted: the transaction is ignored. -/
  | ignoredInReset {x : HostTxn} {rest : List HostTxn} : s.resetLine = true → s.pending = x :: rest → x ≠ .resetRelease →
      StepNext s (respond none (takeTransaction rest s))
  /-- RESET is released. -/
  | released {rest : List HostTxn} : s.resetLine = true → s.pending = .resetRelease :: rest →
      StepNext s (respond none (powerOnReset false (takeTransaction rest s)))
  /-- The host moves. -/
  | host {x : HostTxn} {rest : List HostTxn} {t : State} : HostMoves s → s.pending = x :: rest →
      TxnNext (takeTransaction rest s) x t → StepNext s t
  /-- The engine completes an illegal word. -/
  | illegal {w : Word} {r : Reject} : EngineMoves s w → decodeWord w = .error r →
      StepNext s (recordError (.illegalCmd w) s)
  /-- The engine completes a command. -/
  | command {w : Word} {i : Instr} {t : State} : EngineMoves s w → decodeWord w = .ok i → Ends i s t → StepNext s t

/-- Inversion: everything a step can do. -/
theorem step_next {s t : State} (h : step s = .next t) : StepNext s t := by
  cases hr : s.resetLine with
  | true =>
    unfold step stepWith at h
    rw [hr] at h
    cases hq : s.pending with
    | nil => rw [hq] at h; cases h; exact .stays hq
    | cons x rest =>
      rw [hq] at h
      cases x <;> cases h <;>
        first | exact .ignoredInReset hr hq (by simp) | exact .released hr hq
  | false =>
    rcases moves_cases hr with ⟨hm, x, rest, hq⟩ | ⟨w, hm⟩ | ⟨hp, hq⟩
    · rw [step_hostMoves hm hq] at h
      exact .host hm hq (hostTxn_next h)
    · rw [step_engineMoves hm, completionStep] at h
      split at h
      · rename_i i hd
        exact .command hm hd (exec_next h)
      · rename_i r hd
        cases h
        exact .illegal hm hd
    · simp only [step, stepWith, hr, hp, hq] at h
      cases h
      exact .stays hq

/-- A completion step always answers. -/
theorem completionStep_next (w : Word) (s : State) : ∃ t, completionStep exec w s = .next t := by
  unfold completionStep
  split
  · rename_i i _
    obtain ⟨t, ht, -⟩ := exec_ends i s
    exact ⟨t, ht⟩
  · exact ⟨_, rfl⟩

/-! ### The register port -/

theorem hostTxn_regRead_idle (s : State) (hp : s.phase = .idle) (off : Nat) (r : Reg) (hl : legalRegAccess off 4 = true)
    (h : registerAt off = some r) :
   hostTxn (.regRead off 4) s = .next { s with answer := some (regValue s r) } := by
  rw [hostTxn_regRead, if_pos hl]
  simp [regRead, h, (busy_eq_false_iff s).2 hp, respond]

theorem selectedSymbol_eq {s : State} (h : s.symSel.toNat < s.params.alphabetMax) :
    selectedSymbol s = s.symSel.toNat := Nat.mod_eq_of_lt h

theorem bitsValue_testBit (b : Bits) (j : Nat) (h : j < b.length) :
    (bitsValue b).testBit (b.length - 1 - j) = b.getD j false ∧ bitsValue b < 2 ^ b.length := by
  induction b generalizing j with
  | nil => simp at h
  | cons x b ih =>
    have hlt : bitsValue b < 2 ^ b.length := by
      cases b with
      | nil => simp [bitsValue]
      | cons y b => exact (ih 0 (by simp)).2
    refine ⟨?_, ?_⟩
    · cases j with
      | zero =>
        rw [bitsValue, Nat.mul_comm, Nat.testBit_two_pow_mul_add _ hlt]
        simp
        cases x <;> simp
      | succ j =>
        simp only [List.length_cons] at h
        rw [bitsValue, Nat.mul_comm, Nat.testBit_two_pow_mul_add _ hlt]
        simp only [List.length_cons, show b.length + 1 - 1 - (j + 1) = b.length - 1 - j by omega]
        rw [if_pos (by omega), (ih j (by omega)).1]; simp
    · simp only [bitsValue, List.length_cons, pow_succ]
      have : x.toNat ≤ 1 := by cases x <;> simp
      nlinarith

theorem hostTxn_regWrite_reg (s : State) (off : Nat) (v : Word) (r : Reg) (hl : legalRegAccess off 4 = true)
    (h : registerAt off = some r) :
   hostTxn (.regWrite off 4 v) s = .next (respond none (writeReg r v s)) := by
  rw [hostTxn_regWrite, if_pos hl]; simp [regWrite, h]

theorem and_mask (v : Word) (n : Nat) (h : n ≤ 32) : v &&& BitVec.ofNat 32 (2 ^ n - 1) = BitVec.ofNat 32 (v.toNat % 2 ^ n) := by
  apply BitVec.eq_of_toNat_eq
  have h1 : 2 ^ n ≤ 2 ^ 32 := Nat.pow_le_pow_right (by omega) h
  have h2 : v.toNat % 2 ^ n < 2 ^ n := Nat.mod_lt _ (Nat.two_pow_pos n)
  have h3 : (2:Nat) ^ 32 = 4294967296 := by decide
  simp only [BitVec.toNat_and, BitVec.toNat_ofNat]
  rw [Nat.mod_eq_of_lt (a := 2 ^ n - 1) (by omega), Nat.mod_eq_of_lt (a := v.toNat % 2 ^ n) (by omega),
    Nat.and_two_pow_sub_one_eq_mod]

theorem and_symSelMask (p : Params) (v : Word) : v &&& symSelMask p = BitVec.ofNat 32 (v.toNat % p.alphabetMax) := by
  apply and_mask
  unfold Params.symBits Params.sb
  split <;> decide

/-! ### The buffer port -/

theorem runningCommand_eq_some {s : State} {i : Instr} : runningCommand s = some i ↔
    ∃ w k, s.phase = .busy w k ∧ decodeWord w = .ok i := by
  unfold runningCommand
  cases h : s.phase with
  | idle => simp
  | busy w k => cases hd : decodeWord w <;> simp [Except.toOption, hd]

theorem touches_iff {p : Nat → Bool} {addr width : Nat} : touches p addr width = true ↔
    ∃ k, k < width ∧ p (addr + k) = true := by
  simp [touches]

theorem activeRegion_iff {s : State} {a : Nat} : activeRegion s a = true ↔ ActiveByte s a := by
  unfold activeRegion ActiveByte
  cases h : runningCommand s with
  | none =>
    simp only [Bool.false_eq_true, false_iff]
    rintro ⟨w, k, i, h1, h2, -⟩
    rw [runningCommand_eq_some.2 ⟨w, k, h1, h2⟩] at h; cases h
  | some i =>
    obtain ⟨w, k, h1, h2⟩ := runningCommand_eq_some.1 h
    simp only [Bool.or_eq_true]
    constructor
    · exact fun h => ⟨w, k, i, h1, h2, h⟩
    · rintro ⟨w', k', i', h1', h2', h⟩
      rw [h1] at h1'; cases h1'; rw [h2] at h2'; cases h2'; exact h

theorem activeDestination_iff {s : State} {a : Nat} : activeDestination s a = true ↔ ActiveOutputByte s a := by
  unfold activeDestination ActiveOutputByte
  cases h : runningCommand s with
  | none =>
    simp only [Bool.false_eq_true, false_iff]
    rintro ⟨w, k, i, h1, h2, -⟩
    rw [runningCommand_eq_some.2 ⟨w, k, h1, h2⟩] at h; cases h
  | some i =>
    obtain ⟨w, k, h1, h2⟩ := runningCommand_eq_some.1 h
    constructor
    · exact fun h => ⟨w, k, i, h1, h2, h⟩
    · rintro ⟨w', k', i', h1', h2', h⟩
      rw [h1] at h1'; cases h1'; rw [h2] at h2'; cases h2'; exact h

theorem activeRegion_idle {s : State} (h : s.phase = .idle) (a : Nat) :
    activeRegion s a = false ∧ activeDestination s a = false := by
  simp [activeRegion, activeDestination, runningCommand, h]

theorem ofNat_byte (v : Word) (k : Nat) : BitVec.ofNat 8 (v.toNat / 256 ^ k) = v.extractLsb' (8 * k) 8 := by
  apply BitVec.eq_of_toNat_eq
  simp [BitVec.extractLsb'_toNat, Nat.shiftRight_eq_div_pow, pow_mul]

theorem bufWrite_stored (s : State) (addr n : Nat) (v : Word) :
  (∀ k, k < n → (memWrite addr n v.toNat s).readByte (addr + k) = v.extractLsb' (8 * k) 8) ∧
  (∀ a, a < addr ∨ addr + n ≤ a → (memWrite addr n v.toNat s).readByte a = s.readByte a) := by
  refine ⟨fun k hk => ?_, fun a ha => readByte_memWrite_outside ha⟩
  have hk' : k < (leBytes n v.toNat).length := by simpa
  rw [memWrite, readByte_writeBytes_inside (s := s) hk', getElem_leBytes _ _ _ hk, ofNat_byte]

/-! ### Faults -/

theorem takeTransaction_codec (rest : List HostTxn) (s : State) : (takeTransaction rest s).codec = s.codec := by
  unfold takeTransaction; split <;> rfl

theorem takeTransaction_params (rest : List HostTxn) (s : State) : (takeTransaction rest s).params = s.params := by
  unfold takeTransaction; split <;> rfl

theorem takeTransaction_irq (rest : List HostTxn) (s : State) :
    (takeTransaction rest s).irq = s.irq ∧ (takeTransaction rest s).done = s.done ∧
    (takeTransaction rest s).irqEn = s.irqEn := by
  unfold takeTransaction; split <;> exact ⟨rfl, rfl, rfl⟩

theorem hostTxn_not_refused (x : HostTxn) (s : State) (r : Refusal) : hostTxn x s ≠ .refused r := by
  cases x with
  | regRead off width => rw [hostTxn_regRead]; split_ifs <;> simp
  | regWrite off width v => rw [hostTxn_regWrite]; split_ifs <;> simp
  | bufRead addr width => rw [hostTxn_bufRead]; split_ifs <;> simp
  | bufWrite addr width v => rw [hostTxn_bufWrite]; unfold bufWrite; split_ifs <;> simp
  | resetAssert => simp [hostTxn]
  | resetRelease => simp [hostTxn]

/-! ### The codec -/

theorem encode_of_decode {w : Word} {i : Instr} (h : decodeWord w = .ok i) : w = encode i := by
  unfold decodeWord at h
  split at h
  · rename_i r hr
    have hm := List.mem_of_find?_eq_some hr
    have hs := List.find?_some hr
    cases h
    have hall : ∀ x ∈ opcodeRows, x.mask = 0xFFFFFFFF#32 ∧ x.pattern = encode x.instr := by decide
    obtain ⟨h1, h2⟩ := hall r hm
    simp only [OpRow.selects, h1, h2, beq_iff_eq] at hs
    rw [← hs]
    rw [show (0xFFFFFFFF#32) = BitVec.allOnes 32 from rfl, BitVec.and_allOnes]
  · cases h

theorem Ends.codec {i : Instr} {s t : State} (h : Ends i s t) (h1 : i ≠ .hbuild) (h2 : i ≠ .hdiscard) : t.codec = s.codec := by
  cases h with
  | checkFailed _ => rfl
  | succeeded _ _ hf => exact hf.codecKept h1 h2
  | failed _ _ _ => rfl
  | failedDrawn _ _ _ => rfl

end Sys2Proof.Machine
end

