-- ==== Sys2Proof/Laws/Invariant.lean ====
section
/-! SUPPORT. What keeps the invariant `Inv`: each thing a step can do, one lemma. -/

namespace Sys2Proof.Machine

theorem BusyOk.congr {w : Word} {s t : State} (h : BusyOk w s) (hd : s.done = false → t.done = false)
    (h1 : t.errCode = s.errCode) (h2 : t.resultLen = s.resultLen) (h3 : t.matchOff = s.matchOff) (h4 : t.errInfo = s.errInfo)
    (h5 : t.lastOp = s.lastOp) (h6 : t.codec = s.codec) : BusyOk w t :=
  ⟨hd h.notDone, h1.trans h.noError, h2.trans h.noLength, h3.trans h.noOffset, h4.trans h.noInfo,
    h5.trans h.lastOpOfWord, fun hw => h6.trans (h.noCodecInBuild hw)⟩

theorem takeTransaction_inv {s : State} (h : Inv s) (rest : List HostTxn) : Inv (takeTransaction rest s) := by
  obtain ⟨h1, h2, h3, h4, h5, h6, h7, h8, h9, h10⟩ := h
  unfold takeTransaction
  split
  · rename_i hp
    refine ⟨h1, h2, h3, h4, h5, h6, h7, ?_, h9, ?_⟩
    · intro w k hq; simp only [hp] at hq; cases hq
    · exact fun _ => hp
  · rename_i w k hp
    refine ⟨h1, h2, h3, h4, h5, h6, h7, ?_, h9, ?_⟩
    · intro w' k' hq; cases hq
      exact (h8 w k hp).congr id rfl rfl rfl rfl rfl rfl
    · intro hr; have := h10 hr; rw [hp] at this; cases this

theorem respond_inv {s : State} (h : Inv s) (a : Option Word) : Inv (respond a s) := by
  obtain ⟨h1, h2, h3, h4, h5, h6, h7, h8, h9, h10⟩ := h
  exact ⟨h1, h2, h3, h4, h5, h6, h7, fun w k hp => (h8 w k hp).congr id rfl rfl rfl rfl rfl rfl, h9, h10⟩

theorem inv_of_buffer {s : State} (h : Inv s) {m : Memory} (hw : Memory.wf m) (hr : ∀ c ∈ m, c.1 < s.params.bufSize)
    (d md : Nat) :
    Inv { s with mem := m, draws := d, memDraw := md } := by
  obtain ⟨h1, h2, h3, h4, h5, h6, h7, h8, h9, h10⟩ := h
  exact ⟨hw, hr, h3, h4, h5, h6, h7, fun w k hp => (h8 w k hp).congr id rfl rfl rfl rfl rfl rfl, h9, h10⟩

theorem writeBytes_inv {s : State} (h : Inv s) {a : Nat} {bs : List Byte} (hr : a + bs.length ≤ s.params.bufSize) :
    Inv (writeBytes a bs s) := by
  refine inv_of_buffer h (Memory.writeBytes_wf h.memCanonical a bs) ?_ s.draws s.memDraw
  intro c hc
  rcases Memory.mem_writeBytes hc with hc | hc
  · show c.1 < _; omega
  · exact h.memInRange c hc

theorem drawDestination_inv {s : State} (h : Inv s) (hr : s.dstAddr.toNat + s.dstCap.toNat ≤ s.params.bufSize) :
    Inv (drawDestination s) := by
  have := writeBytes_inv h (a := s.dstAddr.toNat) (bs := freeBytes s.draws s.dstAddr.toNat s.dstCap.toNat) (by simpa using hr)
  exact inv_of_buffer this this.memCanonical this.memInRange (s.draws + 1) s.memDraw

theorem resetRegisters_inv {s : State} (h : Inv s) : Inv (resetRegisters s) := by
  have hp : 0 < s.params.alphabetMax := by rw [alphabetMax_eq]; exact Nat.pow_pos (by decide)
  refine ⟨h.memCanonical, h.memInRange, ?_, hp, ?_, ?_, fun _ => rfl, ?_, ?_, fun _ => rfl⟩ <;>
    simp [resetRegisters, State.powerOn]
  show lzCfgReset.extractLsb' 24 8 = 0#8
  decide

theorem powerOnReset_inv (line : Bool) (s : State) : Inv (powerOnReset line s) := by
  have hp : 0 < s.params.alphabetMax := by rw [alphabetMax_eq]; exact Nat.pow_pos (by decide)
  refine ⟨List.Pairwise.nil, ?_, ?_, hp, ?_, ?_, fun _ => rfl, ?_, ?_, fun _ => rfl⟩ <;>
    simp [resetRegisters, State.powerOn, powerOnReset, takeDraw]
  show lzCfgReset.extractLsb' 24 8 = 0#8
  decide

theorem softReset_inv {s : State} (h : Inv s) : Inv (softReset s) := by
  unfold softReset
  split_ifs with ha
  · unfold abandonsOutput at ha
    split at ha
    · cases ha
    · simp only [Bool.and_eq_true, Option.isNone_iff_eq_none, commonError_eq_none_iff] at ha
      have := drawDestination_inv h (ha.2.destinationInRange ha.1)
      exact resetRegisters_inv this
  · exact resetRegisters_inv h

theorem recordError_inv {s : State} (h : Inv s) (e : CmdError) : Inv (recordError e s) := by
  obtain ⟨h1, h2, h3, h4, h5, h6, h7, h8, h9, h10⟩ := h
  exact ⟨h1, h2, h3, h4, ⟨fun _ => e.code_ne_none, fun _ => rfl⟩, fun _ => ⟨rfl, rfl⟩, (fun hh => by cases hh),
    (fun w k hp => by cases hp), h9, fun _ => rfl⟩

theorem regs_inv {s : State} (h : Inv s) {sa sl da dc lz cu sy : Word} {ie wb dn : Bool} {an : Option Word} {dr : Nat}
    (hlz : lz.extractLsb' 24 8 = 0#8) (hsy : sy.toNat < s.params.alphabetMax) (hd : s.done = false → dn = false) :
    Inv { s with
      srcAddr := sa, srcLen := sl, dstAddr := da, dstCap := dc, lzCfg := lz, cursor := cu, symSel := sy, irqEn := ie,
      wbusy := wb, done := dn, answer := an, draws := dr } := by
  obtain ⟨h1, h2, h3, h4, h5, h6, h7, h8, h9, h10⟩ := h
  exact ⟨h1, h2, hlz, hsy, h5, h6, h7, fun w k hp => (h8 w k hp).congr hd rfl rfl rfl rfl rfl rfl, h9, h10⟩

theorem and_mask_reserved (v : Word) : (v &&& 0x00FFFFFF#32).extractLsb' 24 8 = 0#8 := by
  apply BitVec.eq_of_getLsbD_eq
  intro k hk
  have : ∀ k, k < 8 → (0x00FFFFFF#32).getLsbD (24 + k) = false := by decide
  simp [BitVec.getLsbD_extractLsb', this k hk, -BitVec.getLsbD_eq_getElem]

theorem and_symSelMask_lt (p : Params) (v : Word) : (v &&& symSelMask p).toNat < p.alphabetMax := by
  have h0 : 0 < p.alphabetMax := by rw [alphabetMax_eq]; exact Nat.pow_pos (by decide)
  have h1 : (v &&& symSelMask p).toNat ≤ (symSelMask p).toNat := by
    rw [BitVec.toNat_and]; exact Nat.and_le_right
  have h2 : (symSelMask p).toNat ≤ p.alphabetMax - 1 := by
    rw [symSelMask, BitVec.toNat_ofNat]; exact Nat.mod_le _ _
  omega

theorem complete_inv {s t : State} (h : Inv s) {n : Nat} {w : Word} {k : Nat}
    (hp : s.phase = .busy w k) {o : Word} {m : Memory} {c : Option Codec}
    (ht : t = { s with mem := m, codec := c, matchOff := o, resultLen := BitVec.ofNat 32 n, done := true, phase := .idle })
    (hw : Memory.wf m) (hr : ∀ c ∈ m, c.1 < s.params.bufSize) (hc : ∀ x, c = some x → CodecOk s.params x) : Inv t := by
  obtain ⟨a, b, c, d, e, f, g⟩ := h.busyOk w k hp
  obtain ⟨h1, h2, h3, h4, h5, h6, h7, h8, h9, h10⟩ := h
  subst ht
  exact ⟨hw, hr, h3, h4, h5, (fun he => absurd b (h5.1 he)), h7, (fun w k hp => by cases hp), hc, fun _ => rfl⟩

theorem hbuild_codec {s t : State} (hc : ChecksPass .hbuild s) (hb : bodyOf .hbuild s = .ok t) :
    ∀ x, t.codec = some x → CodecOk s.params x := by
  simp only [bodyOf, hbuildBody] at hb
  split at hb
  · cases hb
  · rename_i c hcod
    cases hb
    intro x hx
    cases hx
    refine buildCodec_ok hcod (fun x hx => readText_lt hx) ?_
    have := hc.sourceInRange rfl
    simp only [sourceText, length_readText, sourceBytes] at this ⊢
    omega

end Sys2Proof.Machine
end

