-- ==== Sys2Proof/Laws/Optimal.lean ====
section
/-! SUPPORT. Two facts about the builder's trees: a tall tree is heavy (so no code is above 64 bits, 41_huffman.md R101), and no
prefix code costs less (R103). The second goes through Kraft's inequality. -/

namespace Sys2Proof.Machine

/-! ### Height and weight -/

/-- The greater frequency of a node's children. -/
def DTree.childMax : DTree → Nat
  | .leaf _ _ => 0
  | .node l r _ => max l.weight r.weight
  | .lone l _ => l.weight

/-- The edges on the longest path. -/
def DTree.height : DTree → Nat
  | .leaf _ _ => 0
  | .node l r _ => max l.height r.height + 1
  | .lone l _ => l.height + 1

/-- No node weighs less than a child of its sibling: merges take the least frequencies first. -/
def DTree.siblingOk : DTree → Prop
  | .leaf _ _ => True
  | .node l r _ => l.childMax ≤ r.weight ∧ r.childMax ≤ l.weight ∧ l.siblingOk ∧ r.siblingOk
  | .lone l _ => l.siblingOk

/-- Two nodes of the collection: neither weighs less than a child of the other. -/
def Siblings (x y : QNode) : Prop := x.tree.childMax ≤ y.tree.weight ∧ y.tree.childMax ≤ x.tree.weight

/-- What every merge keeps of the collection. -/
structure QueueOk (q : List QNode) : Prop where
  nodes : ∀ x ∈ q, NodeOk x
  siblings : ∀ x ∈ q, x.tree.siblingOk
  sorted : Sorted q
  pairs : q.Pairwise Siblings

theorem queueOk_merge {j : Nat} {x y : QNode} {q : List QNode} (h : QueueOk (x :: y :: q)) :
    QueueOk (insertNode (mergeNode j x y) q) := by
  have hx := h.nodes x (by simp)
  have hy := h.nodes y (by simp)
  have hp := List.pairwise_cons.1 h.pairs
  have hp2 := List.pairwise_cons.1 hp.2
  have hs := List.pairwise_cons.1 h.sorted
  have hs2 := List.pairwise_cons.1 hs.2
  have hxy := hp.1 y (by simp)
  refine ⟨fun z hz => ?_, fun z hz => ?_, insertNode_sorted _ hs2.2, ?_⟩
  · rcases List.mem_cons.1 ((insertNode_perm _ q).mem_iff.1 hz) with rfl | hz
    · exact mergeNode_ok j hx hy
    · exact h.nodes z (by simp [hz])
  · rcases List.mem_cons.1 ((insertNode_perm _ q).mem_iff.1 hz) with rfl | hz
    · exact ⟨hxy.1, hxy.2, h.siblings x (by simp), h.siblings y (by simp)⟩
    · exact h.siblings z (by simp [hz])
  · refine ((insertNode_perm _ q).pairwise_iff (fun {a b} (hab : Siblings a b) => ⟨hab.2, hab.1⟩)).2 ?_
    refine List.pairwise_cons.2 ⟨fun z hz => ⟨?_, ?_⟩, hp2.2⟩
    · have hz' := h.nodes z (by simp [hz])
      have h1 := Key.freq_le (hs.1 z (by simp [hz]))
      have h2 := Key.freq_le (hs2.1 z hz)
      rw [hx.weight, hz'.weight] at h1
      rw [hy.weight, hz'.weight] at h2
      exact max_le h1 h2
    · have h1 := (hp.1 z (by simp [hz])).2
      show z.tree.childMax ≤ x.key.freq + y.key.freq
      rw [hx.weight]; omega

theorem queueOk_leaves {freq : List (Nat × Nat)} (hp : ∀ e ∈ freq, 0 < e.2) : QueueOk (leafQueue freq) := by
  have hleaf : ∀ x ∈ leafQueue freq, ∃ e ∈ freq, leafNode e = x := fun x hx =>
    List.mem_map.1 ((leafQueue_perm freq).mem_iff.1 hx)
  refine ⟨fun x hx => ?_, fun x hx => ?_, leafQueue_sorted freq, List.pairwise_of_forall_mem_list fun x hx y hy => ?_⟩
  · obtain ⟨e, he, rfl⟩ := hleaf x hx; exact leafNode_ok (hp e he)
  · obtain ⟨e, he, rfl⟩ := hleaf x hx; exact trivial
  · obtain ⟨d, _, rfl⟩ := hleaf x hx
    obtain ⟨e, _, rfl⟩ := hleaf y hy
    exact ⟨Nat.zero_le _, Nat.zero_le _⟩

theorem buildTree_siblingOk {freq : List (Nat × Nat)} {t : DTree} (hp : ∀ e ∈ freq, 0 < e.2) (ht : buildTree freq = some t) :
    t.siblingOk := by
  have hne : freq ≠ [] := fun h0 => by simp [(buildTree_eq_none_iff hp).2 h0] at ht
  have hlen : (leafQueue freq).length = freq.length := by simpa using (leafQueue_perm freq).length_eq
  obtain ⟨_, x, hx, hq⟩ := mergeAll_induct (fuel := freq.length) (j := 0) (q := leafQueue freq)
    (motive := fun _ q => QueueOk q) (fun j x y q h => queueOk_merge h) (queueOk_leaves hp)
    (by intro h0; rw [h0] at hlen; exact hne (List.length_eq_zero_iff.1 hlen.symm)) (by omega)
  obtain rfl : x.tree = t := by simpa [buildTree, hx] using ht
  exact hq.siblings x (by simp)

theorem fib_le_half {l r : DTree} (hl : l.proper) (hr : r.proper) (ihl : Nat.fib (l.height + 2) ≤ l.weight)
    (hlr : l.childMax ≤ r.weight) (hc : ∀ a b f, l = .node a b f → Nat.fib (l.height + 1) ≤ l.childMax) :
    Nat.fib (l.height + 3) ≤ l.weight + r.weight := by
  cases l with
  | leaf s f =>
    have h1 := hl.one_le_weight
    have h2 := hr.one_le_weight
    have : Nat.fib ((DTree.leaf s f).height + 3) = 2 := rfl
    omega
  | node a b f =>
    have := hc a b f rfl
    have h3 : Nat.fib ((DTree.node a b f).height + 3) =
      Nat.fib ((DTree.node a b f).height + 1) + Nat.fib ((DTree.node a b f).height + 2) := Nat.fib_add_two
    omega
  | lone l f => exact hl.elim

/-- A tree of the builder of height h weighs at least the Fibonacci number h + 2. -/
theorem fib_height_le {t : DTree} (hp : t.proper) (hs : t.siblingOk) :
    Nat.fib (t.height + 2) ≤ t.weight ∧ ∀ a b f, t = .node a b f → Nat.fib (t.height + 1) ≤ t.childMax := by
  induction t with
  | leaf s f => exact ⟨hp, fun a b f h => by cases h⟩
  | node l r f ihl ihr =>
    obtain ⟨hf, hl, hr⟩ := hp
    obtain ⟨h1, h2, h3, h4⟩ := hs
    obtain ⟨il, cl⟩ := ihl hl h3
    obtain ⟨ir, cr⟩ := ihr hr h4
    have e1 := fib_le_half hl hr il h1 cl
    have e2 := fib_le_half hr hl ir h2 cr
    refine ⟨?_, fun a b f' h => ?_⟩
    · show Nat.fib (max l.height r.height + 1 + 2) ≤ f
      rcases le_total l.height r.height with h | h
      · rw [max_eq_right h, hf, Nat.add_comm l.weight]; exact e2
      · rw [max_eq_left h, hf]; exact e1
    · cases h
      show Nat.fib (max l.height r.height + 1 + 1) ≤ max l.weight r.weight
      rcases le_total l.height r.height with h | h
      · rw [max_eq_right h]; exact le_trans ir (le_max_right _ _)
      · rw [max_eq_left h]; exact le_trans il (le_max_left _ _)
  | lone l f ih => exact hp.elim

theorem code_length_le (t : DTree) : ∀ e ∈ deriveCodes t [], e.2.length ≤ t.height := by
  induction t with
  | leaf s f => simp [deriveCodes, DTree.height]
  | node l r f ihl ihr =>
    intro e he
    rw [deriveCodes_node] at he
    rcases List.mem_append.1 he with he | he <;> obtain ⟨d, hd, rfl⟩ := List.mem_map.1 he
    · have := ihl d hd; simp [DTree.height]; omega
    · have := ihr d hd; simp [DTree.height]; omega
  | lone l f ih =>
    intro e he
    rw [deriveCodes_lone] at he
    obtain ⟨d, hd, rfl⟩ := List.mem_map.1 he
    have := ih d hd; simp [DTree.height]; omega

/-- A builder's tree that weighs less than the Fibonacci number 67 has no code above 64 bits. -/
theorem codes_short {freq : List (Nat × Nat)} {t : DTree} (hp : ∀ e ∈ freq, 0 < e.2) (ht : buildTree freq = some t)
    (hsum : (freq.map (fun e => e.2)).sum < Nat.fib 67) : ∀ e ∈ deriveCodes (decodeTree t) [], e.2.length ≤ maxCodeLen := by
  have hne : freq ≠ [] := fun h0 => by simp [(buildTree_eq_none_iff hp).2 h0] at ht
  obtain ⟨t', ht', hprop, hperm⟩ := buildTree_spec hne hp
  obtain rfl : t' = t := by simpa [ht'] using ht
  have hw : t'.weight = (freq.map (fun e => e.2)).sum := by
    rw [hprop.weight_eq]; exact (hperm.map _).sum_eq
  have hfib := (fib_height_le hprop (buildTree_siblingOk hp ht)).1
  have hh : t'.height ≤ 64 := by
    by_contra hc
    have := Nat.fib_mono (show 67 ≤ t'.height + 2 by omega)
    omega
  intro e he
  have hlen := code_length_le _ e he
  cases t' with
  | leaf s f => exact le_trans hlen (show 1 ≤ 64 by decide)
  | node l r f => exact le_trans hlen hh
  | lone l f => exact hprop.elim

/-! ### Kraft's inequality and cost -/

/-- The Kraft sum of code lengths. -/
def kraft (ls : List Nat) : ℚ := (ls.map (fun l => (1 / 2 : ℚ) ^ l)).sum

@[simp] theorem kraft_nil : kraft [] = 0 := rfl
@[simp] theorem kraft_cons (l : Nat) (ls : List Nat) : kraft (l :: ls) = (1 / 2 : ℚ) ^ l + kraft ls := by simp [kraft]

theorem kraft_nonneg (ls : List Nat) : 0 ≤ kraft ls := by
  induction ls with
  | nil => simp
  | cons l ls ih => rw [kraft_cons]; positivity

theorem kraft_perm {ls ls' : List Nat} (h : ls.Perm ls') : kraft ls = kraft ls' := (h.map _).sum_eq

theorem kraft_split (W : List Bits) (h : ∀ w ∈ W, w ≠ []) : kraft (W.map List.length) =
    1 / 2 * (kraft (((W.filter (fun w => w.head? == some false)).map List.tail).map List.length)
      + kraft (((W.filter (fun w => w.head? == some true)).map List.tail).map List.length)) := by
  induction W with
  | nil => simp
  | cons w W ih =>
    have ih := ih (fun v hv => h v (by simp [hv]))
    cases w with
    | nil => exact absurd rfl (h [] (by simp))
    | cons b w =>
      rw [List.map_cons, kraft_cons, ih]
      cases b <;> simp [pow_succ] <;> ring

/-- Kraft's inequality for a prefix-free list of words. -/
theorem kraft_le_one (n : Nat) (W : List Bits) (hn : ∀ w ∈ W, w.length ≤ n)
    (hp : W.Pairwise (fun a b => ¬a <+: b ∧ ¬b <+: a)) : kraft (W.map List.length) ≤ 1 := by
  induction n generalizing W with
  | zero =>
    match W with
    | [] => simp
    | [w] => simp [List.length_eq_zero_iff.1 (Nat.le_zero.1 (hn w (by simp)))]
    | a :: b :: W =>
      have ha := List.length_eq_zero_iff.1 (Nat.le_zero.1 (hn a (by simp)))
      have := (List.pairwise_cons.1 hp).1 b (by simp)
      rw [ha] at this
      exact absurd (List.nil_prefix) this.1
  | succ n ih =>
    match W with
    | [] => simp
    | [w] =>
      simp only [List.map_cons, List.map_nil, kraft_cons, kraft_nil, add_zero]
      exact pow_le_one₀ (by norm_num) (by norm_num)
    | a :: b :: W =>
      have hne : ∀ w ∈ a :: b :: W, w ≠ [] := by
        obtain ⟨h1, h2⟩ := List.pairwise_cons.1 hp
        intro w hw
        rintro rfl
        rcases List.mem_cons.1 hw with h | h
        · rw [← h] at h1; exact (h1 b (by simp)).1 List.nil_prefix
        · exact (h1 _ h).2 List.nil_prefix
      have part : ∀ c, kraft ((((a :: b :: W).filter (fun w => w.head? == some c)).map List.tail).map List.length) ≤ 1 := by
        intro c
        refine ih _ (fun w hw => ?_) ?_
        · obtain ⟨v, hv, rfl⟩ := List.mem_map.1 hw
          have := hn v (List.mem_of_mem_filter hv)
          rw [List.length_tail]; omega
        · rw [List.pairwise_map]
          have hf := (hp.filter (fun w => w.head? == some c))
          refine List.Pairwise.imp_of_mem ?_ hf
          intro x y hx hy hxy
          have hx := (List.mem_filter.1 hx).2
          have hy := (List.mem_filter.1 hy).2
          cases x with
          | nil => simp at hx
          | cons p x =>
            cases y with
            | nil => simp at hy
            | cons q y =>
              simp only [List.head?_cons, beq_iff_eq, Option.some.injEq] at hx hy
              subst hx; subst hy
              simpa using hxy
      rw [kraft_split _ hne]
      have h1 := part false
      have h2 := part true
      linarith

/-- What lengths cost under weights. -/
def lenCost : List Nat → List Nat → Nat
  | w :: ws, l :: ls => w * l + lenCost ws ls
  | _, _ => 0

/-- Put a length into lengths that fall. -/
def putLength (l : Nat) : List Nat → List Nat
  | [] => [l]
  | b :: bs => if b ≤ l then l :: b :: bs else b :: putLength l bs

theorem putLength_perm (l : Nat) (bs : List Nat) : (putLength l bs).Perm (l :: bs) := by
  induction bs with
  | nil => exact List.Perm.refl _
  | cons b bs ih =>
    rw [putLength]; split_ifs
    · exact List.Perm.refl _
    · exact (ih.cons b).trans (List.Perm.swap l b bs)

theorem putLength_falling (l : Nat) {bs : List Nat} (h : bs.Pairwise (fun a b => b ≤ a)) :
    (putLength l bs).Pairwise (fun a b => b ≤ a) := by
  induction bs with
  | nil => simp [putLength]
  | cons b bs ih =>
    obtain ⟨h1, h2⟩ := List.pairwise_cons.1 h
    rw [putLength]; split_ifs with hb
    · refine List.pairwise_cons.2 ⟨fun x hx => ?_, h⟩
      rcases List.mem_cons.1 hx with rfl | hx
      · exact hb
      · exact le_trans (h1 x hx) hb
    · refine List.pairwise_cons.2 ⟨fun x hx => ?_, ih h2⟩
      rcases List.mem_cons.1 ((putLength_perm l bs).mem_iff.1 hx) with rfl | hx
      · omega
      · exact h1 x hx

/-- Among rising weights, a long length costs least at the front. -/
theorem lenCost_putLength (w l : Nat) (ws bs : List Nat) (hlen : ws.length = bs.length)
    (hw : (w :: ws).Pairwise (· ≤ ·)) : lenCost (w :: ws) (putLength l bs) ≤ w * l + lenCost ws bs := by
  induction bs generalizing w ws with
  | nil => simp [putLength, lenCost]
  | cons b bs ih =>
    rw [putLength]; split_ifs with hb
    · exact le_refl _
    · cases ws with
      | nil => simp at hlen
      | cons v ws =>
        obtain ⟨h1, h2⟩ := List.pairwise_cons.1 hw
        have := ih v ws (by simpa using hlen) h2
        have hv := h1 v (by simp)
        simp only [lenCost]
        have hb' : l ≤ b := by omega
        have : lenCost (v :: ws) (putLength l bs) ≤ v * l + lenCost ws bs := this
        have hswap : w * b + v * l ≤ w * l + v * b := by
          obtain ⟨d, rfl⟩ := Nat.exists_eq_add_of_le hv
          obtain ⟨e, rfl⟩ := Nat.exists_eq_add_of_le hb'
          nlinarith [Nat.zero_le (d * e)]
        omega

/-- Lengths can be put in falling order without costing more. -/
theorem exists_falling (ws ls : List Nat) (hlen : ws.length = ls.length) (hw : ws.Pairwise (· ≤ ·)) :
    ∃ ls', ls'.Perm ls ∧ ls'.Pairwise (fun a b => b ≤ a) ∧ lenCost ws ls' ≤ lenCost ws ls := by
  induction ws generalizing ls with
  | nil =>
    obtain rfl : ls = [] := List.length_eq_zero_iff.1 hlen.symm
    exact ⟨[], List.Perm.refl _, List.Pairwise.nil, le_refl _⟩
  | cons w ws ih =>
    cases ls with
    | nil => simp at hlen
    | cons l ls =>
      have hlen' : ws.length = ls.length := by simpa using hlen
      obtain ⟨ls', hp, hf, hc⟩ := ih ls hlen' (List.pairwise_cons.1 hw).2
      refine ⟨putLength l ls', (putLength_perm l ls').trans (hp.cons l), putLength_falling l hf, ?_⟩
      have := lenCost_putLength w l ws ls' (by rw [hlen', hp.length_eq]) hw
      simp only [lenCost]; omega

theorem kraft_scaled (L : Nat) (ls : List Nat) (h : ∀ l ∈ ls, l ≤ L) : ∃ n : ℕ, (2 : ℚ) ^ L * kraft ls = n := by
  induction ls with
  | nil => exact ⟨0, by simp⟩
  | cons l ls ih =>
    obtain ⟨n, hn⟩ := ih (fun x hx => h x (by simp [hx]))
    obtain ⟨d, rfl⟩ := Nat.exists_eq_add_of_le (h l (by simp))
    refine ⟨2 ^ d + n, ?_⟩
    rw [kraft_cons, mul_add, hn]
    push_cast
    rw [pow_add, mul_assoc, mul_comm ((2:ℚ)^d), ← mul_assoc, ← mul_pow]
    norm_num

/-- The longest code word can be shortened to the second longest. -/
theorem kraft_shorten {a b : Nat} {ls : List Nat} (hb : ∀ l ∈ ls, l ≤ b) (h : kraft (a :: b :: ls) ≤ 1) :
    kraft (b :: b :: ls) ≤ 1 := by
  obtain ⟨n, hn⟩ := kraft_scaled b (b :: ls) (by simpa using hb)
  have hpos : (0 : ℚ) < 2 ^ b := by positivity
  rw [kraft_cons] at h ⊢
  have hlt : (n : ℚ) < 2 ^ b := by
    rw [← hn]
    have : (0 : ℚ) < (1 / 2) ^ a := by positivity
    nlinarith
  have hle : (n : ℚ) + 1 ≤ 2 ^ b := by exact_mod_cast (show n + 1 ≤ 2 ^ b by exact_mod_cast hlt)
  have hk : kraft (b :: ls) = n / 2 ^ b := by rw [← hn]; field_simp
  rw [hk, one_div, inv_pow]
  rw [inv_eq_one_div, ← add_div, div_le_one hpos]; linarith

theorem kraft_merge {b : Nat} {ls : List Nat} (h : kraft (b :: b :: ls) ≤ 1) :
    ∃ c, b = c + 1 ∧ kraft (c :: ls) ≤ 1 := by
  cases b with
  | zero =>
    have := kraft_nonneg ls
    simp only [kraft_cons, pow_zero] at h
    linarith
  | succ c =>
    refine ⟨c, rfl, ?_⟩
    simp only [kraft_cons, pow_succ] at h ⊢
    linarith

/-- The weighted path length of a tree. -/
def DTree.pathCost : DTree → Nat
  | .leaf _ _ => 0
  | .node l r f => f + l.pathCost + r.pathCost
  | .lone l f => f + l.pathCost

/-- What a collection costs with given depths of its nodes. -/
def depthCost (P : List (QNode × Nat)) : Nat := (P.map (fun e => e.1.tree.pathCost + e.1.key.freq * e.2)).sum

theorem depthCost_perm {P P' : List (QNode × Nat)} (h : P.Perm P') : depthCost P = depthCost P' := (h.map _).sum_eq

theorem depthCost_zip (q : List QNode) (ls : List Nat) (h : q.length = ls.length) :
    depthCost (q.zip ls) = (q.map (fun x => x.tree.pathCost)).sum + lenCost (q.map (fun x => x.key.freq)) ls := by
  induction q generalizing ls with
  | nil => rfl
  | cons x q ih =>
    cases ls with
    | nil => simp at h
    | cons l ls =>
      have := ih ls (by simpa using h)
      simp only [depthCost, List.zip_cons_cons, List.map_cons, List.sum_cons, lenCost] at this ⊢
      omega

theorem exists_perm_map {α β : Type} (f : α → β) {l l' : List β} (h : l.Perm l') (P : List α) (hP : P.map f = l) :
    ∃ P', P.Perm P' ∧ P'.map f = l' := by
  induction h generalizing P with
  | nil => exact ⟨P, List.Perm.refl _, hP⟩
  | cons x _ ih =>
    cases P with
    | nil => simp at hP
    | cons p P =>
      simp only [List.map_cons, List.cons.injEq] at hP
      obtain ⟨P', h1, h2⟩ := ih P hP.2
      exact ⟨p :: P', h1.cons p, by simp [hP.1, h2]⟩
  | swap x y l =>
    match P, hP with
    | a :: b :: P, hP =>
      simp only [List.map_cons, List.cons.injEq] at hP
      exact ⟨b :: a :: P, List.Perm.swap b a P, by simp [hP.1, hP.2.1, hP.2.2]⟩
  | trans _ _ ih1 ih2 =>
    obtain ⟨P1, h1, h2⟩ := ih1 P hP
    obtain ⟨P2, h3, h4⟩ := ih2 P1 h2
    exact ⟨P2, h1.trans h3, h4⟩

theorem zip_fst_snd {α β : Type} (P : List (α × β)) : (P.map Prod.fst).zip (P.map Prod.snd) = P := by
  induction P with
  | nil => rfl
  | cons p P ih => simp [ih]

/-- The merge loop makes a tree that costs no more than any depths of the collection's nodes that meet Kraft's inequality. -/
theorem mergeAll_optimal {fuel j : Nat} {q : List QNode} {t : DTree} (h : mergeAll fuel j q = some t)
    (hs : Sorted q) (P : List (QNode × Nat)) (hP : (P.map Prod.fst).Perm q) (hk : kraft (P.map Prod.snd) ≤ 1) :
    t.pathCost ≤ depthCost P := by
  induction fuel generalizing j q P with
  | zero =>
    match q, h with
    | [x], h =>
      cases h
      obtain ⟨P', hpp, hm⟩ := exists_perm_map Prod.fst hP P rfl
      rw [depthCost_perm hpp]
      match P', hm with
      | [p], hm =>
        simp only [List.map_cons, List.map_nil, List.cons.injEq, and_true] at hm
        simp [depthCost, hm]
  | succ fuel ih =>
    match q, h with
    | [x], h =>
      cases h
      obtain ⟨P', hpp, hm⟩ := exists_perm_map Prod.fst hP P rfl
      rw [depthCost_perm hpp]
      match P', hm with
      | [p], hm =>
        simp only [List.map_cons, List.map_nil, List.cons.injEq, and_true] at hm
        simp [depthCost, hm]
    | x :: y :: q, h =>
      obtain ⟨P', hpp, hm⟩ := exists_perm_map Prod.fst hP P rfl
      rw [depthCost_perm hpp]
      have hk' : kraft (P'.map Prod.snd) ≤ 1 := by rw [← kraft_perm (hpp.map Prod.snd)]; exact hk
      have hzip : P' = (x :: y :: q).zip (P'.map Prod.snd) := by
        rw [← hm]; exact (zip_fst_snd P').symm
      have hlen : (x :: y :: q).length = (P'.map Prod.snd).length := by rw [← hm]; simp
      have hw : ((x :: y :: q).map (fun x => x.key.freq)).Pairwise (· ≤ ·) := by
        rw [List.pairwise_map]; exact hs.imp (fun hab => Key.freq_le hab)
      obtain ⟨ls, hperm, hfall, hcost⟩ := exists_falling _ (P'.map Prod.snd) (by simpa using hlen) hw
      have hlen2 : (x :: y :: q).length = ls.length := by rw [hlen, hperm.length_eq]
      have hcost2 : depthCost ((x :: y :: q).zip ls) ≤ depthCost P' := by
        rw [hzip, depthCost_zip _ _ hlen, depthCost_zip _ _ hlen2]; omega
      refine le_trans ?_ hcost2
      have hkl : kraft ls ≤ 1 := by rw [kraft_perm hperm]; exact hk'
      match ls, hlen2, hfall, hkl with
      | a :: b :: ls, hlen2, hfall, hkl =>
        obtain ⟨f1, f2⟩ := List.pairwise_cons.1 hfall
        obtain ⟨f3, _⟩ := List.pairwise_cons.1 f2
        have hab := f1 b (by simp)
        obtain ⟨c, rfl, hc⟩ := kraft_merge (kraft_shorten f3 hkl)
        have hs2 := (List.pairwise_cons.1 (List.pairwise_cons.1 hs).2).2
        have hlq : q.length = ls.length := by simpa using hlen2
        have := ih h (insertNode_sorted _ hs2) ((mergeNode j x y, c) :: q.zip ls)
          (by
            simp only [List.map_cons]
            rw [List.map_fst_zip (le_of_eq hlq)]
            exact (insertNode_perm _ q).symm)
          (by simp only [List.map_cons]; rw [List.map_snd_zip (le_of_eq hlq.symm)]; exact hc)
        refine le_trans this ?_
        simp only [depthCost, List.zip_cons_cons, List.map_cons, List.sum_cons, mergeNode, DTree.pathCost]
        have h1 : x.key.freq * (c + 1) ≤ x.key.freq * a := Nat.mul_le_mul_left _ hab
        have h2 : (x.key.freq + y.key.freq) * c = x.key.freq * c + y.key.freq * c := Nat.add_mul _ _ _
        have h3 : x.key.freq * (c + 1) = x.key.freq * c + x.key.freq := by ring
        have h4 : y.key.freq * (c + 1) = y.key.freq * c + y.key.freq := by ring
        omega

/-! ### The cost of a codec -/

/-- Longer codes for all leaves cost the weight of the tree per bit. -/
theorem zip_cost (t : DTree) (k : Nat) :
    ((t.leaves.zip (deriveCodes t [])).map (fun e => e.1.2 * (e.2.2.length + k))).sum =
      ((t.leaves.zip (deriveCodes t [])).map (fun e => e.1.2 * e.2.2.length)).sum + k * (t.leaves.map (fun e => e.2)).sum := by
  have hlen : t.leaves.length = (deriveCodes t []).length := by
    have := congrArg List.length (map_fst_deriveCodes t [])
    simpa using this.symm
  generalize t.leaves = l at *
  generalize deriveCodes t [] = c at *
  induction l generalizing c with
  | nil => simp
  | cons a l ih =>
    cases c with
    | nil => simp at hlen
    | cons b c =>
      have := ih c (by simpa using hlen)
      simp only [List.zip_cons_cons, List.map_cons, List.sum_cons] at this ⊢
      rw [this, Nat.mul_add, Nat.mul_add]
      have : a.2 * k = k * a.2 := Nat.mul_comm _ _
      omega

theorem pathCost_eq (t : DTree) (ht : t.proper) :
    ((t.leaves.zip (deriveCodes t [])).map (fun e => e.1.2 * e.2.2.length)).sum = t.pathCost := by
  induction t with
  | leaf s f => simp [DTree.leaves, deriveCodes, DTree.pathCost]
  | node l r f ihl ihr =>
    obtain ⟨hf, hl, hr⟩ := ht
    have el : l.leaves.length = ((deriveCodes l []).map (fun e => (e.1, false :: e.2))).length := by
      have := congrArg List.length (map_fst_deriveCodes l [])
      simpa using this.symm
    have key : ∀ (b : Bool) (t : DTree),
        ((t.leaves.zip ((deriveCodes t []).map (fun e => (e.1, b :: e.2)))).map (fun e => e.1.2 * e.2.2.length)).sum
        = ((t.leaves.zip (deriveCodes t [])).map (fun e => e.1.2 * (e.2.2.length + 1))).sum := by
      intro b t
      rw [List.zip_map_right, List.map_map]
      congr 1
    rw [deriveCodes_node, DTree.leaves, List.zip_append el, List.map_append, List.sum_append, key, key, zip_cost l,
      zip_cost r, ihl hl, ihr hr, DTree.pathCost, hf, hl.weight_eq, hr.weight_eq]
    ring
  | lone l f ih => exact ht.elim

theorem codeCost_eq {t : DTree} {freq : List (Nat × Nat)} (hperm : t.leaves.Perm freq) (hr : Rising freq)
    (code : List (Nat × Bits)) (hcode : code = deriveCodes t []) :
    codeCost freq (codeOf code) = ((t.leaves.zip (deriveCodes t [])).map (fun e => e.1.2 * e.2.2.length)).sum := by
  have h1 : codeCost freq (codeOf code) = (t.leaves.map (fun e => e.2 * (codeOf code e.1).length)).sum :=
    ((hperm.map _).sum_eq).symm
  have hfst : (deriveCodes t []).map Prod.fst = t.leaves.map Prod.fst := map_fst_deriveCodes t []
  have hnd : (code.map Prod.fst).Nodup := by
    rw [hcode, hfst]; exact (hperm.map Prod.fst).nodup_iff.2 (Rising.nodup hr)
  rw [h1]
  have hget : ∀ d ∈ code, codeOf code d.1 = d.2 := fun d hd => by simp [codeOf, lookup_of_mem hnd hd]
  rw [← hcode] at hfst ⊢
  clear h1 hcode hnd hperm
  generalize t.leaves = l at *
  have : ∀ (l : List (Nat × Nat)) (c : List (Nat × Bits)), (∀ d ∈ c, d ∈ code) → c.map Prod.fst = l.map Prod.fst →
     (l.map (fun e => e.2 * (codeOf code e.1).length)).sum = ((l.zip c).map (fun e => e.1.2 * e.2.2.length)).sum := by
    intro l
    induction l with
    | nil => simp
    | cons a l ih =>
      intro c hc hm
      cases c with
      | nil => simp at hm
      | cons b c =>
        simp only [List.map_cons, List.cons.injEq] at hm
        have := ih c (fun d hd => hc d (by simp [hd])) hm.2
        simp only [List.map_cons, List.sum_cons, List.zip_cons_cons, this]
        rw [← hm.1, hget b (hc b (by simp))]
  exact this l code (fun d hd => hd) hfst

end Sys2Proof.Machine
end

