-- ==== Sys2Proof/Laws/PerInstr.lean ====
section
/-! SUPPORT. One lemma per command about its word (spec/30_encoding.md R69, R72): the fields, and that decoding gives it back. -/

namespace Sys2Proof.Laws.Encoding

/-- The word of `i` decodes to `i`, its OP is the opcode of `i`, its RSV is 0, and `i` is well formed. -/
def Statement (i : Instr) : Prop :=
  decodeWord (encode i) = .ok i ∧ opField (encode i) = opcode i ∧ rsvField (encode i) = 0#28 ∧ i.wellFormed = true

theorem nop : Statement .nop := ⟨rfl, by decide, by decide, rfl⟩

theorem hbuild : Statement .hbuild := ⟨rfl, by decide, by decide, rfl⟩

theorem henc : Statement .henc := ⟨rfl, by decide, by decide, rfl⟩

theorem hdec : Statement .hdec := ⟨rfl, by decide, by decide, rfl⟩

theorem hdiscard : Statement .hdiscard := ⟨rfl, by decide, by decide, rfl⟩

theorem lzc : Statement .lzc := ⟨rfl, by decide, by decide, rfl⟩

theorem lzd : Statement .lzd := ⟨rfl, by decide, by decide, rfl⟩

theorem lzmatch : Statement .lzmatch := ⟨rfl, by decide, by decide, rfl⟩

end Sys2Proof.Laws.Encoding
end

