-- ==== Sys2Proof/Tests/Slice0.lean ====
section
/-! SUPPORT. Tests: ill-formed terms refused, words written out from spec/30_encoding.md R72, vectors of
spec/95_test_vectors.md (each test names its row), and for every obligation with hypotheses a witness that meets them. -/

namespace Sys2Proof.Tests

open Sys2Proof.Machine

/-! ### Helpers -/

/-- The bytes `bs` at `a`, `a + 1`, ... -/
def cells : Nat → List Nat → Memory
  | _, [] => []
  | a, b :: bs => (a, BitVec.ofNat 8 b) :: cells (a + 1) bs

/-- The reset state with `bytes` at address 0, SRC_LEN = `n` and a destination of `cap` bytes at `dst`. -/
def ready (bytes : List Nat) (n dst cap : Nat) : State :=
  { State.reset with
    mem := cells 0 bytes, srcLen := BitVec.ofNat 32 n, dstAddr := BitVec.ofNat 32 dst, dstCap := BitVec.ofNat 32 cap }

/-- What an outcome leaves. -/
def after : Outcome → Option State
  | .next s => some s
  | .fault _ => none
  | .refused _ => none

/-- RESULT_LEN, the error and ERR_INFO an outcome leaves. -/
def result (o : Outcome) : Option (Nat × ErrCode × Nat) :=
  (after o).map (fun s => (s.resultLen.toNat, s.errCode, s.errInfo.toNat))

/-- RESULT_LEN and `n` bytes at `a`. -/
def output (a n : Nat) (o : Outcome) : Option (Nat × List Nat) :=
  (after o).map (fun s => (s.resultLen.toNat, (readBytes s a n).map (fun b => b.toNat)))

/-- SYMBOL_BITS = 16, BUF_SIZE = 65536. -/
def wide : Params := { symbolBits := .bits16, logExtra := 4 }

/-- The codec of "aabbbcc" (95 W2, section 3.1). -/
def codecAabbbcc : Codec where
  freq := [(0x61, 2), (0x62, 3), (0x63, 2)]
  dtree := .node (.leaf 0x62 3) (.node (.leaf 0x61 2) (.leaf 0x63 2) 4) 7
  code := [(0x62, [false]), (0x61, [true, false]), (0x63, [true, true])]
  distinct := 3
  total := 7

/-- The codec of "aaaa" (95 W4, section 3.1). -/
def codecAaaa : Codec where
  freq := [(0x61, 4)]
  dtree := .lone (.leaf 0x61 4) 4
  code := [(0x61, [false])]
  distinct := 1
  total := 4

/-- "aabbbcc". -/
def aabbbcc : List Nat := [0x61, 0x61, 0x62, 0x62, 0x62, 0x63, 0x63]

/-- "ABABABA,,,...". -/
def abTail : List Nat := [0x41, 0x42, 0x41, 0x42, 0x41, 0x42, 0x41, 0x2C, 0x2C, 0x2C, 0x2E, 0x2E, 0x2E]

/-- "aaaa". -/
def aaaa : List Nat := [0x61, 0x61, 0x61, 0x61]

/-- `[0|0|a][1|5|b]` (95 L3). -/
def tokensL3 : List Nat := [0x5B, 0x30, 0x7C, 0x30, 0x7C, 0x61, 0x5D, 0x5B, 0x31, 0x7C, 0x35, 0x7C, 0x62, 0x5D]

/-- A state that holds the codec of "aabbbcc". -/
def withCodec (s : State) : State := { s with codec := some codecAabbbcc }

/-- The state right before the completion step of the word `w`. -/
def running (w : Word) (s : State) : State := { s with phase := .busy w 0 }

/-! ### Ill-formed terms are refused (10_state.md R21, 20_memory.md R52, 42_lz.md R112) -/

theorem test_wellFormed_command : ∀ i : Instr, i.wellFormed = true := by intro i; cases i <;> rfl

theorem test_illFormed_regWidth : (HostTxn.regRead 0x00C 1).wellFormed Params.reference = false := by decide

theorem test_illFormed_regAlign : (HostTxn.regWrite 0x00E 4 0#32).wellFormed Params.reference = false := by decide

theorem test_illFormed_regOffset : (HostTxn.regRead 0x100 4).wellFormed Params.reference = false := by decide

theorem test_illFormed_bufWidth : (HostTxn.bufRead 0 3).wellFormed Params.reference = false := by decide

theorem test_illFormed_bufRange : (HostTxn.bufWrite 65535 2 0#32).wellFormed Params.reference = false := by decide

theorem test_illFormed_tokenOffset :
    (Token.wellFormed Params.reference { offset := 2 ^ 32, length := 0, literal := 0 }) = false := by decide

theorem test_illFormed_tokenLength :
    (Token.wellFormed Params.reference { offset := 0, length := 2 ^ 32, literal := 0 }) = false := by decide

theorem test_illFormed_tokenLiteral :
    (Token.wellFormed Params.reference { offset := 0, length := 0, literal := 256 }) = false := by decide

theorem test_wellFormed_transactions :
    (HostTxn.regRead 0x0FC 4).wellFormed Params.reference = true ∧
    (HostTxn.bufWrite 65532 4 0#32).wellFormed Params.reference = true := by decide

/-! ### Command words written out from the table of 30_encoding.md R72 -/

theorem test_decode_nop : decodeTableWord 32 0b00000000000000000000000000000000 = some .nop := by decide

theorem test_decode_hbuild : decodeTableWord 32 0b00000000000000000000000000000001 = some .hbuild := by decide

theorem test_decode_henc : decodeTableWord 32 0b00000000000000000000000000000010 = some .henc := by decide

theorem test_decode_hdec : decodeTableWord 32 0b00000000000000000000000000000011 = some .hdec := by decide

theorem test_decode_hdiscard : decodeTableWord 32 0b00000000000000000000000000000100 = some .hdiscard := by decide

theorem test_decode_lzc : decodeTableWord 32 0b00000000000000000000000000000101 = some .lzc := by decide

theorem test_decode_lzd : decodeTableWord 32 0b00000000000000000000000000000110 = some .lzd := by decide

theorem test_decode_lzmatch : decodeTableWord 32 0b00000000000000000000000000000111 = some .lzmatch := by decide

theorem test_decode_reserved :
    decodeTableWord 32 0x00000008 = none ∧ decodeTableWord 32 0x0000000F = none ∧ decodeTableWord 32 0x00000010 = none ∧
    decodeTableWord 32 0x80000001 = none := by decide

/-- Every command is the first instruction after reset when presented. -/
theorem test_presented_first (i : Instr) :
    (after (step (State.reset.withFetchWord 32 (encode i).toNat))).isSome = true := by
  cases i <;> rfl

/-! ### Vectors -/

/-- 95 V2. -/
theorem test_param : paramWord Params.reference = 0x00401008#32 ∧ paramWord wide = 0x00401010#32 := by decide

/-- 95 V4. -/
theorem test_nop_status :
    (after (step (running 0x0#32 State.reset))).map statusWord = some 0x00000002#32 := by decide

/-- 95 V5, V7. -/
theorem test_illegal_status :
    (after (step (running 0x8#32 (accept 0x8#32 0 State.reset)))).map (fun s => (statusWord s, s.errInfo))
      = some (0x00008106#32, 0x8#32) ∧
    (after (step (running 0xFFFFFFFF#32 (accept 0xFFFFFFFF#32 0 State.reset)))).map (fun s => (statusWord s, s.errInfo))
      = some (0x0000F106#32, 0xFFFFFFFF#32) := by decide

/-- 95 V11. -/
theorem test_range : result (exec .lzc (ready aabbbcc 5 65530 7)) = some (0, .addrRange, 1) := by decide

/-- 95 V12, V13. -/
theorem test_overlap :
    commonError .henc (ready aabbbcc 7 6 16) = some .overlap ∧ commonError .henc (ready aabbbcc 7 7 16) = none := by decide

/-- 95 V15, V16. -/
theorem test_misaligned :
    result (exec .hbuild { State.reset with params := wide, srcAddr := 1#32 }) = some (0, .misaligned, 0) ∧
    result (exec .lzd { State.reset with params := wide, dstAddr := 3#32 }) = some (0, .misaligned, 1) := by decide

/-- 95 W2, section 3.1: the codec of "aabbbcc". -/
theorem test_hbuild_aabbbcc :
    (after (exec .hbuild (ready aabbbcc 7 0 0))).map (fun s => s.codec) = some (some codecAabbbcc) := by decide

/-- 95 section 3.1: "xyzz" has z = 0, x = 10, y = 11 (a leaf goes before a merged node of equal frequency). -/
theorem test_hbuild_xyzz :
    (after (exec .hbuild (ready [0x78, 0x79, 0x7A, 0x7A] 4 0 0))).map (fun s => (s.codec.map (fun c => c.code)).getD [])
      = some [(0x7A, [false]), (0x78, [true, false]), (0x79, [true, true])] := by decide

/-- 95 H4. -/
theorem test_henc_aabbbcc :
    output 0x100 2 (exec .henc (withCodec (ready aabbbcc 7 0x100 2))) = some (11, [0xA1, 0xE0]) := by decide

/-- 95 H2. -/
theorem test_henc_unknown :
    result (exec .henc (withCodec (ready [0x61, 0x62, 0x64] 3 0x100 1))) = some (0, .unknownSymbol, 2) := by decide

/-- 95 D1. -/
theorem test_hdec_aabbbcc :
    output 0x100 7 (exec .hdec (withCodec (ready [0xA1, 0xE0] 11 0x100 8))) = some (7, aabbbcc) := by decide

/-- 95 D4. -/
theorem test_hdec_incomplete :
    result (exec .hdec (withCodec (ready [0xA0] 3 0x100 8))) = some (0, .malformedEncoding, 2) := by decide

/-- 95 H6. -/
theorem test_hdiscard_status :
    (after (step (running 0x4#32 (accept 0x4#32 0 (withCodec State.reset))))).map statusWord = some 0x00004002#32 := by decide

/-- 95 Z2: `[0|0|a][1|2|a]`. -/
theorem test_lzc_aaaa :
    output 0x100 14 (exec .lzc (ready aaaa 4 0x100 14)) = some (14,
      [0x5B, 0x30, 0x7C, 0x30, 0x7C, 0x61, 0x5D, 0x5B, 0x31, 0x7C, 0x32, 0x7C, 0x61, 0x5D]) := by decide

/-- 95 section 4.1, DST_CAP = 34. -/
theorem test_lzc_overflow : result (exec .lzc (ready abTail 13 0x100 34)) = some (0, .dstOverflow, 11) := by decide

/-- 95 L4. -/
theorem test_lzd_run :
    output 0x100 7 (exec .lzd (ready tokensL3 14 0x100 7)) =
      some (7, [0x61, 0x61, 0x61, 0x61, 0x61, 0x61, 0x62]) := by decide

/-- 95 L24: the parse error at 7 comes before the apply error at 0. -/
theorem test_lzd_parse_first :
    result (exec .lzd (ready [0x5B, 0x35, 0x7C, 0x31, 0x7C, 0x61, 0x5D, 0x5B, 0x30, 0x7C, 0x30, 0x7C, 0x62] 13 0x100 9))
      = some (0, .malformedToken, 7) := by decide

/-- 95 section 4.2, CURSOR 4: the leftmost start. -/
theorem test_lzmatch_leftmost :
    (after (exec .lzmatch { ready abTail 13 0 0 with cursor := 4#32 })).map (fun s => (s.resultLen, s.matchOff))
      = some (3#32, 4#32) := by decide

/-- 95 section 4.2, CURSOR 13. -/
theorem test_lzmatch_badCursor :
    result (exec .lzmatch { ready abTail 13 0 0 with cursor := 13#32 }) = some (0, .badCursor, 13) := by decide

/-- 95 V20, V21: the IRQ level. -/
theorem test_irq :
    (after (step (running 0x0#32 { State.reset with irqEn := true }))).map State.irq = some true ∧
    (after (step { State.reset with irqEn := true, done := true, pending := [.regWrite 0x00C 4 2#32] })).map State.irq
      = some false := by decide

/-- 95 V22, V23: reserved bits of LZ_CFG and SYM_SEL. -/
theorem test_reserved_bits :
    (writeReg .lzCfg 0xFFFFFFFF#32 State.reset).lzCfg = 0x00FFFFFF#32 ∧
    (writeReg .symSel 0x1FF#32 State.reset).symSel = 0xFF#32 := by decide

/-- 95 V26. -/
theorem test_softReset :
    (after (hostTxn (.regWrite 0x008 4 2#32) (withCodec { State.reset with lzCfg := 5#32, srcAddr := 1#32 }))).map
      (fun s => (s.lzCfg, statusWord s, s.srcAddr)) = some (0x00080064#32, 0#32, 0#32) := by decide

/-! ### Witnesses: for each obligation with hypotheses, concrete values that meet them, clause by clause -/

theorem checks {i : Instr} {s : State} (h : commonError i s = none) : ChecksPass i s := (commonError_eq_none_iff i s).1 h

/-- The codec of "aabbbcc" is a codec. -/
theorem codecAabbbcc_ok : CodecOk Params.reference codecAabbbcc where
  keysRising := by decide
  countsPositive := by decide
  keysAreSymbols := by decide
  countsSum := by decide
  distinctCounts := by decide
  someKey := by decide
  treeShape := by simp [codecAabbbcc, DTree.isDecodeTree, DTree.proper, DTree.weight]
  treeLeaves := by decide
  codeIsPath := by decide
  codesShort := by decide
  textFits := by decide

/-- The codec of "aaaa" is a codec. -/
theorem codecAaaa_ok : CodecOk Params.reference codecAaaa where
  keysRising := by decide
  countsPositive := by decide
  keysAreSymbols := by decide
  countsSum := by decide
  distinctCounts := by decide
  someKey := by decide
  treeShape := ⟨0x61, rfl, by decide⟩
  treeLeaves := by decide
  codeIsPath := by decide
  codesShort := by decide
  textFits := by decide

/-- An IDLE state that holds the codec of "aabbbcc" and selects symbol `x` meets the invariant. -/
theorem withCodec_inv {x : Word} (hx : x.toNat < 256) : Inv { withCodec State.reset with symSel := x } where
  memCanonical := List.Pairwise.nil
  memInRange := by intro c hc; cases hc
  lzCfgReserved := by show lzCfgReset.extractLsb' 24 8 = 0#8; decide
  symSelReserved := hx
  errIffCode := ⟨(fun h => by cases h), fun h => absurd rfl h⟩
  noLengthOnError := by intro h; cases h
  noInfoOnSuccess := fun _ => rfl
  busyOk := by intro w k h; cases h
  codecOk := by intro c h; cases h; exact codecAabbbcc_ok
  quietInReset := fun _ => rfl

/-- LZC of one symbol at byte 0 into bytes 0x100 to 0x107, accepted and still waiting for one host transaction. -/
def lzcWaiting : State :=
  { ready [0x61] 1 0x100 8 with phase := .busy 0x5#32 1, lastOp := 0x5#4, pending := [.regRead 0x00C 4] }

theorem witness_IllegalWordsComplete :
    ((∃ r, decodeWord 0x8#32 = .error r) ∧ (∃ r, decodeWord 0xF#32 = .error r) ∧
      (∃ r, decodeWord 0x10#32 = .error r)) ∧
    (8 ≤ ((0x8#32 : Word).extractLsb' 0 4).toNat ∧ State.reset.phase = .idle) ∧
    ((0x10#32 : Word).extractLsb' 4 28 ≠ 0#28 ∧ EngineMoves (running 0x10#32 State.reset) 0x10#32) :=
  ⟨⟨⟨.reservedOpcode, rfl⟩, ⟨.reservedOpcode, rfl⟩, ⟨.reservedBits, rfl⟩⟩, ⟨by decide, rfl⟩,
    by decide, rfl, 0, rfl, .inl rfl⟩

theorem witness_StepRunsDecodedCommand :
    EngineMoves (running 0x7#32 State.reset) 0x7#32 ∧ decodeWord 0x7#32 = .ok .lzmatch := ⟨⟨rfl, 0, rfl, .inl rfl⟩, rfl⟩

theorem witness_StepTakesOldestTransaction :
    (∃ s : State, s.resetLine = false ∧ s.phase = .idle ∧ s.pending = [.regRead 0 4]) ∧
    (lzcWaiting.resetLine = false ∧ lzcWaiting.phase = .busy 0x5#32 (0 + 1) ∧ lzcWaiting.pending = [.regRead 0x00C 4]) ∧
    (State.reset.resetLine = false ∧ State.reset.phase = .idle ∧ State.reset.pending = []) :=
  ⟨⟨{ State.reset with pending := [.regRead 0 4] }, rfl, rfl, rfl⟩, ⟨rfl, rfl, rfl⟩, rfl, rfl, rfl⟩

theorem witness_BusyEngineCompletes : lzcWaiting.resetLine = false ∧ lzcWaiting.phase = .busy 0x5#32 1 := ⟨rfl, rfl⟩

theorem witness_PowerOnReset :
    (∃ s : State, s.resetLine = true ∧ s.phase = .idle ∧ s.pending = [.regWrite 0x010 4 0#32]) ∧
    (∃ s : State, s.resetLine = true ∧ s.phase = .idle ∧ s.pending = [.resetRelease]) ∧
    (∃ s : State, s.resetLine = true ∧ s.pending = []) :=
  ⟨⟨{ State.reset with resetLine := true, pending := [.regWrite 0x010 4 0#32] }, rfl, rfl, rfl⟩,
    ⟨{ State.reset with resetLine := true, pending := [.resetRelease] }, rfl, rfl, rfl⟩,
    { State.reset with resetLine := true }, rfl, rfl⟩

theorem witness_SoftResetEffect :
    (0x3#32 : Word).getLsbD 1 = true ∧
    (lzcWaiting.phase = .busy 0x5#32 1 ∧ decodeWord 0x5#32 = .ok .lzc ∧ hasDestination .lzc = true ∧ ChecksPass .lzc lzcWaiting ∧
      inDestination .lzc lzcWaiting 0x100 = true ∧ inDestination .lzc lzcWaiting 0x107 = true) ∧
    (¬∃ w k i, lzcWaiting.phase = .busy w k ∧ decodeWord w = .ok i ∧ ChecksPass i lzcWaiting ∧
      inDestination i lzcWaiting 0x108 = true) := by
  refine ⟨by decide, ⟨rfl, rfl, rfl, checks (by decide), by decide, by decide⟩, ?_⟩
  rintro ⟨w, k, i, hp, hd, -, ha⟩
  cases hp
  obtain rfl : i = .lzc := by
    have : decodeWord 0x5#32 = .ok .lzc := rfl
    rw [this] at hd
    cases hd
    rfl
  exact absurd ha (by decide)

theorem witness_RegisterReads :
    (0x054 ≤ 0x0FC ∧ 0x0FC < 0x100 ∧ 0x0FC % 4 = 0) ∧ State.reset.phase = .idle ∧
    (lzcWaiting.phase ≠ .idle ∧ 0x030 ≤ 0x050 ∧ 0x050 ≤ 0x050 ∧ 0x050 % 4 = 0) := by
  exact ⟨by decide, rfl, by decide⟩

theorem witness_CodecCountsRead :
    (State.reset.phase = .idle ∧ State.reset.codec = none) ∧
    (Inv { withCodec State.reset with symSel := 0x62#32 } ∧ (withCodec State.reset).phase = .idle ∧
      (withCodec State.reset).codec = some codecAabbbcc) := ⟨⟨rfl, rfl⟩, withCodec_inv (by decide), rfl, rfl⟩

theorem witness_QueryRegistersReportCode :
    (∀ c, (withCodec State.reset).codec = some c → freqOf c.freq 0x64 = 0) ∧
    Inv { withCodec State.reset with symSel := 0x64#32 } ∧
    (Inv { withCodec State.reset with symSel := 0x63#32 } ∧ freqOf codecAabbbcc.freq 0x63 ≠ 0) :=
  ⟨by intro c h; cases h; decide, withCodec_inv (by decide), withCodec_inv (by decide), by decide⟩

theorem witness_RegisterWrites :
    (0x1#32 : Word).getLsbD 1 = false ∧ (0x054 ≤ 0x054 ∧ 0x054 < 0x100 ∧ 0x054 % 4 = 0) ∧ State.reset.phase = .idle :=
  ⟨by decide, by decide, rfl⟩

theorem witness_CommandAcceptance : lzcWaiting.phase = .busy 0x5#32 1 ∧ State.reset.phase = .idle := ⟨rfl, rfl⟩

theorem witness_BusyWritesLost :
    lzcWaiting.phase = .busy 0x5#32 1 ∧ (0x1#32 : Word).getLsbD 1 = false ∧ (0x2#32 : Word).getLsbD 1 = true ∧
    ∃ t, step lzcWaiting = .next t ∧ t.phase = .busy 0x5#32 0 := ⟨rfl, by decide, by decide, _, rfl, rfl⟩

theorem witness_PhaseChangesOnly :
    (∃ s t w k, step s = .next t ∧ s.phase = .idle ∧ t.phase = .busy w k) ∧
    (∃ s t w k, step s = .next t ∧ s.phase = .busy w k ∧ t.phase = .idle ∧ EngineMoves s w) ∧
    (∃ t w k, step { lzcWaiting with pending := [.regWrite 0x008 4 2#32] } = .next t ∧ lzcWaiting.phase = .busy w k ∧
      t.phase = .idle) :=
  ⟨⟨{ State.reset with pending := [.regWrite 0x010 4 0#32] }, _, _, _, rfl, rfl, rfl⟩,
    ⟨running 0x0#32 State.reset, _, _, _, rfl, rfl, rfl, rfl, 0, rfl, .inl rfl⟩, _, _, _, rfl, rfl, rfl⟩

theorem witness_CodecChangesOnly :
    ∃ t, step (running 0x4#32 (withCodec State.reset)) = .next t ∧ t.codec ≠ (running 0x4#32 (withCodec State.reset)).codec :=
  ⟨_, rfl, by decide⟩

theorem witness_IrqRisesAndFalls :
    (∃ s t, step s = .next t ∧ s.irq = false ∧ t.irq = true ∧ EngineMoves s 0x0#32) ∧
    (∃ s t, step s = .next t ∧ s.irq = false ∧ t.irq = true ∧ s.pending = [.regWrite 0x008 4 1#32]) ∧
    (∃ s t, step s = .next t ∧ s.irq = true ∧ t.irq = false ∧ s.pending = [.regWrite 0x00C 4 2#32]) ∧
    (∃ s t, step s = .next t ∧ s.irq = true ∧ t.irq = false ∧ s.pending = [.regWrite 0x010 4 0#32] ∧ s.phase = .idle) ∧
    (∃ t, hostTxn .resetAssert State.reset = .next t) :=
  ⟨⟨running 0x0#32 { State.reset with irqEn := true }, _, rfl, rfl, rfl, rfl, 0, rfl, .inl rfl⟩,
    ⟨{ State.reset with done := true, pending := [.regWrite 0x008 4 1#32] }, _, rfl, rfl, rfl, rfl⟩,
    ⟨{ State.reset with done := true, irqEn := true, pending := [.regWrite 0x00C 4 2#32] }, _, rfl, rfl, rfl, rfl⟩,
    ⟨{ State.reset with done := true, irqEn := true, pending := [.regWrite 0x010 4 0#32] }, _, rfl, rfl, rfl, rfl, rfl⟩,
    _, rfl⟩

theorem witness_ParametersNeverChange : step State.reset = .next State.reset := rfl

theorem witness_FaultsExactlyOnViolations :
    step { State.reset with pending := [.regRead 0x100 4] } = .fault .badRegAccess ∧
    step { State.reset with pending := [.bufRead 65535 2] } = .fault .badBufAccess ∧
    step { lzcWaiting with pending := [.bufWrite 0 1 0#32] } = .fault .activeRegionWrite := ⟨rfl, rfl, rfl⟩

theorem witness_StepKeepsInvariant : Inv State.reset ∧ ∃ t, step State.reset = .next t :=
  ⟨{ memCanonical := List.Pairwise.nil
     memInRange := by intro c hc; cases hc
     lzCfgReserved := by decide
     symSelReserved := by decide
     errIffCode := by decide
     noLengthOnError := by intro h; cases h
     noInfoOnSuccess := fun _ => rfl
     busyOk := by intro w k h; cases h
     codecOk := by intro c h; cases h
     quietInReset := fun _ => rfl }, _, rfl⟩

theorem witness_BufferPortReadsBack :
    (State.reset.phase = .idle ∧ BufAccessOk Params.reference 65532 4 ∧ BufAccessOk Params.reference 65535 1) ∧
    (¬BufAccessOk Params.reference 65535 2 ∧ ¬BufAccessOk Params.reference 0 3) := by
  simp only [← legalBufAccess_iff]
  exact ⟨⟨rfl, by decide, by decide⟩, by decide, by decide⟩

theorem witness_BusyBufferPort :
    (lzcWaiting.phase ≠ .idle ∧ BufAccessOk Params.reference 0x0FE 4) ∧
    (∃ k, k < 4 ∧ ActiveOutputByte lzcWaiting (0x0FE + k)) ∧
    (∀ k, k < 4 → ¬ActiveOutputByte lzcWaiting (0x108 + k)) ∧
    (∃ k, k < 1 ∧ ActiveByte lzcWaiting (0 + k)) ∧ (∀ k, k < 4 → ¬ActiveByte lzcWaiting (1 + k)) ∧
    (lzcWaiting.phase ≠ .idle ∧ ¬BufAccessOk Params.reference 0x100 3) := by
  simp only [← legalBufAccess_iff, ← activeRegion_iff, ← activeDestination_iff]
  exact ⟨⟨by decide, by decide⟩, ⟨2, by decide, by decide⟩, by decide, ⟨0, by decide, by decide⟩, by decide, by decide,
    by decide⟩

theorem witness_ReadsHaveNoSideEffect :
    (∃ t, hostTxn (.regRead 0x00C 4) State.reset = .next t ∧ State.reset.phase = .idle) ∧
    (∃ t, hostTxn (.bufRead 65532 4) State.reset = .next t) := ⟨⟨_, rfl, rfl⟩, _, rfl⟩

theorem witness_CommandMemoryFrame :
    (∃ t, exec .lzmatch State.reset = .next t ∧ inDestination .lzmatch State.reset 0 = false) ∧
    ¬ChecksPass .lzc (ready aabbbcc 5 65530 7) :=
  ⟨⟨_, rfl, rfl⟩, fun h => by have := (commonError_eq_none_iff _ _).2 h; revert this; decide⟩

theorem witness_CommandReadsOnlySource :
    ∃ (s t t' : State) (m : Memory), m ≠ s.mem ∧
      (∀ a, inSource .lzc s a = true → { s with mem := m }.readByte a = s.readByte a) ∧
      exec .lzc s = .next t ∧ exec .lzc { s with mem := m } = .next t' := by
  refine ⟨ready aaaa 4 0x100 14, _, _, cells 0 [0x61, 0x61, 0x61, 0x61, 0x62], by decide, fun a ha => ?_, rfl, rfl⟩
  have h : a < 4 := (inSource_eq_true.1 ha).2.2
  revert ha
  revert a
  decide

theorem witness_ErrorRecording :
    ¬ChecksPass .henc (ready aabbbcc 7 6 16) ∧ ChecksPass .henc (ready aabbbcc 7 7 16) :=
  ⟨fun h => by have := (commonError_eq_none_iff _ _).2 h; revert this; decide, checks (by decide)⟩

theorem witness_ReissueReproducesError :
    ∃ t, State.reset.err = false ∧ exec .hdec State.reset = .next t ∧ t.err = true := ⟨_, rfl, rfl, rfl⟩

theorem witness_MisalignedOperands :
    (symbolSource .hbuild = true ∧ 1 % wide.sb ≠ 0) ∧ (symbolSource .hdec = false ∧ symbolDestination .hdec = true) ∧
    (∃ t, Params.reference.sb = 1 ∧ State.reset.errCode ≠ .misaligned ∧ exec .hbuild State.reset = .next t) :=
  ⟨by decide, by decide, _, by decide, by decide, rfl⟩

theorem witness_RegionsOutOfRange :
    (hasSource .henc = true ∧ Params.reference.bufSize < 65537 + sourceBytes .henc State.reset) ∧
    (65536 + sourceBytes .henc State.reset ≤ Params.reference.bufSize ∧ hasDestination .henc = true ∧
      Params.reference.bufSize < 65530 + 7) ∧
    (∃ t, 0 + sourceBytes .henc State.reset ≤ Params.reference.bufSize ∧ State.reset.errCode ≠ .addrRange ∧
      exec .henc State.reset = .next t) := ⟨by decide, by decide, _, by decide, by decide, rfl⟩

theorem witness_OverlappingRegions :
    (∃ a, inSource .henc (ready aabbbcc 7 6 16) a = true ∧ inDestination .henc (ready aabbbcc 7 6 16) a = true) ∧
    (0 + sourceBytes .henc (ready aabbbcc 7 6 16) ≤ Params.reference.bufSize ∧ 6 + 16 ≤ Params.reference.bufSize) ∧
    (¬∃ a, inSource .henc (ready aabbbcc 7 7 16) a = true ∧ inDestination .henc (ready aabbbcc 7 7 16) a = true) := by
  refine ⟨⟨6, by decide, by decide⟩, by decide, ?_⟩
  rintro ⟨a, ha, hb⟩
  have h1 : a < 7 := (inSource_eq_true.1 ha).2.2
  have h2 : 7 ≤ a := (inDestination_eq_true.1 hb).2.1
  omega

/-- Clause 2: a command that succeeds and one that fails. -/
theorem witness_CommandsIgnoreStatus :
    (∃ t, exec .nop State.reset = .next t) ∧
    State.reset.err = false ∧ (∃ t, exec .lzc (ready aaaa 4 0x100 14) = .next t ∧ t.err = false) ∧
    (∃ t, exec .hdec State.reset = .next t ∧ t.err = true) := ⟨⟨_, rfl⟩, rfl, ⟨_, rfl, rfl⟩, _, rfl, rfl⟩

theorem witness_CommandsReadListedOperands :
    (∃ t, Instr.lzc ≠ .lzmatch ∧ exec .lzc State.reset = .next t) ∧
    (∃ t, Instr.lzd ≠ .lzc ∧ Instr.lzd ≠ .lzmatch ∧ exec .lzd State.reset = .next t) ∧
    (∃ t, Instr.lzmatch ∈ [Instr.nop, .hbuild, .hdiscard, .lzmatch] ∧ exec .lzmatch State.reset = .next t) ∧
    (∃ t, Instr.hdiscard ∈ [Instr.nop, .hdiscard] ∧ exec .hdiscard State.reset = .next t) ∧
    (∃ t, Instr.lzd ∈ [Instr.nop, .lzc, .lzd, .lzmatch] ∧ exec .lzd (ready tokensL3 14 0x100 7) = .next t) ∧
    (∃ t, exec .hdiscard (withCodec State.reset) = .next t) ∧
    (State.reset.err = false ∧ (∃ t, exec .hbuild (ready aabbbcc 7 0 0) = .next t ∧ t.err = false) ∧
      ∃ t, exec .hbuild State.reset = .next t ∧ t.err = true) :=
  ⟨⟨_, by decide, rfl⟩, ⟨_, by decide, by decide, rfl⟩, ⟨_, by decide, rfl⟩, ⟨_, by decide, rfl⟩, ⟨_, by decide, rfl⟩, ⟨_, rfl⟩,
    rfl, ⟨_, rfl, rfl⟩, _, rfl, rfl⟩

theorem witness_BuilderTakesLeastKeys :
    [leafNode (1, 1), leafNode (0, 2)].Pairwise (fun a b => b.key.less a.key = false) := by decide

theorem witness_BuiltCodecInvariants :
    buildCodec aabbbcc = .ok codecAabbbcc ∧
    (Inv { withCodec State.reset with symSel := 0#32 } ∧ (withCodec State.reset).codec = some codecAabbbcc) :=
  ⟨rfl, withCodec_inv (by decide), rfl⟩

theorem witness_CodesArePrefixFree :
    (0x61 ∈ aabbbcc ∧ 0x63 ∈ aabbbcc ∧ (0x61 : Nat) ≠ 0x63) ∧
    (Inv { withCodec State.reset with symSel := 0#32 } ∧ freqOf codecAabbbcc.freq 0x61 ≠ 0 ∧
      freqOf codecAabbbcc.freq 0x63 ≠ 0) := ⟨by decide, withCodec_inv (by decide), by decide⟩

theorem witness_CodeIsOptimal :
    (2 ≤ codecAabbbcc.distinct ∧ ∀ x ∈ aabbbcc, ∀ y ∈ aabbbcc, x ≠ y →
      ¬(codeOf codecAabbbcc.code x <+: codeOf codecAabbbcc.code y)) ∧
    (buildCodec aaaa = .ok codecAaaa ∧ codecAaaa.distinct = 1) := ⟨by decide, rfl, rfl⟩

theorem witness_HbuildBuildsCodec :
    (ChecksPass .hbuild State.reset ∧ State.reset.srcLen = 0#32) ∧
    (ChecksPass .hbuild (ready aabbbcc 7 0 0) ∧ (ready aabbbcc 7 0 0).srcLen ≠ 0#32 ∧
      buildTree (frequencies (sourceText (ready aabbbcc 7 0 0))) = some codecAabbbcc.dtree ∧
      ∀ e ∈ deriveCodes (decodeTree codecAabbbcc.dtree) [], e.2.length ≤ 64) ∧
    tooLongSymbol [(5, 1), (6, 1)] [(5, List.replicate 65 false), (6, [true])] = some 5 :=
  ⟨⟨checks (by decide), rfl⟩, ⟨checks (by decide), by decide, by decide, by decide⟩, by decide⟩

theorem witness_CodeTooLongNeverOccurs :
    (aabbbcc ≠ [] ∧ aabbbcc.length < 2 ^ 31) ∧
    (ChecksPass .hbuild (ready aabbbcc 7 0 0) ∧ (ready aabbbcc 7 0 0).srcLen ≠ 0#32) :=
  ⟨by decide, checks (by decide), by decide⟩

theorem witness_NoCodecFails :
    ChecksPass .henc State.reset ∧ ChecksPass .hdec State.reset ∧ State.reset.codec = none :=
  ⟨checks (by decide), checks (by decide), rfl⟩

theorem witness_HencEncodes :
    (ChecksPass .henc (withCodec (ready aabbbcc 7 0x100 2)) ∧
      (∀ x ∈ sourceText (withCodec (ready aabbbcc 7 0x100 2)), freqOf codecAabbbcc.freq x ≠ 0) ∧
      ((sourceText (withCodec (ready aabbbcc 7 0x100 2))).flatMap (codeOf codecAabbbcc.code)).length ≤ 8 * 2) ∧
    (ChecksPass .henc (withCodec (ready [0x61, 0x62, 0x64] 3 0x100 1)) ∧
      sourceText (withCodec (ready [0x61, 0x62, 0x64] 3 0x100 1)) = [0x61, 0x62] ++ 0x64 :: [] ∧
      freqOf codecAabbbcc.freq 0x64 = 0) ∧
    (ChecksPass .henc (withCodec (ready aabbbcc 7 0x100 1)) ∧
      sourceText (withCodec (ready aabbbcc 7 0x100 1)) = [0x61, 0x61, 0x62, 0x62, 0x62] ++ 0x63 :: [0x63] ∧
      ([0x61, 0x61, 0x62, 0x62, 0x62].flatMap (codeOf codecAabbbcc.code)).length ≤ 8 * 1 ∧
      freqOf codecAabbbcc.freq 0x63 ≠ 0 ∧
      8 * 1 < ([0x61, 0x61, 0x62, 0x62, 0x62].flatMap (codeOf codecAabbbcc.code)).length
        + (codeOf codecAabbbcc.code 0x63).length) :=
  ⟨⟨checks (by decide), by decide, by decide⟩, ⟨checks (by decide), by decide, by decide⟩, checks (by decide), by decide,
    by decide, by decide, by decide⟩

theorem witness_HdecDecodes :
    (ChecksPass .hdec (withCodec (ready [0xA1, 0xE0] 11 0x100 7)) ∧ CodecOk Params.reference codecAabbbcc ∧
      (∀ x ∈ aabbbcc, freqOf codecAabbbcc.freq x ≠ 0) ∧ aabbbcc.length ≤ 7 / Params.reference.sb ∧
      sourceBits (withCodec (ready [0xA1, 0xE0] 11 0x100 7)) = aabbbcc.flatMap (codeOf codecAabbbcc.code)) ∧
    ([true] <+: codeOf codecAabbbcc.code 0x61 ∧ [true] ≠ codeOf codecAabbbcc.code 0x61 ∧
      sourceBits (withCodec (ready [0xA0] 3 0x100 7)) = [0x61].flatMap (codeOf codecAabbbcc.code) ++ [true]) ∧
    (CodecOk Params.reference codecAaaa ∧ codecAaaa.distinct = 1 ∧
      sourceBits (ready [0x40] 2 0x100 7) = [0x61].flatMap (codeOf codecAaaa.code) ++ true :: []) ∧
    (3 / Params.reference.sb < [0x61, 0x61, 0x62].length + 1 ∧
      sourceBits (withCodec (ready [0xA1, 0xE0] 11 0x100 3)) =
        [0x61, 0x61, 0x62].flatMap (codeOf codecAabbbcc.code) ++
          (codeOf codecAabbbcc.code 0x62 ++ [false, true, true, true, true])) :=
  ⟨⟨checks (by decide), codecAabbbcc_ok, by decide, by decide, by decide⟩, by decide, ⟨codecAaaa_ok, rfl, by decide⟩, by decide⟩

/-- HBUILD and HENC of "aabbbcc", then the operand registers of HDEC. -/
theorem witness_HuffmanRoundTrip :
    ∃ b a s t u : State, exec .hbuild b = .next a ∧ a.err = false ∧ s.codec = a.codec ∧
      exec .henc s = .next t ∧ t.err = false ∧
      u = { t with srcAddr := s.dstAddr, srcLen := t.resultLen, dstAddr := u.dstAddr, dstCap := u.dstCap } ∧
      ChecksPass .hdec u ∧ s.srcLen.toNat * s.params.sb ≤ u.dstCap.toNat := by
  refine ⟨ready aabbbcc 7 0 0, _, withCodec (ready aabbbcc 7 0x100 2),
    (after (exec .henc (withCodec (ready aabbbcc 7 0x100 2)))).getD State.reset,
    { (after (exec .henc (withCodec (ready aabbbcc 7 0x100 2)))).getD State.reset with
      srcAddr := 0x100#32, srcLen := 11#32, dstAddr := 0x200#32, dstCap := 7#32 },
    rfl, rfl, rfl, rfl, rfl, by decide, checks (by decide), by decide⟩

theorem witness_HdiscardClearsCodec :
    ∀ i, i = .henc ∨ i = .hdec → ChecksPass i ((after (exec .hdiscard (withCodec State.reset))).getD State.reset) := by
  rintro i (rfl | rfl) <;> exact checks (by decide)

theorem witness_LzmatchFindsLongest :
    (ChecksPass .lzmatch { ready abTail 13 0 0 with cursor := 13#32 } ∧ 13 ≤ (13#32 : Word).toNat) ∧
    (ChecksPass .lzmatch { ready abTail 13 0 0 with cursor := 12#32 } ∧ (12#32 : Word).toNat < 13) :=
  ⟨⟨checks (by decide), by decide⟩, checks (by decide), by decide⟩

theorem witness_LzcWritesRecords :
    ∃ toks, Compresses aaaa 100 8 0 toks ∧ sourceText (ready aaaa 4 0x100 14) = aaaa ∧
      ChecksPass .lzc (ready aaaa 4 0x100 14) ∧ (toks.flatMap (fun e => record e.1)).length ≤ 14 / Params.reference.sb ∧
      (∃ pre x c post, toks = pre ++ (x, c) :: post ∧
        (pre.flatMap (fun e => record e.1)).length ≤ 13 / Params.reference.sb ∧
        13 / Params.reference.sb < (pre.flatMap (fun e => record e.1)).length + (record x).length) := by
  refine ⟨_, compress_spec aaaa 100 8, by decide, checks (by decide), by decide, ?_⟩
  exact ⟨[({ offset := 0, length := 0, literal := 0x61 }, 0)], { offset := 1, length := 2, literal := 0x61 }, 1, [],
    by decide, by decide, by decide⟩

theorem witness_CompressIsTotalAndBounded : ∃ toks, Compresses aaaa 0 0 0 toks := ⟨_, compress_spec aaaa 0 0⟩

theorem witness_DecimalNumbers :
    (0 < 2 ^ 32 ∧ 2 ^ 32 - 1 < 2 ^ 32) ∧ IsNumber [0x30, 0x30] 0 ∧ (0x7C < 0x30 ∨ 0x39 < 0x7C) ∧
    parseNumber [0x39, 0x3A] = some (9, [0x3A]) ∧ parseNumber [0x30, 0x2F] = some (0, [0x2F]) :=
  ⟨by decide, ⟨by decide, by decide, rfl, by decide⟩, by decide, by decide, by decide⟩

/-- `[0|0|a]` is a stream, and `[0|0|b` after it is no record. -/
theorem witness_ParseMatchesGrammar :
    IsStream 0 [0x5B, 0x30, 0x7C, 0x30, 0x7C, 0x61, 0x5D] [({ offset := 0, length := 0, literal := 0x61 }, 0)] ∧
    ∀ r t rest', IsRecord r t → [0x5B, 0x30, 0x7C, 0x30, 0x7C, 0x62] ≠ r ++ rest' := by
  refine ⟨parseStream_inv (fuel := 7) (by rfl), fun r t rest' h heq => ?_⟩
  have h1 := parseRecord_isRecord h rest'
  rw [← heq] at h1
  revert h1
  have h2 : parseRecord [0x5B, 0x30, 0x7C, 0x30, 0x7C, 0x62] = none := by decide
  rw [h2]
  intro h1
  cases h1

/-- The tokens of L3, then of L12 and L5: one legal stream, one illegal token, one that does not fit. -/
theorem witness_LzdExpandsTokens :
    (ChecksPass .lzd (ready tokensL3 14 0x100 7) ∧
      ∃ toks, IsStream 0 (sourceText (ready tokensL3 14 0x100 7)) toks ∧
        Decompresses [] toks [0x61, 0x61, 0x61, 0x61, 0x61, 0x61, 0x62]) ∧
    (ChecksPass .lzd (ready tokensL3 14 0x100 6) ∧
      ∃ pre x p post mid, IsStream 0 (sourceText (ready tokensL3 14 0x100 6)) (pre ++ (x, p) :: post) ∧
        Decompresses [] pre mid ∧ mid.length ≤ 6 / Params.reference.sb ∧ (1 ≤ x.offset ∧ x.offset ≤ mid.length) ∧
        6 / Params.reference.sb < mid.length + x.length + 1) ∧
    (∃ x p, IsStream 0 (sourceText (ready [0x5B, 0x33, 0x7C, 0x31, 0x7C, 0x78, 0x5D] 7 0x100 9)) ([] ++ (x, p) :: []) ∧
      Decompresses [] [] [] ∧ ([] : List Nat).length < x.offset) ∧
    sourceText (ready [0x5B, 0x30, 0x7C, 0x30, 0x7C, 0x61, 0x5D, 0x5B, 0x30, 0x7C, 0x30, 0x7C, 0x62] 13 0x100 9) =
      [0x5B, 0x30, 0x7C, 0x30, 0x7C, 0x61, 0x5D] ++ [0x5B, 0x30, 0x7C, 0x30, 0x7C, 0x62] := by
  have hs : IsStream 0 tokensL3 ([({ offset := 0, length := 0, literal := 0x61 }, 0)] ++
      ({ offset := 1, length := 5, literal := 0x62 }, 7) :: []) := parseStream_inv (fuel := 14) (by rfl)
  have h1 : Decompresses [] [({ offset := 0, length := 0, literal := 0x61 }, 0)] [0x61] :=
    (applyTokens_inv (cap := 1) (by rfl) (by decide)).1
  refine ⟨⟨checks (by decide), _, hs, (applyTokens_inv (cap := 7) (by rfl) (by decide)).1⟩,
    ⟨checks (by decide), _, _, _, _, _, hs, h1, by decide, by decide, by decide⟩,
    ⟨{ offset := 3, length := 1, literal := 0x78 }, 0, parseStream_inv (fuel := 7) (by rfl), .nil _, by decide⟩, by decide⟩

theorem witness_LzdIgnoresLzCfg : ∃ t, exec .lzd (ready tokensL3 14 0x100 7) = .next t := ⟨_, rfl⟩

/-- LZC of "aaaa", then the operand registers of LZD. -/
theorem witness_LzRoundTrip :
    ∃ s t u : State, exec .lzc s = .next t ∧ t.err = false ∧
      u = { t with
        srcAddr := s.dstAddr, srcLen := t.resultLen, dstAddr := u.dstAddr, dstCap := u.dstCap, lzCfg := u.lzCfg } ∧
      ChecksPass .lzd u ∧ s.srcLen.toNat * s.params.sb ≤ u.dstCap.toNat := by
  refine ⟨ready aaaa 4 0x100 14, (after (exec .lzc (ready aaaa 4 0x100 14))).getD State.reset,
    { (after (exec .lzc (ready aaaa 4 0x100 14))).getD State.reset with
      srcAddr := 0x100#32, srcLen := 14#32, dstAddr := 0x200#32, dstCap := 4#32 },
    rfl, rfl, by decide, checks (by decide), by decide⟩

/-- The tree of 95 section 3.1 by the rule: "b" has count 3, and the first merge takes "a" and "c". -/
theorem witness_TreeFollowsMergeRule :
    frequencies aabbbcc ≠ [] ∧ (frequencies aabbbcc).Pairwise (fun d e => d.1 < e.1) ∧
    Merges 0 ((frequencies aabbbcc).map leafNode) codecAabbbcc.dtree :=
  ⟨by decide, by decide, (mergeAll_merges (fuel := 3) (by rfl) (leafQueue_sorted _) (keysOk_leaves (by decide))).perm
    (leafQueue_perm _)⟩

theorem witness_ErrorsOfEachCommand :
    State.reset.errCode = .none ∧ (∃ t, exec .hbuild State.reset = .next t ∧ t.errCode = .emptyInput) ∧
    (∃ t, exec .henc State.reset = .next t ∧ t.errCode = .noCodec) ∧
    (∃ t, exec .lzmatch State.reset = .next t ∧ t.errCode = .badCursor) ∧ (∃ t, exec .nop State.reset = .next t) :=
  ⟨rfl, ⟨_, rfl, rfl⟩, ⟨_, rfl, rfl⟩, ⟨_, rfl, rfl⟩, _, rfl⟩

end Sys2Proof.Tests
end

namespace Sys2Proof.Machine

/-! ### The build-time parameters (spec/00_scope.md R9)

Every operation on the state keeps `params`, and both resets rebuild the registers for the same configuration; the steps follow by
the inversions `hostTxn_next` and `step_next`. -/

@[simp] theorem memWrite_params (a n v : Nat) (s : State) : (memWrite a n v s).params = s.params := rfl

@[simp] theorem powerOnReset_params (line : Bool) (s : State) : (powerOnReset line s).params = s.params := rfl

@[simp] theorem softReset_params (s : State) : (softReset s).params = s.params := by
  unfold softReset
  split <;> simp

theorem Ends.params {i : Instr} {s t : State} (h : Ends i s t) : t.params = s.params := by rw [h.fields]

theorem TxnNext.params {s t : State} {x : HostTxn} (h : TxnNext s x t) : t.params = s.params := by
  cases h with
  | softReset | status | accepted | bufWrite | resetAssert | resetRelease => simp
  | _ => rfl

theorem StepNext.params {s t : State} (h : StepNext s t) : t.params = s.params := by
  cases h with
  | stays _ => rfl
  | ignoredInReset | released => simp [takeTransaction_params]
  | host _ _ hx => rw [hx.params, takeTransaction_params]
  | illegal _ _ => simp
  | command _ _ he => exact he.params

/-- Settles O19, by the cases of what a step can do. -/
theorem parametersNeverChange : Obligations.ParametersNeverChange :=
  fun _ _ h => (step_next h).params

end Sys2Proof.Machine

namespace Sys2Proof.Machine

/-! ### The invariants of a codec (spec/10_state.md R47) -/

theorem freqOf_ne_zero_iff_key {t : List (Nat × Nat)} (hr : Rising t) (hp : ∀ e ∈ t, 0 < e.2) (x : Nat) :
    freqOf t x ≠ 0 ↔ x ∈ t.map Prod.fst := by
  constructor
  · exact fun h => List.mem_map.2 ⟨_, mem_of_freqOf h, rfl⟩
  · intro h
    obtain ⟨e, he, rfl⟩ := List.mem_map.1 h
    rw [freqOf_of_mem hr he]
    exact (hp e he).ne'

/-- A codec whose code table is the walk of a tree over its frequency table keeps the invariants. -/
theorem keepsCodecInvariants_of_tree {c : Codec} (hr : Rising c.freq) (hp : ∀ e ∈ c.freq, 0 < e.2)
    (hsum : (c.freq.map (fun e => e.2)).sum = c.total) (hd : c.distinct = c.freq.length) (h1 : 1 ≤ c.distinct)
    (hl : c.dtree.leaves.Perm c.freq) (hc : c.code = deriveCodes c.dtree []) : KeepsCodecInvariants c where
  countsSum := hsum
  distinctCounts := hd
  someKey := h1
  keysOnce := hr
  countsPositive := hp
  oneLeafPerKey := hl
  codeIsPath x b h := by
    rw [hc] at h
    obtain ⟨f, hf, hm⟩ := follow_deriveCodes c.dtree _ h
    rw [hf, freqOf_of_mem hr (hl.mem_iff.1 hm)]
  codedExactlyKeys x := by
    rw [freqOf_ne_zero_iff_key hr hp, ← (hl.map Prod.fst).mem_iff, ← map_fst_deriveCodes c.dtree [], ← hc]
    simp
  noCodeBeginsAnother := by
    rw [hc]
    exact deriveCodes_prefix_free c.dtree

theorem CodecOk.keepsInvariants {p : Params} {c : Codec} (h : CodecOk p c) : KeepsCodecInvariants c :=
  keepsCodecInvariants_of_tree h.keysRising h.countsPositive h.countsSum h.distinctCounts h.someKey h.treeLeaves h.codeIsPath

theorem buildCodec_keepsInvariants {text : List Nat} {c : Codec} (h : buildCodec text = .ok c) :
    KeepsCodecInvariants c := by
  obtain ⟨t, -, -, hperm, hne, rfl⟩ := buildCodec_structure h
  exact keepsCodecInvariants_of_tree (frequencies_rising text) (frequencies_positive text) (frequencies_sum text) rfl
    (List.length_pos_iff.2 hne) (by simpa using hperm) rfl

/-- Settles O39, from the one lemma about codes that are the walk of a tree. -/
theorem builtCodecInvariants : Obligations.BuiltCodecInvariants := by
  refine ⟨fun text c h => ⟨?_, buildCodec_keepsInvariants h, fun x => ?_⟩, fun _ c hi hc => (hi.codecOk c hc).keepsInvariants⟩
  all_goals obtain ⟨_, -, -, -, -, rfl⟩ := buildCodec_structure h
  · rfl
  · exact freqOf_frequencies text x

/-! ### The codec registers of an IDLE engine (spec/10_state.md R37 to R41) -/

theorem CodecOk.total_lt {p : Params} {c : Codec} (h : CodecOk p c) : c.total < 2 ^ 32 := by
  have hsb : 0 < p.sb := by unfold Params.sb; split <;> decide
  calc c.total ≤ c.total * p.sb := Nat.le_mul_of_pos_right _ hsb
    _ ≤ p.bufSize := h.textFits
    _ ≤ 2 ^ 28 := bufSize_le p
    _ < 2 ^ 32 := by decide

theorem CodecOk.distinct_le {p : Params} {c : Codec} (h : CodecOk p c) : c.distinct ≤ c.total := by
  rw [h.distinctCounts, ← h.countsSum, ← List.length_map (as := c.freq) (fun e => e.2)]
  refine List.length_le_sum_of_one_le _ fun n hn => ?_
  obtain ⟨e, he, rfl⟩ := List.mem_map.1 hn
  exact h.countsPositive e he

theorem CodecOk.freqOf_le {p : Params} {c : Codec} (h : CodecOk p c) (x : Nat) : freqOf c.freq x ≤ c.total := by
  by_cases hx : freqOf c.freq x = 0
  · omega
  · rw [← h.countsSum]
    exact List.single_le_sum (fun _ _ => Nat.zero_le _) _ (List.mem_map_of_mem (f := fun e => e.2) (mem_of_freqOf hx))

theorem selectedCode_of_no_codec {s : State} (h : s.codec = none) : selectedCode s = none := by
  simp [selectedCode, h]

theorem regValue_of_no_codec {s : State} (h : s.codec = none) :
    ∀ r ∈ [Reg.alphabet, .codecLen, .qFreq, .qCodeLen, .qCodeLo, .qCodeHi], regValue s r = 0#32 := by
  simp [regValue, h, selectedCode_of_no_codec, bitsValue]

/-- RegRead while IDLE, at offsets whose registers all have the value 0. -/
theorem hostTxn_read_zeros {s : State} {offs : List Nat} {rs : List Reg} (hp : s.phase = .idle)
    (hmap : ∀ off ∈ offs, ∃ r ∈ rs, legalRegAccess off 4 = true ∧ registerAt off = some r)
    (h : ∀ r ∈ rs, regValue s r = 0#32) :
    ∀ off ∈ offs, hostTxn (.regRead off 4) s = .next { s with answer := some 0#32 } := by
  intro off hoff
  obtain ⟨r, hr, hl, ha⟩ := hmap off hoff
  rw [hostTxn_regRead_idle s hp off r hl ha, h r hr]

section
variable {s : State} {c : Codec} (hi : Inv s) (hc : s.codec = some c)
include hi hc

theorem Inv.alphabet_toNat : (regValue s .alphabet).toNat = c.freq.length := by
  have h := hi.codecOk c hc
  have hd := h.distinct_le
  have ht := h.total_lt
  rw [← h.distinctCounts]
  simpa [regValue, hc] using Nat.lt_of_le_of_lt hd ht

theorem Inv.codecLen_toNat : (regValue s .codecLen).toNat = (c.freq.map (fun e => e.2)).sum := by
  have h := hi.codecOk c hc
  rw [h.countsSum]
  simpa [regValue, hc] using h.total_lt

theorem Inv.qFreq_toNat : (regValue s .qFreq).toNat = freqOf c.freq s.symSel.toNat := by
  have h := hi.codecOk c hc
  simpa [regValue, hc, selectedSymbol_eq hi.symSelReserved] using Nat.lt_of_le_of_lt (h.freqOf_le _) h.total_lt

/-- Q_FREQ is 0 exactly when the selected symbol is no key. -/
theorem Inv.qFreq_eq_zero_iff : regValue s .qFreq = 0#32 ↔ ∀ e ∈ c.freq, e.1 ≠ s.symSel.toNat := by
  have h := hi.codecOk c hc
  have hk := freqOf_ne_zero_iff_key h.keysRising h.countsPositive s.symSel.toNat
  rw [← BitVec.toNat_inj, hi.qFreq_toNat hc, BitVec.toNat_ofNat, Nat.zero_mod, ← not_iff_not, ← ne_eq, hk]
  simp

end

/-- Settles O11: without a codec every value is 0, and with one the counts fit their registers. -/
theorem codecCountsRead : Obligations.CodecCountsRead := by
  refine ⟨fun s hp hc => hostTxn_read_zeros hp (by decide) (regValue_of_no_codec hc), fun s c hi hp hc =>
    ⟨_, _, _, ?_, ?_, ?_, hi.alphabet_toNat hc, hi.codecLen_toNat hc, hi.qFreq_toNat hc, hi.qFreq_eq_zero_iff hc⟩⟩
  all_goals exact hostTxn_regRead_idle s hp _ _ rfl rfl

theorem selectedCode_of_absent {s : State} (hi : Inv s) (h : ∀ c, s.codec = some c → freqOf c.freq s.symSel.toNat = 0) :
    selectedCode s = none := by
  cases hc : s.codec with
  | none => exact selectedCode_of_no_codec hc
  | some c => simp [selectedCode, hc, selectedSymbol_eq hi.symSelReserved, h c hc]

theorem selectedCode_of_key {s : State} {c : Codec} (hi : Inv s) (hc : s.codec = some c)
    (hx : freqOf c.freq s.symSel.toNat ≠ 0) : selectedCode s = some (codeOf c.code s.symSel.toNat) := by
  simp [selectedCode, hc, selectedSymbol_eq hi.symSelReserved, hx]

theorem regValue_of_no_code {s : State} (h : selectedCode s = none) :
    ∀ r ∈ [Reg.qCodeLen, .qCodeLo, .qCodeHi], regValue s r = 0#32 := by
  simp [regValue, h, bitsValue]

theorem bitsValue_lt (b : Bits) : bitsValue b < 2 ^ b.length := by
  cases b with
  | nil => exact Nat.one_pos
  | cons x b => exact (bitsValue_testBit (x :: b) 0 (Nat.succ_pos _)).2

/-- A number below 2^64 is its two words. -/
theorem word_halves {n : Nat} (h : n < 2 ^ 64) :
    (BitVec.ofNat 32 (n / 2 ^ 32)).toNat * 2 ^ 32 + (BitVec.ofNat 32 n).toNat = n := by
  simp only [BitVec.toNat_ofNat]
  omega

/-- The three query registers hold the selected code, right-aligned in Q_CODE_HI and Q_CODE_LO. -/
theorem queryRegisters_of_code {s : State} {b : Bits} (h : selectedCode s = some b) (hb : b.length ≤ 64) :
    (regValue s .qCodeLen).toNat = b.length ∧
      (regValue s .qCodeHi).toNat * 2 ^ 32 + (regValue s .qCodeLo).toNat = bitsValue b := by
  simp only [regValue, h, Option.getD_some]
  refine ⟨(BitVec.toNat_ofNat _ _).trans (Nat.mod_eq_of_lt (by omega)), word_halves (Nat.lt_of_lt_of_le (bitsValue_lt b) ?_)⟩
  exact Nat.pow_le_pow_right (by decide) hb

theorem CodecOk.code_length {p : Params} {c : Codec} (h : CodecOk p c) {x : Nat} (hx : freqOf c.freq x ≠ 0) :
    1 ≤ (codeOf c.code x).length ∧ (codeOf c.code x).length ≤ 64 :=
  ⟨List.length_pos_iff.2 (h.code_ne_nil hx), h.codesShort _ (h.code_mem hx)⟩

/-- Settles O12: a code of a valid codec has 1 to 64 bits, so two registers hold its value. -/
theorem queryRegistersReportCode : Obligations.QueryRegistersReportCode := by
  refine ⟨fun s hp hx hi => hostTxn_read_zeros hp (by decide) (regValue_of_no_code (selectedCode_of_absent hi hx)),
    fun s c hi hp hc hx => ?_⟩
  obtain ⟨h1, h64⟩ := (hi.codecOk c hc).code_length hx
  obtain ⟨hn, hv⟩ := queryRegisters_of_code (selectedCode_of_key hi hc hx) h64
  refine ⟨regValue s .qCodeLen, regValue s .qCodeLo, regValue s .qCodeHi, hostTxn_regRead_idle s hp _ _ rfl rfl,
    hostTxn_regRead_idle s hp _ _ rfl rfl, hostTxn_regRead_idle s hp _ _ rfl rfl, hn, ?_⟩
  rw [hv, hn]
  exact ⟨h1, h64, fun j hj => (bitsValue_testBit _ j hj).1, bitsValue_lt _⟩

end Sys2Proof.Machine

namespace Sys2Proof.Machine

/-! ### The phase (spec/10_state.md R19) -/

theorem takeTransaction_idle {s : State} (h : s.phase = .idle) (rest : List HostTxn) :
    takeTransaction rest s = { s with pending := rest } := by
  simp [takeTransaction, h]

theorem takeTransaction_busy {s : State} {w : Word} {k : Nat} (h : s.phase = .busy w k) (rest : List HostTxn) :
    takeTransaction rest s = { s with pending := rest, phase := .busy w (k - 1) } := by
  simp [takeTransaction, h]

theorem EngineMoves.word_eq {s : State} {w w' : Word} {k : Nat} (h : EngineMoves s w') (hp : s.phase = .busy w k) :
    w' = w := by
  obtain ⟨-, k', hp', -⟩ := h
  rw [hp] at hp'
  cases hp'
  rfl

theorem EngineMoves.not_idle {s : State} {w : Word} (h : EngineMoves s w) : s.phase ≠ .idle := by
  obtain ⟨-, k, hp, -⟩ := h
  simp [hp]

theorem Ends.pending {i : Instr} {s t : State} (h : Ends i s t) : t.pending = s.pending := by rw [h.fields]

@[simp] theorem softReset_phase (s : State) : (softReset s).phase = .idle := rfl

@[simp] theorem powerOnReset_phase (line : Bool) (s : State) : (powerOnReset line s).phase = .idle := rfl

/-- Only an accepted CMD write makes an IDLE engine BUSY. -/
theorem TxnNext.starts {s t : State} {x : HostTxn} {w : Word} {k : Nat} (h : TxnNext s x t) (hs : s.phase = .idle)
    (ht : t.phase = .busy w k) : x = .regWrite 0x010 4 w := by
  cases h with
  | accepted v _ =>
    cases ht
    rfl
  | softReset | resetAssert => cases ht
  | _ => exact absurd (hs.symm.trans ht) (by simp)

/-- Only a reset makes a BUSY engine IDLE without a completion. -/
theorem TxnNext.abandons {s t : State} {x : HostTxn} {w : Word} {k : Nat} (h : TxnNext s x t) (hs : s.phase = .busy w k)
    (ht : t.phase = .idle) : (∃ v, x = .regWrite 0x008 4 v ∧ v.getLsbD 1 = true) ∨ x = .resetAssert := by
  cases h with
  | softReset v hv => exact .inl ⟨v, rfl, hv⟩
  | resetAssert => exact .inr rfl
  | accepted _ hp => exact absurd (hs.symm.trans hp) (by simp)
  | _ => exact absurd (hs.symm.trans ht) (by simp)

/-- STATUS.BUSY is bit 0, and every other field of STATUS has an even weight. -/
theorem statusWord_busy (s : State) : (statusWord s).getLsbD 0 = s.busy := by
  have hpar : ∀ b d e c u x l : Nat, (b + d * 2 + e * 4 + c * 8 + u * 16 + x * 256 + l * 4096) % 2 = b % 2 := by
    intros
    omega
  simp only [statusWord, BitVec.getLsbD_ofNat, Nat.testBit_zero, hpar]
  cases s.busy <;> rfl

theorem StepNext.starts {s t : State} {w : Word} {k : Nat} (h : StepNext s t) (hs : s.phase = .idle)
    (ht : t.phase = .busy w k) : s.resetLine = false ∧ ∃ rest, s.pending = .regWrite 0x010 4 w :: rest := by
  cases h with
  | stays _ => exact absurd (hs.symm.trans ht) (by simp)
  | ignoredInReset _ _ _ =>
    rw [takeTransaction_idle hs] at ht
    exact absurd (hs.symm.trans ht) (by simp)
  | released _ _ => cases ht
  | @host x rest _ hm hq hx =>
    refine ⟨hm.1, rest, ?_⟩
    rw [hq, hx.starts (by rw [takeTransaction_idle hs]; exact hs) ht]
  | illegal hm _ => exact absurd hs hm.not_idle
  | command hm _ _ => exact absurd hs hm.not_idle

theorem StepNext.ends {s t : State} {w : Word} {k : Nat} (h : StepNext s t) (hs : s.phase = .busy w k)
    (ht : t.phase = .idle) :
    (EngineMoves s w ∧ t.done = true ∧ t.pending = s.pending) ∨
      (∃ v rest, s.pending = .regWrite 0x008 4 v :: rest ∧ v.getLsbD 1 = true) ∨
      (∃ rest, s.pending = .resetAssert :: rest) ∨ (∃ rest, s.pending = .resetRelease :: rest) := by
  cases h with
  | stays _ => exact absurd (hs.symm.trans ht) (by simp)
  | ignoredInReset _ _ _ =>
    rw [takeTransaction_busy hs] at ht
    cases ht
  | released _ hq => exact .inr (.inr (.inr ⟨_, hq⟩))
  | @host x rest _ _ hq hx =>
    rw [takeTransaction_busy hs] at hx
    rcases hx.abandons rfl ht with ⟨v, rfl, hv⟩ | rfl
    · exact .inr (.inl ⟨v, rest, hq, hv⟩)
    · exact .inr (.inr (.inl ⟨rest, hq⟩))
  | illegal hm _ =>
    obtain rfl := hm.word_eq hs
    exact .inl ⟨hm, rfl, rfl⟩
  | command hm _ he =>
    obtain rfl := hm.word_eq hs
    exact .inl ⟨hm, he.done, he.pending⟩

/-- Settles O16, by the cases of what a step can do. -/
theorem phaseChangesOnly : Obligations.PhaseChangesOnly := by
  refine ⟨fun s => ?_, fun s t h => ⟨fun hs w k ht => (step_next h).starts hs ht, fun w k hs ht => (step_next h).ends hs ht⟩⟩
  rw [statusWord_busy, busy_iff]

/-! ### The codec context (spec/10_state.md R45) -/

/-- Of the host transactions, only the acceptance of HBUILD and a reset change the codec context. -/
theorem TxnNext.changesCodec {s t : State} {x : HostTxn} (h : TxnNext s x t) (hne : t.codec ≠ s.codec) :
    x = .regWrite 0x010 4 0x00000001#32 ∨ (∃ v, x = .regWrite 0x008 4 v ∧ v.getLsbD 1 = true) ∨ x = .resetAssert := by
  cases h with
  | accepted w _ =>
    by_cases hw : w = encode .hbuild
    · subst hw
      exact .inl rfl
    · exact absurd (by simp [respond, hw]) hne
  | softReset v hv => exact .inr (.inl ⟨v, rfl, hv⟩)
  | resetAssert => exact .inr (.inr rfl)
  | _ => exact absurd rfl hne

/-- Of the commands, only HBUILD and HDISCARD change the codec context. -/
theorem Ends.changesCodec {i : Instr} {s t : State} (h : Ends i s t) (hne : t.codec ≠ s.codec) :
    i = .hbuild ∨ i = .hdiscard := by
  by_contra hi
  obtain ⟨h1, h2⟩ := not_or.1 hi
  exact hne (h.codec h1 h2)

/-- Settles O17, by the cases of what a step can do. -/
theorem codecChangesOnly : Obligations.CodecChangesOnly := by
  intro s t h hne
  cases step_next h with
  | stays _ => exact absurd rfl hne
  | ignoredInReset _ _ _ => exact absurd (takeTransaction_codec _ s) hne
  | released _ hq => exact .inr (.inr (.inr (.inr (.inr ⟨_, hq⟩))))
  | @host x rest _ _ hq hx =>
    rw [← takeTransaction_codec rest s] at hne
    rcases hx.changesCodec hne with rfl | ⟨v, rfl, hv⟩ | rfl
    · exact .inr (.inr (.inl ⟨rest, hq⟩))
    · exact .inr (.inr (.inr (.inl ⟨v, rest, hq, hv⟩)))
    · exact .inr (.inr (.inr (.inr (.inl ⟨rest, hq⟩))))
  | illegal _ _ => exact absurd rfl hne
  | command hm hd he =>
    obtain rfl := encode_of_decode hd
    rcases he.changesCodec hne with rfl | rfl
    · exact .inl hm
    · exact .inr (.inl hm)

/-! ### Writes while BUSY (spec/10_state.md R42) -/

/-- While BUSY a write to CMD or to an operand register is lost. -/
theorem writeReg_busy {s : State} (hb : s.busy = true) (v : Word) :
    ∀ r ∈ [Reg.cmd, .srcAddr, .srcLen, .dstAddr, .dstCap, .lzCfg, .cursor, .symSel], writeReg r v s = loseWrite s := by
  simp [writeReg, cmdWrite, hb]

theorem hostTxn_write_busy {s : State} (hb : s.busy = true) (v : Word) :
    ∀ off ∈ [0x010, 0x014, 0x018, 0x01C, 0x020, 0x024, 0x028, 0x02C],
      hostTxn (.regWrite off 4 v) s = .next { s with wbusy := true, answer := none } := by
  intro off hoff
  obtain ⟨r, hr, hl, ha⟩ : ∃ r ∈ [Reg.cmd, .srcAddr, .srcLen, .dstAddr, .dstCap, .lzCfg, .cursor, .symSel],
      legalRegAccess off 4 = true ∧ registerAt off = some r := by
    revert off
    decide
  rw [hostTxn_regWrite_reg s off v r hl ha, writeReg_busy hb v r hr]
  rfl

theorem hostTxn_write_ctrl (s : State) (v : Word) :
    hostTxn (.regWrite 0x008 4 v) s = .next (respond none (writeCtrl v s)) :=
  hostTxn_regWrite_reg s _ v .ctrl rfl rfl

theorem writeCtrl_irqEn {v : Word} (h : v.getLsbD 1 = false) (s : State) :
    writeCtrl v s = { s with irqEn := v.getLsbD 0 } := by
  simp only [writeCtrl, h, Bool.false_eq_true, if_false]

theorem writeCtrl_softReset {v : Word} (h : v.getLsbD 1 = true) (s : State) : writeCtrl v s = softReset s := by
  simp only [writeCtrl, h, if_true]

theorem statusWord_softReset (s : State) : statusWord (softReset s) = 0#32 := by
  simp [statusWord, State.busy, State.codecValid, ErrCode.value, softReset]

/-- `t` has the operand registers of `s`. -/
structure KeepsOperands (s t : State) : Prop where
  srcAddr : t.srcAddr = s.srcAddr
  srcLen : t.srcLen = s.srcLen
  dstAddr : t.dstAddr = s.dstAddr
  dstCap : t.dstCap = s.dstCap
  lzCfg : t.lzCfg = s.lzCfg
  cursor : t.cursor = s.cursor
  symSel : t.symSel = s.symSel

/-- A transaction that leaves a BUSY engine BUSY keeps the command word and the operand registers. -/
theorem TxnNext.keepsOperands {s t : State} {x : HostTxn} (h : TxnNext s x t) (hs : s.busy = true) (ht : t.busy = true) :
    t.phase = s.phase ∧ KeepsOperands s t := by
  cases h with
  | srcAddr _ hb | srcLen _ hb | dstAddr _ hb | dstCap _ hb | lzCfg _ hb | cursor _ hb | symSel _ hb =>
    exact absurd (hs.symm.trans hb) (by simp)
  | accepted _ hp => exact absurd (hs.symm.trans ((busy_eq_false_iff s).2 hp)) (by simp)
  | softReset | resetAssert => cases ht
  | _ => exact ⟨rfl, rfl, rfl, rfl, rfl, rfl, rfl, rfl⟩

/-- A step that leaves a BUSY engine BUSY keeps the command word and the operand registers. -/
theorem StepNext.keepsOperands {s t : State} {w w' : Word} {k k' : Nat} (h : StepNext s t) (hs : s.phase = .busy w k)
    (ht : t.phase = .busy w' k') : w' = w ∧ KeepsOperands s t := by
  cases h with
  | stays _ =>
    rw [hs] at ht
    cases ht
    exact ⟨rfl, rfl, rfl, rfl, rfl, rfl, rfl, rfl⟩
  | ignoredInReset _ _ _ =>
    rw [takeTransaction_busy hs] at ht ⊢
    cases ht
    exact ⟨rfl, rfl, rfl, rfl, rfl, rfl, rfl, rfl⟩
  | released _ _ => cases ht
  | host _ _ hx =>
    rw [takeTransaction_busy hs] at hx
    obtain ⟨hp, h1, h2, h3, h4, h5, h6, h7⟩ := hx.keepsOperands rfl ((busy_iff t).2 ⟨w', k', ht⟩)
    rw [ht] at hp
    cases hp
    exact ⟨rfl, h1, h2, h3, h4, h5, h6, h7⟩
  | illegal _ _ => cases ht
  | command _ _ he => exact absurd (he.phase.symm.trans ht) (by simp)

/-- Settles O15: the writes one register at a time, then the cases of what a step can do. -/
theorem busyWritesLost : Obligations.BusyWritesLost := by
  refine ⟨fun s w v k hp => ⟨hostTxn_write_busy ((busy_iff s).2 ⟨w, k, hp⟩) v, fun hv => ?_, fun hv => ?_, ?_⟩,
    fun s t w w' k k' hs h ht => ?_⟩
  · rw [hostTxn_write_ctrl, writeCtrl_irqEn hv]
    rfl
  · rw [hostTxn_write_ctrl, writeCtrl_softReset hv]
    exact ⟨_, rfl, rfl, rfl, statusWord_softReset s⟩
  · exact hostTxn_regWrite_reg s _ v .status rfl rfl
  · obtain ⟨hw, hk⟩ := (step_next h).keepsOperands hs ht
    exact ⟨hw, hk.srcAddr, hk.srcLen, hk.dstAddr, hk.dstCap, hk.lzCfg, hk.cursor, hk.symSel⟩

end Sys2Proof.Machine

namespace Sys2Proof.Machine

/-! ### What a command computes, apart from what it stores

A body reads its operands, computes one `Yield`, and stores it. Two states that agree on the operands read have the same yield, so
a noninterference claim is `yieldOf` unchanged and `deliver` commuting with the change. -/

/-- What a successful body computes: the count it reports, the destination bytes, the codec of HBUILD, the offset of LZMATCH. -/
structure Yield where
  count : Nat := 0
  bytes : List Byte := []
  codec : Option Codec := none
  offset : Nat := 0

/-- The yield of a text written to a symbol destination. -/
def Yield.ofText (s : State) (text : List Nat) : Yield :=
  { count := text.length, bytes := text.flatMap (leBytes s.params.sb) }

/-- The yield of a command in a state, or the error of its body. -/
def yieldOf : Instr → State → Except CmdError Yield
  | .nop, _ => .ok {}
  | .hbuild, s => (buildCodec (sourceText s)).map fun c => { codec := some c }
  | .henc, s =>
    match s.codec with
    | none => .error .noCodec
    | some c => (encodeText c (8 * s.dstCap.toNat) 0 0 (sourceText s)).map fun bits =>
        { count := bits.length, bytes := packBits bits }
  | .hdec, s =>
    match s.codec with
    | none => .error .noCodec
    | some c => (decodeBits c.dtree (symbolCapacity s) c.dtree none 0 0 (sourceBits s)).map (Yield.ofText s)
  | .hdiscard, _ => .ok {}
  | .lzc, s =>
    (writeRecords (symbolCapacity s) 0 (compress (sourceText s) (window s) (lookahead s))).map (Yield.ofText s)
  | .lzd, s => (decompress (symbolCapacity s) (sourceText s)).map (Yield.ofText s)
  | .lzmatch, s =>
    if s.srcLen.toNat ≤ s.cursor.toNat then .error (.badCursor s.cursor)
    else
      let m := longestMatch (sourceText s) (window s) (lookahead s) s.cursor.toNat
      .ok { count := m.1, offset := matchOffset s.cursor.toNat m }

/-- The state that stores a yield of a command. -/
def deliver (i : Instr) (s : State) (y : Yield) : State :=
  match i with
  | .nop => complete 0 s
  | .hbuild | .hdiscard => complete 0 { s with codec := y.codec }
  | .henc | .hdec | .lzc | .lzd => complete y.count (writeBytes s.dstAddr.toNat y.bytes s)
  | .lzmatch => complete y.count { s with matchOff := BitVec.ofNat 32 y.offset }

/-- Every body computes its yield and stores it. -/
theorem bodyOf_eq_yield (i : Instr) (s : State) : bodyOf i s = (yieldOf i s).map (deliver i s) := by
  cases i with
  | nop | hdiscard => rfl
  | hbuild =>
    simp only [bodyOf, hbuildBody, yieldOf]
    cases buildCodec (sourceText s) <;> rfl
  | henc =>
    simp only [bodyOf, hencBody, yieldOf]
    cases s.codec with
    | none => rfl
    | some c => cases h : encodeText c (8 * s.dstCap.toNat) 0 0 (sourceText s) <;> simp only [h] <;> rfl
  | hdec =>
    simp only [bodyOf, hdecBody, yieldOf]
    cases s.codec with
    | none => rfl
    | some c =>
      cases h : decodeBits c.dtree (symbolCapacity s) c.dtree none 0 0 (sourceBits s) <;> simp only [h] <;> rfl
  | lzc =>
    simp only [bodyOf, lzcBody, yieldOf]
    cases writeRecords (symbolCapacity s) 0 (compress (sourceText s) (window s) (lookahead s)) <;> rfl
  | lzd =>
    simp only [bodyOf, lzdBody, yieldOf]
    cases decompress (symbolCapacity s) (sourceText s) <;> rfl
  | lzmatch =>
    simp only [bodyOf, lzmatchBody, yieldOf]
    split <;> rfl

/-- A change `f` of the state that keeps the checks and the yield, and that no error record, draw or delivery of `i` notices,
passes through `exec i`. -/
theorem exec_of_sameYield {i : Instr} {s s' t : State} (f : State → State) (h : exec i s = .next t)
    (hc : commonError i s' = commonError i s) (hy : yieldOf i s' = yieldOf i s)
    (hr : ∀ e, recordError e s' = f (recordError e s))
    (hd : ∀ e, hasDestination i = true → recordError e (drawDestination s') = f (recordError e (drawDestination s)))
    (hs : ∀ y, deliver i s' y = f (deliver i s y)) : exec i s' = .next (f t) := by
  refine exec_map hc hr hd ?_ h
  rw [bodyOf_eq_yield, bodyOf_eq_yield, hy]
  cases yieldOf i s with
  | error e => rfl
  | ok y => exact congrArg Except.ok (hs y)

/-! ### Status and result fields (spec/10_state.md R44, R50) -/

theorem exec_withStatus {i : Instr} {s t : State} (irqEn done wbusy : Bool) (lastOp : BitVec 4) (symSel : Word)
    (phase : Phase) (pending : List HostTxn) (h : exec i s = .next t) :
    exec i { s with
      irqEn := irqEn, done := done, wbusy := wbusy, lastOp := lastOp, symSel := symSel, phase := phase, pending := pending } =
    .next { t with irqEn := irqEn, wbusy := wbusy, lastOp := lastOp, symSel := symSel, pending := pending } := by
  refine exec_of_sameYield
    (fun t => { t with irqEn := irqEn, wbusy := wbusy, lastOp := lastOp, symSel := symSel, pending := pending }) h
    (commonError_congr rfl rfl rfl rfl rfl) ?_ (fun _ => rfl) (fun _ _ => rfl) (fun _ => ?_)
  · cases i <;> rfl
  · cases i <;> rfl

/-- What a command leaves after `err`, `errCode`, `errInfo`, `resultLen` and `matchOff` were changed before it, given what it
leaves otherwise: a failure overwrites all five; a success overwrites RESULT_LEN, and LZMATCH's MATCH_OFF. -/
def withOldResult (i : Instr) (err : Bool) (code : ErrCode) (info off : Word) (t : State) : State :=
  if t.err then t
  else { t with err := err, errCode := code, errInfo := info, matchOff := if i = .lzmatch then t.matchOff else off }

theorem exec_withOldResult {i : Instr} {s t : State} (err : Bool) (code : ErrCode) (info len off : Word)
    (hs : s.err = false) (h : exec i s = .next t) :
    exec i { s with err := err, errCode := code, errInfo := info, resultLen := len, matchOff := off } =
      .next (withOldResult i err code info off t) := by
  refine exec_of_sameYield (withOldResult i err code info off) h (commonError_congr rfl rfl rfl rfl rfl) ?_
    (fun _ => rfl) (fun _ _ => rfl) (fun y => ?_)
  · cases i <;> rfl
  · have hok : (deliver i s y).err = false := by cases i <;> exact hs
    rw [withOldResult, hok]
    cases i <;> rfl

/-- Settles O34: no body's yield depends on these fields, and every completion stores the same on top of them. -/
theorem commandsIgnoreStatus : Obligations.CommandsIgnoreStatus :=
  ⟨fun _ _ _ irqEn done wbusy lastOp symSel phase pending h =>
      exec_withStatus irqEn done wbusy lastOp symSel phase pending h,
    fun _ _ _ err code info len off hs h => exec_withOldResult err code info len off hs h⟩

/-! ### Operand registers and the codec context (spec/10_state.md R32, R44) -/

theorem exec_withCursor {i : Instr} {s t : State} (v : Word) (hi : i ≠ .lzmatch) (h : exec i s = .next t) :
    exec i { s with cursor := v } = .next { t with cursor := v } := by
  refine exec_of_sameYield (fun t => { t with cursor := v }) h (commonError_congr rfl rfl rfl rfl rfl) ?_
    (fun _ => rfl) (fun _ _ => rfl) (fun _ => ?_)
  · cases i with
    | lzmatch => exact absurd rfl hi
    | _ => rfl
  · cases i <;> rfl

theorem exec_withLzCfg {i : Instr} {s t : State} (v : Word) (h1 : i ≠ .lzc) (h2 : i ≠ .lzmatch) (h : exec i s = .next t) :
    exec i { s with lzCfg := v } = .next { t with lzCfg := v } := by
  refine exec_of_sameYield (fun t => { t with lzCfg := v }) h (commonError_congr rfl rfl rfl rfl rfl) ?_
    (fun _ => rfl) (fun _ _ => rfl) (fun _ => ?_)
  · cases i with
    | lzc => exact absurd rfl h1
    | lzmatch => exact absurd rfl h2
    | _ => rfl
  · cases i <;> rfl

/-- A command without a destination region reads neither destination register. -/
theorem exec_withDestination {i : Instr} {s t : State} (v w : Word) (hi : hasDestination i = false)
    (h : exec i s = .next t) :
    exec i { s with dstAddr := v, dstCap := w } = .next { t with dstAddr := v, dstCap := w } := by
  refine exec_of_sameYield (fun t => { t with dstAddr := v, dstCap := w }) h ?_ ?_
    (fun _ => rfl) (fun _ hd => by simp [hi] at hd) (fun _ => ?_)
  all_goals
    cases i with
    | henc | hdec | lzc | lzd => cases hi
    | _ => rfl

/-- A command without a source region reads neither source register. -/
theorem exec_withSource {i : Instr} {s t : State} (v w : Word) (hi : hasSource i = false) (h : exec i s = .next t) :
    exec i { s with srcAddr := v, srcLen := w } = .next { t with srcAddr := v, srcLen := w } := by
  refine exec_of_sameYield (fun t => { t with srcAddr := v, srcLen := w }) h ?_ ?_
    (fun _ => rfl) (fun _ _ => rfl) (fun _ => ?_)
  all_goals
    cases i with
    | nop | hdiscard => rfl
    | _ => cases hi

/-- NOP and the LZ family keep the codec context and do not read it. -/
theorem exec_withCodec {i : Instr} {s t : State} (c : Option Codec) (hi : i ∈ [Instr.nop, .lzc, .lzd, .lzmatch])
    (h : exec i s = .next t) : exec i { s with codec := c } = .next { t with codec := c } := by
  refine exec_of_sameYield (fun t => { t with codec := c }) h (commonError_congr rfl rfl rfl rfl rfl) ?_
    (fun _ => rfl) (fun _ _ => rfl) (fun _ => ?_)
  all_goals
    cases i with
    | nop | lzc | lzd | lzmatch => rfl
    | _ => simp at hi

theorem exec_hdiscard (s : State) : exec .hdiscard s = .next (complete 0 { s with codec := none }) := rfl

/-- HBUILD reads no codec: a failure keeps the one it found, a success replaces it. -/
theorem exec_hbuild_withCodec {s t : State} (c : Option Codec) (hs : s.err = false) (h : exec .hbuild s = .next t) :
    exec .hbuild { s with codec := c } = .next (if t.err then { t with codec := c } else t) := by
  refine exec_of_sameYield (fun t => if t.err then { t with codec := c } else t) h
    (commonError_congr rfl rfl rfl rfl rfl) rfl (fun _ => rfl) (fun _ _ => rfl) (fun y => ?_)
  have hok : (deliver .hbuild s y).err = false := hs
  simp only [hok]
  rfl

/-- Settles O35, one lemma per operand. -/
theorem commandsReadListedOperands : Obligations.CommandsReadListedOperands := by
  refine ⟨fun _ _ _ v hi h => exec_withCursor v hi h, fun _ _ _ v h1 h2 h => exec_withLzCfg v h1 h2 h,
    fun _ _ _ v w hi h => exec_withDestination v w ?_ h, fun _ _ _ v w hi h => exec_withSource v w ?_ h,
    fun _ _ _ c hi h => exec_withCodec c hi h, fun s _ c h => ?_, fun _ _ c hs h => exec_hbuild_withCodec c hs h⟩
  · exact (by decide : ∀ i ∈ [Instr.nop, .hbuild, .hdiscard, .lzmatch], hasDestination i = false) _ hi
  · exact (by decide : ∀ i ∈ [Instr.nop, .hdiscard], hasSource i = false) _ hi
  · rw [exec_hdiscard] at h ⊢
    exact h

end Sys2Proof.Machine

namespace Sys2Proof.Machine

/-! ### Every step keeps the invariant (spec/20_memory.md R51)

`Laws/Invariant.lean` says what each operation keeps; here a transaction, the end of a command and a step follow by their
cases. -/

theorem takeTransaction_resetLine (rest : List HostTxn) (s : State) :
    (takeTransaction rest s).resetLine = s.resetLine := by
  unfold takeTransaction
  split <;> rfl

theorem memWrite_inv {s : State} (h : Inv s) {a n : Nat} (v : Nat) (hr : a + n ≤ s.params.bufSize) :
    Inv (memWrite a n v s) :=
  writeBytes_inv h (by simpa using hr)

/-- Acceptance leaves what `BusyOk` says; RESET is released, so the engine may run. -/
theorem accept_inv {s : State} (h : Inv s) (hr : s.resetLine = false) (w : Word) (k : Nat) : Inv (accept w k s) where
  memCanonical := h.memCanonical
  memInRange := h.memInRange
  lzCfgReserved := h.lzCfgReserved
  symSelReserved := h.symSelReserved
  errIffCode := by simp
  noLengthOnError he := by cases he
  noInfoOnSuccess _ := rfl
  busyOk w' k' hp := by
    cases hp
    exact ⟨rfl, rfl, rfl, rfl, rfl, rfl, fun hw => if_pos hw⟩
  codecOk c hc := by
    rw [accept_codec] at hc
    split at hc
    · cases hc
    · exact h.codecOk c hc
  quietInReset ha := by
    rw [accept_resetLine, hr] at ha
    cases ha

theorem TxnNext.inv {s t : State} {x : HostTxn} (h : TxnNext s x t) (hi : Inv s) (hr : s.resetLine = false) : Inv t := by
  cases h with
  | lzCfg v _ => exact regs_inv hi (and_mask_reserved v) hi.symSelReserved id
  | symSel v _ => exact regs_inv hi hi.lzCfgReserved (and_symSelMask_lt s.params v) id
  | status v => exact regs_inv hi hi.lzCfgReserved hi.symSelReserved (fun hd => by simp [hd])
  | softReset _ _ => exact respond_inv (softReset_inv hi) none
  | accepted w _ =>
    have hd : Inv (takeDraw s) := regs_inv hi hi.lzCfgReserved hi.symSelReserved id
    exact respond_inv (accept_inv hd hr w _) none
  | bufWrite ha _ => exact respond_inv (memWrite_inv hi _ ha.2) none
  | resetAssert => exact respond_inv (powerOnReset_inv true s) none
  | resetRelease => exact respond_inv hi none
  | _ => exact regs_inv hi hi.lzCfgReserved hi.symSelReserved id

/-- A successful body stores inside its destination region, which the common checks keep below BUF_SIZE. -/
theorem BodyFrame.memOk {i : Instr} {s t : State} (h : BodyFrame i s t) (hp : ChecksPass i s) (hi : Inv s) :
    Memory.wf t.mem ∧ ∀ c ∈ t.mem, c.1 < s.params.bufSize := by
  cases hd : hasDestination i with
  | false =>
    rw [h.noDestination hd]
    exact ⟨hi.memCanonical, hi.memInRange⟩
  | true =>
    obtain ⟨bs, hm, hlen⟩ := h.stored
    have hrange := hp.destinationInRange hd
    have hb := hlen hd
    have hw := writeBytes_inv hi (a := s.dstAddr.toNat) (bs := bs) (by omega)
    rw [hm]
    exact ⟨hw.memCanonical, hw.memInRange⟩

theorem bodyOf_codecOk {i : Instr} {s t : State} (hp : ChecksPass i s) (hb : bodyOf i s = .ok t) (hi : Inv s) :
    ∀ c, t.codec = some c → CodecOk s.params c := by
  by_cases h1 : i = .hbuild
  · subst h1
    exact hbuild_codec hp hb
  · by_cases h2 : i = .hdiscard
    · subst h2
      cases hb
      exact fun _ hc => by cases hc
    · rw [(bodyOf_frame hb).codecKept h1 h2]
      exact hi.codecOk

theorem Ends.inv {i : Instr} {s t : State} {w : Word} {k : Nat} (h : Ends i s t) (hi : Inv s)
    (hb : s.phase = .busy w k) : Inv t := by
  cases h with
  | checkFailed _ => exact recordError_inv hi _
  | succeeded hp hok hf =>
    obtain ⟨hw, hr⟩ := hf.memOk hp hi
    exact complete_inv (n := t.resultLen.toNat) hi hb (by simpa using hf.fields) hw hr (bodyOf_codecOk hp hok hi)
  | failed _ _ _ => exact recordError_inv hi _
  | failedDrawn hp _ hd => exact recordError_inv (drawDestination_inv hi (hp.destinationInRange hd)) _

/-- Settles O22, by the cases of what a step can do. -/
theorem stepKeepsInvariant : Obligations.StepKeepsInvariant := by
  intro s t hi h
  cases step_next h with
  | stays _ => exact hi
  | ignoredInReset _ _ _ => exact respond_inv (takeTransaction_inv hi _) none
  | released _ _ => exact respond_inv (powerOnReset_inv false _) none
  | host hm _ hx => exact hx.inv (takeTransaction_inv hi _) ((takeTransaction_resetLine _ s).trans hm.1)
  | illegal _ _ => exact recordError_inv hi _
  | command hm _ he =>
    obtain ⟨-, k, hb, -⟩ := hm
    exact he.inv hi hb

/-! ### What a command reads and writes (spec/20_memory.md R58) -/

/-- `t` and `t'` are what a command leaves of `s` and of `s` with the buffer `m`: they differ in the buffer alone, where the same
bytes have been stored at DST_ADDR. -/
structure EndsAlike (s : State) (m : Memory) (t t' : State) (bs : List Byte) : Prop where
  drawKept : t.memDraw = s.memDraw
  stored : t.mem = Memory.writeBytes s.mem s.dstAddr.toNat bs
  other : t' = { t with mem := Memory.writeBytes m s.dstAddr.toNat bs }

theorem EndsAlike.readByte {s t t' : State} {m : Memory} {bs : List Byte} (h : EndsAlike s m t t' bs) (a : Nat) :
    t'.readByte a = t.readByte a ∨ (t.readByte a = s.readByte a ∧ t'.readByte a = { s with mem := m }.readByte a) := by
  have ht : t.readByte a = (writeBytes s.dstAddr.toNat bs s).readByte a := by
    rw [State.readByte, h.drawKept, h.stored]
    rfl
  have ht' : t'.readByte a = (writeBytes s.dstAddr.toNat bs { s with mem := m }).readByte a := by
    rw [State.readByte, h.other, h.drawKept]
    rfl
  rw [ht, ht']
  exact readByte_writeBytes_same s m s.dstAddr.toNat bs a

/-- Whichever way a command ends, it ends the same way in two states that agree on its source region. -/
theorem exec_endsAlike {i : Instr} {s t t' : State} {m : Memory}
    (hm : ∀ a, inSource i s a = true → { s with mem := m }.readByte a = s.readByte a)
    (h : exec i s = .next t) (h' : exec i { s with mem := m } = .next t') : ∃ bs, EndsAlike s m t t' bs := by
  have hc : commonError i { s with mem := m } = commonError i s := commonError_congr rfl rfl rfl rfl rfl
  cases hce : commonError i s with
  | some e =>
    rw [exec_commonError hce] at h
    rw [exec_commonError (hc.trans hce)] at h'
    cases h
    cases h'
    exact ⟨[], rfl, rfl, rfl⟩
  | none =>
    have hp := (commonError_eq_none_iff i s).1 hce
    have hp' := (commonError_eq_none_iff i _).1 (hc.trans hce)
    rcases bodyOf_congr_mem hm with ⟨e, he, he'⟩ | ⟨u, bs, hok, hmem, hok'⟩
    · rw [exec_eq_execute, execute_error hp he] at h
      rw [exec_eq_execute, execute_error hp' he'] at h'
      cases h
      cases h'
      cases hd : hasDestination i with
      | false =>
        simp only [raise_of_no_destination hd]
        exact ⟨[], rfl, rfl, rfl⟩
      | true =>
        simp only [raise_drawn (bodyOf_error_inBody he) hd]
        exact ⟨freeBytes s.draws s.dstAddr.toNat s.dstCap.toNat, rfl, rfl, rfl⟩
    · rw [exec_ok hp hok] at h
      rw [exec_ok hp' hok'] at h'
      cases h
      cases h'
      exact ⟨bs, by rw [(bodyOf_frame hok).fields], hmem, rfl⟩

/-- Settles O28: both runs store the same bytes at the same place. -/
theorem commandReadsOnlySource : Obligations.CommandReadsOnlySource := by
  intro i s t t' m hm h h'
  obtain ⟨bs, hab⟩ := exec_endsAlike hm h h'
  exact ⟨by rw [hab.other], hab.readByte⟩

theorem Ends.readByte_outside {i : Instr} {s t : State} (h : Ends i s t) {a : Nat} (ha : inDestination i s a = false) :
    t.readByte a = s.readByte a := by
  cases h with
  | checkFailed _ => rfl
  | succeeded _ _ hf => exact hf.bytes a ha
  | failed _ _ _ => rfl
  | failedDrawn _ _ hd => exact readByte_drawDestination_outside (not_inDestination hd ha)

theorem Ends.mem_of_no_destination {i : Instr} {s t : State} (h : Ends i s t) (hd : hasDestination i = false) :
    t.mem = s.mem := by
  cases h with
  | checkFailed _ => rfl
  | succeeded _ _ hf => exact hf.noDestination hd
  | failed _ _ _ => rfl
  | failedDrawn _ _ hd' => exact absurd (hd.symm.trans hd') (by simp)

theorem Ends.mem_of_checks_fail {i : Instr} {s t : State} (h : Ends i s t) (hc : ¬ChecksPass i s) : t.mem = s.mem := by
  cases h with
  | checkFailed _ => rfl
  | succeeded hp _ _ | failed hp _ _ | failedDrawn hp _ _ => exact absurd hp hc

/-- Settles O27, by the ways a command ends. -/
theorem commandMemoryFrame : Obligations.CommandMemoryFrame := by
  intro i s t h
  have he := exec_next h
  refine ⟨fun a ha => he.readByte_outside ha, fun hi => he.mem_of_no_destination ?_, he.mem_of_checks_fail⟩
  rcases hi with rfl | rfl | rfl | rfl <;> rfl

/-! ### The buffer port (spec/20_memory.md R52, R53, R64) -/

theorem pow_byte (n : Nat) : 256 ^ n = 2 ^ (8 * n) := by rw [Nat.pow_mul]

theorem leValue_byte (bs : List Byte) (k : Nat) (h : k < bs.length) : BitVec.ofNat 8 (leValue bs / 256 ^ k) = bs[k] := by
  induction bs generalizing k with
  | nil => simp at h
  | cons b bs ih =>
    have hb := b.isLt
    cases k with
    | zero =>
      apply BitVec.eq_of_toNat_eq
      simp only [leValue, BitVec.toNat_ofNat, pow_zero, Nat.div_one, List.getElem_cons_zero]
      omega
    | succ k =>
      have hq : leValue (b :: bs) / 256 = leValue bs := by
        rw [leValue]
        omega
      rw [pow_succ', ← Nat.div_div_eq_div_mul, hq, List.getElem_cons_succ]
      exact ih k (by simpa using h)

theorem BufAccessOk.width_le {p : Params} {addr n : Nat} (h : BufAccessOk p addr n) : n ≤ 4 := by
  obtain ⟨hn, -⟩ := h
  omega

theorem memRead_lt (s : State) (a n : Nat) : memRead s a n < 2 ^ (8 * n) := by
  have h := leValue_lt (readBytes s a n)
  rwa [length_readBytes, pow_byte] at h

/-- A word holds the number read by an access of a legal width. -/
theorem memRead_word (s : State) (a : Nat) {n : Nat} (hn : n ≤ 4) :
    (BitVec.ofNat 32 (memRead s a n)).toNat = memRead s a n := by
  have hw : 2 ^ (8 * n) ≤ 2 ^ 32 := Nat.pow_le_pow_right (by decide) (by omega)
  rw [BitVec.toNat_ofNat, Nat.mod_eq_of_lt (Nat.lt_of_lt_of_le (memRead_lt s a n) hw)]

theorem memRead_byte (s : State) (a : Nat) {n k : Nat} (hn : n ≤ 4) (hk : k < n) :
    (BitVec.ofNat 32 (memRead s a n)).extractLsb' (8 * k) 8 = s.readByte (a + k) := by
  rw [← ofNat_byte, memRead_word s a hn, memRead, leValue_byte _ _ (by simpa using hk)]
  simp [readBytes]

theorem touches_eq_false {p : Nat → Bool} {addr n : Nat} (h : ∀ k, k < n → ¬p (addr + k) = true) :
    touches p addr n = false := by
  rw [← Bool.not_eq_true, touches_iff]
  exact fun ⟨k, hk, hp⟩ => h k hk hp

theorem ActiveByte.not_idle {s : State} {a : Nat} (h : ActiveByte s a) : s.phase ≠ .idle := by
  obtain ⟨w, k, i, hp, -, -⟩ := h
  simp [hp]

theorem ActiveOutputByte.not_idle {s : State} {a : Nat} (h : ActiveOutputByte s a) : s.phase ≠ .idle := by
  obtain ⟨w, k, i, hp, -, -⟩ := h
  simp [hp]

theorem hostTxn_bufRead_illegal {s : State} {addr n : Nat} (h : ¬BufAccessOk s.params addr n) :
    hostTxn (.bufRead addr n) s = .fault .badBufAccess := by
  rw [hostTxn_bufRead, if_neg (by rwa [legalBufAccess_iff])]

theorem hostTxn_bufWrite_illegal {s : State} {addr n : Nat} (v : Word) (h : ¬BufAccessOk s.params addr n) :
    hostTxn (.bufWrite addr n v) s = .fault .badBufAccess := by
  rw [hostTxn_bufWrite, if_neg (by rwa [legalBufAccess_iff])]

section
variable {s : State} {addr n : Nat} (ha : BufAccessOk s.params addr n)
include ha

/-- A read that touches no byte of a running command's destination is exact. -/
theorem hostTxn_bufRead_stored (h : ∀ k, k < n → ¬ActiveOutputByte s (addr + k)) :
    hostTxn (.bufRead addr n) s = .next { s with answer := some (BitVec.ofNat 32 (memRead s addr n)) } := by
  have ht : touches (activeDestination s) addr n = false :=
    touches_eq_false fun k hk => by rw [activeDestination_iff]; exact h k hk
  rw [hostTxn_bufRead, if_pos ((legalBufAccess_iff _ _ _).2 ha), bufRead, ht]
  rfl

/-- A read that touches a running command's destination draws the bytes there. -/
theorem hostTxn_bufRead_drawn (h : ∃ k, k < n ∧ ActiveOutputByte s (addr + k)) :
    hostTxn (.bufRead addr n) s = .next { s with
      answer := some (BitVec.ofNat 32 (leValue ((List.range n).map fun k =>
        if activeDestination s (addr + k) then Config.freeByte s.draws (addr + k) else s.readByte (addr + k)))),
      draws := s.draws + 1 } := by
  have ht : touches (activeDestination s) addr n = true := by simpa only [touches_iff, activeDestination_iff] using h
  rw [hostTxn_bufRead, if_pos ((legalBufAccess_iff _ _ _).2 ha), bufRead, ht]
  rfl

theorem hostTxn_bufWrite_stored (v : Word) (h : ∀ k, k < n → ¬ActiveByte s (addr + k)) :
    hostTxn (.bufWrite addr n v) s = .next (respond none (memWrite addr n v.toNat s)) := by
  have ht : touches (activeRegion s) addr n = false :=
    touches_eq_false fun k hk => by rw [activeRegion_iff]; exact h k hk
  rw [hostTxn_bufWrite, if_pos ((legalBufAccess_iff _ _ _).2 ha), bufWrite, ht]
  rfl

theorem hostTxn_bufWrite_active (v : Word) (h : ∃ k, k < n ∧ ActiveByte s (addr + k)) :
    hostTxn (.bufWrite addr n v) s = .fault .activeRegionWrite := by
  have ht : touches (activeRegion s) addr n = true := by simpa only [touches_iff, activeRegion_iff] using h
  rw [hostTxn_bufWrite, if_pos ((legalBufAccess_iff _ _ _).2 ha), bufWrite, ht]
  rfl

theorem hostTxn_bufRead_idle (hp : s.phase = .idle) :
    hostTxn (.bufRead addr n) s = .next { s with answer := some (BitVec.ofNat 32 (memRead s addr n)) } :=
  hostTxn_bufRead_stored ha fun _ _ hx => hx.not_idle hp

theorem hostTxn_bufWrite_idle (v : Word) (hp : s.phase = .idle) :
    hostTxn (.bufWrite addr n v) s = .next (respond none (memWrite addr n v.toNat s)) :=
  hostTxn_bufWrite_stored ha v fun _ _ hx => hx.not_idle hp

end

/-- The number read back after a write. -/
theorem memRead_bufWrite (s : State) (addr n : Nat) (v : Word) :
    memRead (respond none (memWrite addr n v.toNat s)) addr n = v.toNat % 2 ^ (8 * n) := by
  rw [← pow_byte]
  exact memRead_memWrite addr n v.toNat s

/-- Settles O23: the port of an IDLE engine touches no active region, so it reads and stores little-endian bytes. -/
theorem bufferPortReadsBack : Obligations.BufferPortReadsBack := by
  refine ⟨fun s addr n hp ha => ?_, fun s addr n v hp ha => ?_, fun s addr n v ha => ?_⟩
  · refine ⟨_, hostTxn_bufRead_idle ha hp, ?_, fun k hk => memRead_byte s addr ha.width_le hk⟩
    rw [memRead_word s addr ha.width_le]
    exact memRead_lt s addr n
  · obtain ⟨hin, hout⟩ := bufWrite_stored s addr n v
    refine ⟨_, hostTxn_bufWrite_idle ha v hp, rfl, hin, hout, ?_⟩
    rw [← memRead_bufWrite s]
    exact hostTxn_bufRead_idle ha hp
  · exact ⟨hostTxn_bufRead_illegal ha, ⟨_, hostTxn_bufWrite_illegal v ha⟩, fun _ => hostTxn_bufWrite_illegal v ha⟩

/-- Settles O24, one lemma per case of R64. -/
theorem busyBufferPort : Obligations.BusyBufferPort := by
  refine ⟨fun s addr n _ ha => ⟨fun h => ⟨_, fun k _ hk => ?_, hostTxn_bufRead_drawn ha h⟩, hostTxn_bufRead_stored ha,
    hostTxn_bufWrite_active ha, fun v h => ?_⟩, fun s addr n v _ ha => hostTxn_bufWrite_illegal v ha⟩
  · exact if_neg (by rwa [activeDestination_iff])
  · exact ⟨_, hostTxn_bufWrite_stored ha v h, rfl, memRead_bufWrite s addr n v, (bufWrite_stored s addr n v).2⟩

/-! ### Host reads have no side effect (spec/20_memory.md R57) -/

/-- The registers' values do not depend on the last answer. -/
theorem regRead_respond (off : Nat) (v : Option Word) (s : State) : regRead off (respond v s) = regRead off s := by
  unfold regRead
  cases registerAt off with
  | none => rfl
  | some r => cases r <;> rfl

theorem bufRead_respond (addr n : Nat) (v : Option Word) (s : State) :
    bufRead addr n (respond v s) = bufRead addr n s := rfl

/-- The two transactions that read. -/
def isRead : HostTxn → Bool
  | .regRead _ _ | .bufRead _ _ => true
  | .regWrite _ _ _ | .bufWrite _ _ _ | .resetAssert | .resetRelease => false

/-- A read answers, and takes a draw only while BUSY. -/
theorem TxnNext.read {s t : State} {x : HostTxn} (h : TxnNext s x t) (hx : isRead x = true) :
    ∃ v, t = respond v s ∨ (s.busy = true ∧ t = respond v (takeDraw s)) := by
  cases h with
  | regRead _ | bufRead _ => exact ⟨_, .inl rfl⟩
  | regReadDrawn _ hb | bufReadDrawn _ hb => exact ⟨_, .inr ⟨hb, rfl⟩⟩
  | _ => cases hx

/-- A read does not see the last answer. -/
theorem hostTxn_read_respond {x : HostTxn} (hx : isRead x = true) (v : Option Word) (s : State) :
    hostTxn x (respond v s) = hostTxn x s := by
  cases x with
  | regRead off width => rw [hostTxn_regRead, hostTxn_regRead, regRead_respond]
  | bufRead addr width => rw [hostTxn_bufRead, hostTxn_bufRead, bufRead_respond, respond_params]
  | _ => cases hx

theorem hostTxn_read_no_side_effect {x : HostTxn} {s t : State} (hx : isRead x = true) (h : hostTxn x s = .next t) :
    t = { s with answer := t.answer, draws := t.draws } ∧ (s.phase = .idle → hostTxn x t = .next t) := by
  obtain ⟨v, rfl | ⟨hb, rfl⟩⟩ := (hostTxn_next h).read hx
  · exact ⟨rfl, fun _ => (hostTxn_read_respond hx v s).trans h⟩
  · refine ⟨rfl, fun hp => ?_⟩
    rw [(busy_eq_false_iff s).2 hp] at hb
    cases hb

/-- Settles O25: a read only answers, and its answer does not depend on the last one. -/
theorem readsHaveNoSideEffect : Obligations.ReadsHaveNoSideEffect :=
  ⟨fun _ _ _ _ h => hostTxn_read_no_side_effect rfl h, fun _ _ _ _ h => hostTxn_read_no_side_effect rfl h⟩

/-! ### The host's turn (spec/20_memory.md R61) -/

/-- Settles O5: a moving host's oldest transaction is taken from `pending`. -/
theorem stepTakesOldestTransaction : Obligations.StepTakesOldestTransaction := by
  refine ⟨fun s x rest hr hp hq => ?_, fun s w k x rest hr hp hq => ?_, fun s hr hp hq => ?_⟩
  · rw [step_hostMoves ⟨hr, .inl hp⟩ hq, takeTransaction_idle hp]
  · rw [step_hostMoves ⟨hr, .inr ⟨w, k, hp⟩⟩ hq, takeTransaction_busy hp, Nat.add_sub_cancel]
  · simp only [step, stepWith, hr, hp, hq]

end Sys2Proof.Machine

namespace Sys2Proof.Machine

/-! ### The command word (spec/30_encoding.md R69 to R73) -/

/-- The per-command facts of `Sys2Proof.Laws.Encoding`, for any command. -/
theorem encode_spec (i : Instr) : Laws.Encoding.Statement i := by
  cases i
  case nop => exact Laws.Encoding.nop
  case hbuild => exact Laws.Encoding.hbuild
  case henc => exact Laws.Encoding.henc
  case hdec => exact Laws.Encoding.hdec
  case hdiscard => exact Laws.Encoding.hdiscard
  case lzc => exact Laws.Encoding.lzc
  case lzd => exact Laws.Encoding.lzd
  case lzmatch => exact Laws.Encoding.lzmatch

@[simp] theorem decodeWord_encode (i : Instr) : decodeWord (encode i) = .ok i := (encode_spec i).1

theorem decodeWord_eq_ok_iff (w : Word) (i : Instr) : decodeWord w = .ok i ↔ w = encode i :=
  ⟨encode_of_decode, fun h => h ▸ decodeWord_encode i⟩

/-- Settles O1: the eight words by evaluation, and exactness from both directions of the round trip. -/
theorem opcodeMapExact : Obligations.OpcodeMapExact :=
  ⟨rfl, rfl, rfl, rfl, rfl, rfl, rfl, rfl, decodeWord_eq_ok_iff⟩

/-- Settles O2, by evaluation of the decoder on the six words. -/
theorem tableWordsDecode : Obligations.TableWordsDecode := ⟨rfl, rfl, rfl, rfl, rfl, rfl⟩

/-- A command word is its two fields. -/
theorem rsvField_append_opField (w : Word) : rsvField w ++ opField w = w :=
  (BitVec.extractLsb'_append_extractLsb'_eq_extractLsb' (show 4 = 0 + 4 from rfl)).trans BitVec.extractLsb'_eq_self

/-- An opcode below 8 is the opcode of a command. -/
theorem exists_opcode_eq (op : BitVec 4) (h : op.toNat < 8) : ∃ i, opcode i = op := by
  have hmem : op ∈ [Instr.nop, .hbuild, .henc, .hdec, .hdiscard, .lzc, .lzd, .lzmatch].map opcode := by
    revert op
    decide
  obtain ⟨i, -, hi⟩ := List.mem_map.1 hmem
  exact ⟨i, hi⟩

theorem opcode_lt (i : Instr) : (opcode i).toNat < 8 := by cases i <;> decide

/-- The words of commands are those with an OP below 8 under RSV = 0. -/
theorem exists_encode_iff (w : Word) : (∃ i, w = encode i) ↔ (opField w).toNat < 8 ∧ rsvField w = 0#28 := by
  constructor
  · rintro ⟨i, rfl⟩
    obtain ⟨-, hop, hrsv, -⟩ := encode_spec i
    exact ⟨hop ▸ opcode_lt i, hrsv⟩
  · rintro ⟨hop, hrsv⟩
    obtain ⟨i, hi⟩ := exists_opcode_eq _ hop
    exact ⟨i, by rw [encode, hi, ← hrsv, rsvField_append_opField]⟩

/-- The illegal words: OP is 8 to 15 or RSV is not 0 (spec/30_encoding.md R73). -/
theorem decodeWord_eq_error_iff (w : Word) :
    (∃ r, decodeWord w = .error r) ↔ 8 ≤ (opField w).toNat ∨ rsvField w ≠ 0#28 := by
  have hsplit : (∃ r, decodeWord w = .error r) ↔ ¬∃ i, w = encode i := by
    simp only [← decodeWord_eq_ok_iff]
    cases decodeWord w <;> simp
  rw [hsplit, exists_encode_iff, not_and_or, Nat.not_lt]

theorem ne_encode_of_error {w : Word} {r : Reject} (h : decodeWord w = .error r) (i : Instr) : w ≠ encode i := by
  rintro rfl
  simp at h

/-! ### Illegal words (spec/30_encoding.md R73, spec/40_commands_common.md R83, R92) -/

/-- An IDLE engine accepts every word written to CMD. -/
theorem hostTxn_write_cmd_idle {s : State} (hp : s.phase = .idle) (w : Word) :
    hostTxn (.regWrite 0x010 4 w) s = .next (respond none (accept w (Config.freeWait s.draws) (takeDraw s))) := by
  rw [hostTxn_regWrite_reg s 0x010 w .cmd rfl rfl, writeReg, cmdWrite, (busy_eq_false_iff s).2 hp, if_neg Bool.false_ne_true]

/-- The acceptance of a word other than HBUILD's keeps the codec. -/
theorem accept_of_ne_hbuild {w : Word} (h : w ≠ encode .hbuild) (k : Nat) (s : State) :
    accept w k s = { s with
      done := false, err := false, errCode := .none, lastOp := opField w,
      resultLen := 0#32, matchOff := 0#32, errInfo := 0#32, phase := .busy w k } := by
  rw [accept, if_neg h]

theorem step_illegal {s : State} {w : Word} {r : Reject} (hm : EngineMoves s w) (hd : decodeWord w = .error r) :
    step s = .next (recordError (.illegalCmd w) s) := by
  rw [step_engineMoves hm, completionStep, hd, execIllegal]

/-- Settles O3: an illegal word is no HBUILD, so its acceptance keeps the codec, and its completion only records the error. -/
theorem illegalWordsComplete : Obligations.IllegalWordsComplete := by
  refine ⟨decodeWord_eq_error_iff, fun w s hw hp => ?_, fun w s hw hm => ?_⟩
  all_goals obtain ⟨r, hd⟩ := (decodeWord_eq_error_iff w).2 hw
  · refine ⟨Config.freeWait s.draws, ?_⟩
    rw [hostTxn_write_cmd_idle hp, accept_of_ne_hbuild (ne_encode_of_error hd _)]
    rfl
  · exact step_illegal hm hd

/-! ### Decimal numbers (spec/30_encoding.md R77) -/

theorem isDigit_eq_false_iff (x : Nat) : isDigit x = false ↔ x < 0x30 ∨ 0x39 < x := by
  rw [← Bool.not_eq_true, isDigit_iff]
  omega

/-- What a parsed number leaves does not begin with a digit. -/
theorem parseNumber_rest {s rest : List Nat} {v : Nat} (h : parseNumber s = some (v, rest)) :
    ∀ x ∈ rest.head?, isDigit x = false := by
  simp only [parseNumber] at h
  split_ifs at h
  cases h
  intro x hx
  have hhead := List.head?_dropWhile_not isDigit s
  rwa [Option.mem_def.1 hx] at hhead

/-- Settles O53: `decimal` gives a shortest number, and `parseNumber` takes the whole digit string at the head. -/
theorem decimalNumbers : Obligations.DecimalNumbers := by
  refine ⟨fun n hn => ⟨decimal_isNumber hn, fun ds => IsNumber.length_le⟩, fun ds v x rest hds hx => ?_,
    fun s v rest h => ?_⟩
  · exact parseNumber_isNumber hds ((isDigit_eq_false_iff x).2 hx) rest
  · obtain ⟨ds, hds, hs⟩ := parseNumber_inv h
    exact ⟨ds, hds, hs, fun x hx => (isDigit_eq_false_iff x).1 (parseNumber_rest h x hx)⟩

end Sys2Proof.Machine

namespace Sys2Proof.Machine

/-! ### The register port, one lemma per kind of access (spec/40_commands_common.md R81, R82) -/

/-- A read of a register whose value is exact at all times. -/
theorem hostTxn_regRead_exact (s : State) {off : Nat} (r : Reg) (hl : legalRegAccess off 4 = true)
    (h : registerAt off = some r) (hr : openWhileBusy r = false) :
    hostTxn (.regRead off 4) s = .next { s with answer := some (regValue s r) } := by
  rw [hostTxn_regRead, if_pos hl]
  simp [regRead, h, hr, respond]

/-- A read of a result or query register while BUSY takes a draw. -/
theorem hostTxn_regRead_drawn {s : State} (hb : s.busy = true) {off : Nat} {r : Reg} (hl : legalRegAccess off 4 = true)
    (h : registerAt off = some r) (hr : openWhileBusy r = true) :
    hostTxn (.regRead off 4) s = .next { s with answer := some (Config.freeWord s.draws), draws := s.draws + 1 } := by
  rw [hostTxn_regRead, if_pos hl]
  simp [regRead, h, hr, hb, respond, takeDraw]

theorem legalRegAccess_word {off : Nat} (h : off < 0x100) (ha : off % 4 = 0) : legalRegAccess off 4 = true :=
  (legalRegAccess_iff off 4).2 ⟨rfl, ha, h⟩

theorem hostTxn_regRead_reserved (s : State) {off : Nat} (h : 0x054 ≤ off) (hl : legalRegAccess off 4 = true) :
    hostTxn (.regRead off 4) s = .next { s with answer := some 0#32 } := by
  rw [hostTxn_regRead, if_pos hl, regRead, registerAt_reserved h]
  rfl

theorem hostTxn_regWrite_reserved (s : State) (v : Word) {off : Nat} (h : 0x054 ≤ off)
    (hl : legalRegAccess off 4 = true) : hostTxn (.regWrite off 4 v) s = .next { s with answer := none } := by
  rw [hostTxn_regWrite, if_pos hl, regWrite, registerAt_reserved h]
  rfl

/-- A register write answers what `writeReg` stores. -/
theorem hostTxn_regWrite_stores {s t : State} {off : Nat} {v : Word} (r : Reg) (hl : legalRegAccess off 4 = true)
    (ha : registerAt off = some r) (h : writeReg r v s = t) :
    hostTxn (.regWrite off 4 v) s = .next { t with answer := none } := by
  rw [hostTxn_regWrite_reg s off v r hl ha, h]
  rfl

/-- The offsets 0x030 to 0x050 are those of the registers whose value is open while BUSY. -/
theorem registerAt_openWhileBusy {off : Nat} (h1 : 0x030 ≤ off) (h2 : off ≤ 0x050) (ha : off % 4 = 0) :
    ∃ r, registerAt off = some r ∧ openWhileBusy r = true := by
  have hall : ∀ off ≤ 0x050, 0x030 ≤ off → off % 4 = 0 → (registerAt off).any openWhileBusy = true := by decide
  exact (Option.any_eq_true _ _).1 (hall off h2 h1 ha)

/-! ### The words of CTRL and STATUS (spec/10_state.md R24, R25) -/

theorem ctrlWord_eq (s : State) : ctrlWord s = if s.irqEn then 1#32 else 0#32 := by
  unfold ctrlWord
  cases s.irqEn <;> rfl

theorem toNat_busy (s : State) : s.busy.toNat = if s.phase = .idle then 0 else 1 := by
  unfold State.busy
  cases s.phase <;> rfl

theorem toNat_codecValid_mul (s : State) (k : Nat) : s.codecValid.toNat * k = if s.codec = none then 0 else k := by
  unfold State.codecValid
  cases s.codec <;> simp

theorem toNat_mul_eq_ite (b : Bool) (k : Nat) : b.toNat * k = if b then k else 0 := by
  cases b <;> simp

theorem statusWord_eq (s : State) : statusWord s = BitVec.ofNat 32
    ((if s.phase = .idle then 0 else 1) + (if s.done then 0x2 else 0) + (if s.err then 0x4 else 0)
      + (if s.codec = none then 0 else 0x8) + (if s.wbusy then 0x10 else 0)
      + s.errCode.value.toNat * 0x100 + s.lastOp.toNat * 0x1000) := by
  rw [statusWord, toNat_busy, toNat_codecValid_mul]
  simp only [toNat_mul_eq_ite]

/-- Settles O10: exact reads through `regValue`, reserved offsets read 0, and open registers draw while BUSY. -/
theorem registerReads : Obligations.RegisterReads := by
  refine ⟨by decide, fun s => ⟨hostTxn_regRead_exact s .id rfl rfl rfl, hostTxn_regRead_exact s .param rfl rfl rfl, ?_, ?_,
    hostTxn_regRead_exact s .cmd rfl rfl rfl, hostTxn_regRead_exact s .srcAddr rfl rfl rfl,
    hostTxn_regRead_exact s .srcLen rfl rfl rfl, hostTxn_regRead_exact s .dstAddr rfl rfl rfl,
    hostTxn_regRead_exact s .dstCap rfl rfl rfl, hostTxn_regRead_exact s .lzCfg rfl rfl rfl,
    hostTxn_regRead_exact s .cursor rfl rfl rfl, hostTxn_regRead_exact s .symSel rfl rfl rfl,
    fun off h1 h2 ha => hostTxn_regRead_reserved s h1 (legalRegAccess_word h2 ha),
    fun hp => ⟨hostTxn_regRead_idle s hp _ .resultLen rfl rfl, hostTxn_regRead_idle s hp _ .matchOff rfl rfl,
      hostTxn_regRead_idle s hp _ .errInfo rfl rfl⟩,
    fun hp off h1 h2 ha => ?_⟩⟩
  · rw [← ctrlWord_eq]
    exact hostTxn_regRead_exact s .ctrl rfl rfl rfl
  · rw [← statusWord_eq]
    exact hostTxn_regRead_exact s .status rfl rfl rfl
  · obtain ⟨r, hr, ho⟩ := registerAt_openWhileBusy h1 h2 ha
    have hb : s.busy = true := by rwa [← Bool.not_eq_false, busy_eq_false_iff]
    exact ⟨_, hostTxn_regRead_drawn hb (legalRegAccess_word (by omega) ha) hr ho⟩

/-! ### Register writes (spec/40_commands_common.md R82) -/

theorem writeStatus_eq (v : Word) (s : State) : writeStatus v s = { s with
    done := if v.getLsbD 1 then false else s.done, wbusy := if v.getLsbD 4 then false else s.wbusy } := by
  unfold writeStatus
  cases v.getLsbD 1 <;> cases v.getLsbD 4 <;> simp

/-- The registers that ignore every write. -/
def readOnlyRegs : List Reg :=
  [.id, .param, .resultLen, .matchOff, .errInfo, .alphabet, .codecLen, .qFreq, .qCodeLen, .qCodeLo, .qCodeHi]

theorem writeReg_readOnly (v : Word) (s : State) : ∀ r ∈ readOnlyRegs, writeReg r v s = s := by
  simp [readOnlyRegs, writeReg]

theorem hostTxn_write_readOnly (s : State) (v : Word) :
    ∀ off ∈ [0x000, 0x004, 0x030, 0x034, 0x038, 0x03C, 0x040, 0x044, 0x048, 0x04C, 0x050],
      hostTxn (.regWrite off 4 v) s = .next { s with answer := none } := by
  intro off hoff
  obtain ⟨r, hr, hl, ha⟩ : ∃ r ∈ readOnlyRegs, legalRegAccess off 4 = true ∧ registerAt off = some r := by
    revert off
    decide
  exact hostTxn_regWrite_stores r hl ha (writeReg_readOnly v s r hr)

/-- A write to an operand register of an engine that is not BUSY. -/
theorem writeReg_operand {s : State} (hb : s.busy = false) (v : Word) :
    writeReg .srcAddr v s = { s with srcAddr := v } ∧ writeReg .srcLen v s = { s with srcLen := v } ∧
    writeReg .dstAddr v s = { s with dstAddr := v } ∧ writeReg .dstCap v s = { s with dstCap := v } ∧
    writeReg .lzCfg v s = { s with lzCfg := v &&& 0x00FFFFFF#32 } ∧ writeReg .cursor v s = { s with cursor := v } ∧
    writeReg .symSel v s = { s with symSel := BitVec.ofNat 32 (v.toNat % s.params.alphabetMax) } := by
  simp [writeReg, hb, and_symSelMask]

/-- Settles O13, one lemma per kind of register. -/
theorem registerWrites : Obligations.RegisterWrites := by
  refine fun s v => ⟨fun hv => hostTxn_regWrite_stores .ctrl rfl rfl (writeCtrl_irqEn hv s),
    hostTxn_regWrite_stores .status rfl rfl (writeStatus_eq v s), hostTxn_write_readOnly s v,
    fun off h1 h2 ha => hostTxn_regWrite_reserved s v h1 (legalRegAccess_word h2 ha), fun hp => ?_⟩
  obtain ⟨hsa, hsl, hda, hdc, hlz, hcu, hsy⟩ := writeReg_operand ((busy_eq_false_iff s).2 hp) v
  exact ⟨hostTxn_regWrite_stores .srcAddr rfl rfl hsa, hostTxn_regWrite_stores .srcLen rfl rfl hsl,
    hostTxn_regWrite_stores .dstAddr rfl rfl hda, hostTxn_regWrite_stores .dstCap rfl rfl hdc,
    hostTxn_regWrite_stores .lzCfg rfl rfl hlz, hostTxn_regWrite_stores .cursor rfl rfl hcu,
    hostTxn_regWrite_stores .symSel rfl rfl hsy⟩

/-- Settles O14: a write to CMD is lost like any operand write while BUSY, and is an acceptance while IDLE. -/
theorem commandAcceptance : Obligations.CommandAcceptance :=
  ⟨fun s w v k hp => hostTxn_write_busy ((busy_iff s).2 ⟨w, k, hp⟩) v _ (by decide),
    fun s w hp => ⟨Config.freeWait s.draws, hostTxn_write_cmd_idle hp w⟩⟩

/-! ### The common checks, each by the code it raises (spec/40_commands_common.md R87 to R89) -/

/-- The common check that raises a code; none for the other codes. -/
def checkOf : ErrCode → Instr → State → Option CmdError
  | .misaligned => checkAlign
  | .addrRange => checkRange
  | .overlap => checkOverlap
  | _ => fun _ _ => none

theorem checkOf_of_checkAlign {i : Instr} {s : State} {e : CmdError} (h : checkAlign i s = some e) :
    checkOf e.code i s = some e := by
  have hc : e.code = .misaligned := by
    unfold checkAlign at h
    split_ifs at h <;> cases h <;> rfl
  rwa [hc]

theorem checkOf_of_checkRange {i : Instr} {s : State} {e : CmdError} (h : checkRange i s = some e) :
    checkOf e.code i s = some e := by
  have hc : e.code = .addrRange := by
    unfold checkRange at h
    split_ifs at h <;> cases h <;> rfl
  rwa [hc]

theorem checkOverlap_error {i : Instr} {s : State} {e : CmdError} (h : checkOverlap i s = some e) : e = .overlap := by
  unfold checkOverlap at h
  split_ifs at h
  cases h
  rfl

/-- The common error is the error of the check that raises its code. -/
theorem checkOf_of_commonError {i : Instr} {s : State} {e : CmdError} (h : commonError i s = some e) :
    checkOf e.code i s = some e := by
  unfold commonError at h
  split at h
  · rename_i ha
    cases h
    exact checkOf_of_checkAlign ha
  · split at h
    · rename_i hr
      cases h
      exact checkOf_of_checkRange hr
    · obtain rfl := checkOverlap_error h
      exact h

/-- A command whose check for a code passes does not raise that code. -/
theorem errCode_ne_of_checkOf {i : Instr} {s t : State} {c : ErrCode} (hc : c ∈ [ErrCode.misaligned, .addrRange, .overlap])
    (hp : checkOf c i s = none) (hs : s.errCode ≠ c) (h : exec i s = .next t) : t.errCode ≠ c := by
  have hbody : ∀ e, bodyOf i s = .error e → e.code ≠ c := by
    rintro e hb rfl
    refine bodyError_code (bodyOf_error_inBody hb) ?_
    simp only [List.mem_cons] at hc ⊢
    exact .inr (.inr hc)
  cases exec_next h with
  | checkFailed he =>
    rintro rfl
    rw [recordError_errCode, checkOf_of_commonError he] at hp
    cases hp
  | succeeded _ _ hf =>
    rw [hf.fields]
    exact hs
  | failed _ hb _ | failedDrawn _ hb _ => exact hbody _ hb

theorem commonError_of_checkAlign {i : Instr} {s : State} {e : CmdError} (h : checkAlign i s = some e) :
    commonError i s = some e := by
  simp only [commonError, h]

theorem commonError_of_checkRange {i : Instr} {s : State} {e : CmdError} (ha : checkAlign i s = none)
    (h : checkRange i s = some e) : commonError i s = some e := by
  simp only [commonError, ha, h]

theorem commonError_eq_checkOverlap {i : Instr} {s : State} (ha : checkAlign i s = none) (hr : checkRange i s = none) :
    commonError i s = checkOverlap i s := by
  simp only [commonError, ha, hr]

/-- Settles O31: CheckAlign is the first check and the only one that raises MISALIGNED. -/
theorem misalignedOperands : Obligations.MisalignedOperands := by
  refine ⟨fun i s hi hm => ?_, fun i s ha hi hm => ?_, fun i s t hsb hs h => ?_, fun i => ?_, fun i => ?_⟩
  · exact exec_commonError (commonError_of_checkAlign (e := .misaligned .source) (by simp [checkAlign, hi, hm]))
  · refine exec_commonError (commonError_of_checkAlign (e := .misaligned .destination) ?_)
    have hsrc : ¬(symbolSource i = true ∧ s.srcAddr.toNat % s.params.sb ≠ 0) := fun hx => hx.2 (ha hx.1)
    simp [checkAlign, hsrc, hi, hm]
  · have hp : checkAlign i s = none := by simp [checkAlign_eq_none_iff, hsb, Nat.mod_one]
    exact errCode_ne_of_checkOf (by decide) hp hs h
  · cases i <;> decide
  · cases i <;> decide

/-- Settles O32: with CheckAlign passed CheckRange decides, and only it raises ADDR_RANGE. -/
theorem regionsOutOfRange : Obligations.RegionsOutOfRange := by
  refine ⟨fun i s hsa hda => ?_, fun i s t hsr hdr hs h => ?_, fun i => ?_, fun i => ?_,
    fun s => ⟨rfl, ?_⟩⟩
  · have ha := (checkAlign_eq_none_iff i s).2 ⟨hsa, hda⟩
    refine ⟨fun hi hr => ?_, fun hsr hi hr => ?_⟩
    · exact exec_commonError (commonError_of_checkRange (e := .addrRange .source) ha (by simp [checkRange, hi, hr]))
    · refine exec_commonError (commonError_of_checkRange (e := .addrRange .destination) ha ?_)
      have hsrc : ¬(hasSource i = true ∧ s.params.bufSize < s.srcAddr.toNat + sourceBytes i s) :=
        fun hx => absurd hx.2 (Nat.not_lt.2 (hsr hx.1))
      simp [checkRange, hsrc, hi, hr]
  · exact errCode_ne_of_checkOf (by decide) ((checkRange_eq_none_iff i s).2 ⟨hsr, hdr⟩) hs h
  · cases i <;> decide
  · cases i <;> decide
  · simp [sourceBytes]

/-- CheckOverlap passes exactly when no byte is in both regions. -/
theorem checkOverlap_eq_none_iff_disjoint (i : Instr) (s : State) :
    checkOverlap i s = none ↔ ¬∃ a, inSource i s a = true ∧ inDestination i s a = true := by
  simp only [checkOverlap_eq_none_iff, inSource_eq_true, inDestination_eq_true]
  constructor
  · rintro h ⟨a, ⟨hs, hs1, hs2⟩, hd, hd1, hd2⟩
    have := h hs hd
    omega
  · intro h hs hd
    by_contra hc
    exact h ⟨max s.srcAddr.toNat s.dstAddr.toNat, ⟨hs, by omega, by omega⟩, hd, by omega, by omega⟩

/-- Settles O33: with the earlier checks passed CheckOverlap decides, and it fails exactly on a shared byte. -/
theorem overlappingRegions : Obligations.OverlappingRegions := by
  refine ⟨fun i s _ _ hsa hda hsr hdr hx => ?_, fun i s t hx hs h => ?_, fun _ _ _ => inSource_eq_true,
    fun _ _ _ => inDestination_eq_true⟩
  · have ha := (checkAlign_eq_none_iff i s).2 ⟨hsa, hda⟩
    have hr := (checkRange_eq_none_iff i s).2 ⟨fun _ => hsr, fun _ => hdr⟩
    have ho : checkOverlap i s ≠ none := fun hn => (checkOverlap_eq_none_iff_disjoint i s).1 hn hx
    obtain ⟨e, he⟩ := Option.ne_none_iff_exists'.1 ho
    obtain rfl := checkOverlap_error he
    exact exec_commonError ((commonError_eq_checkOverlap ha hr).trans he)
  · exact errCode_ne_of_checkOf (by decide) ((checkOverlap_eq_none_iff_disjoint i s).2 hx) hs h

/-! ### Running a command word (spec/40_commands_common.md R84, R91) -/

/-- Settles O4, by the completion step of an engine that moves. -/
theorem stepRunsDecodedCommand : Obligations.StepRunsDecodedCommand := by
  intro s w i hm hd
  rw [step_engineMoves hm, completionStep, hd]

theorem withFetchWord_toNat (s : State) (w : Word) : s.withFetchWord 32 w.toNat = presentWord w s := by
  rw [State.withFetchWord, Nat.mod_eq_of_lt w.isLt, BitVec.ofNat_toNat, BitVec.setWidth_eq]

theorem presentWord_engineMoves (w : Word) (s : State) : EngineMoves (presentWord w s) w := ⟨rfl, 0, rfl, .inl rfl⟩

/-- Settles O6: a presented word is a moving engine's word, and presenting is an acceptance. -/
theorem presentedWordRunsNext : Obligations.PresentedWordRunsNext := by
  intro s i
  rw [withFetchWord_toNat]
  exact ⟨stepRunsDecodedCommand _ _ i (presentWord_engineMoves _ s) (decodeWord_encode i), rfl, rfl, rfl, rfl, rfl⟩

theorem exec_nop (s : State) : exec .nop s = .next (complete 0 s) := rfl

theorem decodeWord_nop : decodeWord 0x00000000#32 = .ok .nop := rfl

/-- A run goes on from the state its first step answers. -/
theorem run_succ {M : Host.Core} {s t : M.State} (h : M.step s = .next t) (n : Nat) : M.run (n + 1) s = M.run n t := by
  rw [Host.Core.run, h]

theorem core_run_succ {s t : State} (h : step s = .next t) (n : Nat) :
    Sys2Proof.core.run (n + 1) s = Sys2Proof.core.run n t :=
  run_succ (M := Sys2Proof.core) (s := s) (t := t) h n

/-- The step of an IDLE engine whose host writes CMD next. -/
theorem step_write_cmd {s : State} {w : Word} {rest : List HostTxn} (hr : s.resetLine = false) (hp : s.phase = .idle)
    (hq : s.pending = .regWrite 0x010 4 w :: rest) :
    step s = .next (respond none (accept w (Config.freeWait s.draws) (takeDraw { s with pending := rest }))) := by
  rw [step_hostMoves ⟨hr, .inl hp⟩ hq, takeTransaction_idle hp]
  exact hostTxn_write_cmd_idle (s := { s with pending := rest }) hp w

/-- The completion of NOP when nothing is pending, however much of the wait is left. -/
theorem step_nop {s : State} {k : Nat} (hr : s.resetLine = false) (hp : s.phase = .busy 0x00000000#32 k)
    (hq : s.pending = []) : step s = .next (complete 0 s) :=
  stepRunsDecodedCommand s _ .nop ⟨hr, k, hp, .inr hq⟩ decodeWord_nop

/-- Settles O36: NOP passes every check, and its run from reset is the acceptance and the completion. -/
theorem nopCompletes : Obligations.NopCompletes := by
  refine ⟨decodeWord_nop, exec_nop, fun s k => ?_, ?_⟩
  · rw [accept_of_ne_hbuild (by decide), exec_nop]
    rfl
  · have hacc := step_write_cmd (s := { State.reset with pending := [.regWrite 0x010 4 0x00000000#32] }) rfl rfl rfl
    exact ⟨_, (core_run_succ hacc 1).trans (core_run_succ (step_nop rfl rfl rfl) 0), rfl, rfl⟩

end Sys2Proof.Machine

namespace Sys2Proof.Machine

/-! ### The frequency table and the tree builder (spec/41_huffman.md R96 to R98, R104) -/

/-- Settles O37, from what the scan keeps of the table. -/
theorem frequencyTableCounts : Obligations.FrequencyTableCounts := by
  refine fun text => ⟨freqOf_frequencies text, frequencies_sum text, fun x => ?_, frequencies_rising text⟩
  rw [← mem_frequencies_iff]
  exact exists_congr fun f => (and_iff_right_of_imp fun h => frequencies_positive text _ h).symm

/-- Settles O38, one clause per lemma about the collection. -/
theorem builderTakesLeastKeys : Obligations.BuilderTakesLeastKeys :=
  ⟨fun _ => rfl, fun _ => rfl, fun freq => ⟨leafQueue_perm freq, leafQueue_sorted freq⟩,
    fun z q h => ⟨insertNode_perm z q, insertNode_sorted z h⟩, fun _ _ _ _ _ => rfl,
    fun fuel _ _ => by cases fuel <;> rfl, Key.less_iff⟩

theorem length_leafQueue (freq : List (Nat × Nat)) : (leafQueue freq).length = freq.length := by
  simpa using (leafQueue_perm freq).length_eq

/-- The builder's fuel is enough for every table, whatever its counts. -/
theorem exists_buildTree {freq : List (Nat × Nat)} (hne : freq ≠ []) : ∃ t, buildTree freq = some t := by
  have hlen := length_leafQueue freq
  have hq : leafQueue freq ≠ [] := List.ne_nil_of_length_pos (hlen ▸ List.length_pos_iff.2 hne)
  obtain ⟨-, x, hx, -⟩ := mergeAll_induct (fuel := freq.length) (j := 0) (motive := fun _ _ => True)
    (fun _ _ _ _ _ => trivial) trivial hq (by omega)
  exact ⟨x.tree, hx⟩

theorem buildTree_merges {freq : List (Nat × Nat)} {t : DTree} (hr : Rising freq) (ht : buildTree freq = some t) :
    Merges 0 (freq.map leafNode) t :=
  (mergeAll_merges ht (leafQueue_sorted freq) (keysOk_leaves hr)).perm (leafQueue_perm freq)

/-- Settles O58: the merge loop follows the merge rule, and the rule gives one tree. -/
theorem treeFollowsMergeRule : Obligations.TreeFollowsMergeRule := by
  intro freq hne hr
  obtain ⟨t, ht⟩ := exists_buildTree hne
  have hm := buildTree_merges hr ht
  exact ⟨t, ht, hm, fun _ h => Merges.unique h hm (List.Perm.refl _)⟩

/-! ### The codec of a text (spec/41_huffman.md R99 to R102, R105) -/

/-- The tree of a text is a Huffman tree over its frequency table. -/
theorem tree_of_text {text : List Nat} {t : DTree} (ht : buildTree (frequencies text) = some t) :
    t.proper ∧ t.leaves.Perm (frequencies text) := by
  have hp := frequencies_positive text
  have hne : frequencies text ≠ [] := fun h0 => by simp [(buildTree_eq_none_iff hp).2 h0] at ht
  obtain ⟨t', ht', h⟩ := buildTree_spec hne hp
  obtain rfl : t' = t := by simpa [ht'] using ht
  exact h

/-- The codec of a text whose frequencies have the tree `t`. -/
def codecOfTree (text : List Nat) (t : DTree) : Codec where
  freq := frequencies text
  dtree := decodeTree t
  code := deriveCodes (decodeTree t) []
  distinct := (frequencies text).length
  total := text.length

section
variable {text : List Nat} {t : DTree} (ht : buildTree (frequencies text) = some t)
include ht

theorem buildCodec_of_tooLong {x : Nat}
    (h : tooLongSymbol (frequencies text) (deriveCodes (decodeTree t) []) = some x) :
    buildCodec text = .error (.codeTooLong x) := by
  simp only [buildCodec, ht, h]

theorem buildCodec_of_noneTooLong (h : tooLongSymbol (frequencies text) (deriveCodes (decodeTree t) []) = none) :
    buildCodec text = .ok (codecOfTree text t) := by
  simp only [buildCodec, ht, h, codecOfTree]

/-- With no code above 64 bits the text has a codec. -/
theorem buildCodec_of_short (h : ∀ e ∈ deriveCodes (decodeTree t) [], e.2.length ≤ 64) :
    buildCodec text = .ok (codecOfTree text t) :=
  buildCodec_of_noneTooLong ht
    ((tooLongSymbol_eq_none_iff (keys_of_perm (tree_of_text ht).2) (Rising.nodup (frequencies_rising text))).2 h)

end

/-- Settles O40: one symbol has one code, and no entry of the table begins another. -/
theorem codesArePrefixFree : Obligations.CodesArePrefixFree := by
  refine ⟨fun text c hc x hx y hy hne hpre => hne ?_, fun s c hi hc x y hx hy hne hpre => hne ?_⟩
  · exact congrArg Prod.fst
      ((buildCodec_keepsInvariants hc).noCodeBeginsAnother _ (built_code_mem hc hx) _ (built_code_mem hc hy) hpre)
  · have hok := hi.codecOk c hc
    exact congrArg Prod.fst (hok.keepsInvariants.noCodeBeginsAnother _ (hok.code_mem hx) _ (hok.code_mem hy) hpre)

theorem frequencies_replicate (x n : Nat) : frequencies (List.replicate (n + 1) x) = [(x, n + 1)] := by
  induction n with
  | zero => rfl
  | succ n ih =>
    rw [List.replicate_succ', frequencies, List.foldl_concat, ← frequencies, ih]
    simp [bump]

/-- Settles O42: the table has one key, so the tree is one leaf, below the virtual root. -/
theorem singleSymbolGetsCodeZero : Obligations.SingleSymbolGetsCodeZero := by
  intro x n
  have ht : buildTree (frequencies (List.replicate (n + 1) x)) = some (.leaf x (n + 1)) := by
    rw [frequencies_replicate]
    rfl
  rw [buildCodec_of_short ht (by simp [decodeTree, deriveCodes]), codecOfTree, frequencies_replicate, List.length_replicate]
  rfl

/-! ### Optimality (spec/41_huffman.md R103) -/

theorem DTree.proper.leaves_length_pos {t : DTree} (h : t.proper) : 0 < t.leaves.length := by
  have hw := h.one_le_weight
  rw [h.weight_eq] at hw
  refine List.length_pos_iff.2 fun h0 => ?_
  simp [h0] at hw

/-- A Huffman tree is one leaf, or a node with two leaves or more. -/
theorem DTree.proper.leaf_or_node {t : DTree} (h : t.proper) :
    (∃ s f, t = .leaf s f) ∨ ∃ l r f, t = .node l r f ∧ 2 ≤ t.leaves.length := by
  cases t with
  | leaf s f => exact .inl ⟨s, f, rfl⟩
  | node l r f =>
    obtain ⟨-, hl, hr⟩ := h
    have h1 := hl.leaves_length_pos
    have h2 := hr.leaves_length_pos
    refine .inr ⟨l, r, f, rfl, ?_⟩
    rw [DTree.leaves, List.length_append]
    omega
  | lone => exact h.elim

theorem depthCost_leaves (freq : List (Nat × Nat)) (g : Nat → Bits) :
    depthCost (freq.map fun e => (leafNode e, (g e.1).length)) = codeCost freq g := by
  simp [depthCost, codeCost, leafNode, DTree.pathCost, Function.comp_def]

/-- Bitstrings of a table's keys, none the beginning of another, meet Kraft's inequality. -/
theorem kraft_le_one_of_keys {freq : List (Nat × Nat)} {g : Nat → Bits} (hr : Rising freq)
    (hg : ∀ d ∈ freq, ∀ e ∈ freq, d.1 ≠ e.1 → ¬(g d.1 <+: g e.1)) :
    kraft (freq.map fun e => (g e.1).length) ≤ 1 := by
  have hk := kraft_le_one ((freq.map fun e => (g e.1).length).sum) (freq.map fun e => g e.1) (fun w hw => ?_) ?_
  · simpa [Function.comp_def] using hk
  · obtain ⟨e, he, rfl⟩ := List.mem_map.1 hw
    exact List.le_sum_of_mem (List.mem_map.2 ⟨e, he, rfl⟩)
  · refine List.pairwise_map.2 (hr.imp_of_mem fun hd he hlt => ?_)
    exact ⟨hg _ hd _ he hlt.ne, hg _ he _ hd hlt.ne'⟩

/-- The builder's tree costs no more than any bitstrings of its keys of which none begins another. -/
theorem buildTree_optimal {freq : List (Nat × Nat)} {t : DTree} {g : Nat → Bits} (ht : buildTree freq = some t)
    (hr : Rising freq) (hg : ∀ d ∈ freq, ∀ e ∈ freq, d.1 ≠ e.1 → ¬(g d.1 <+: g e.1)) :
    t.pathCost ≤ codeCost freq g := by
  rw [← depthCost_leaves]
  refine mergeAll_optimal ht (leafQueue_sorted freq) _ ?_ ?_
  · simpa [Function.comp_def] using (leafQueue_perm freq).symm
  · simpa [Function.comp_def] using kraft_le_one_of_keys hr hg

/-- The code of a table with two keys or more costs what its tree does. -/
theorem codeCost_node {freq : List (Nat × Nat)} {l r : DTree} {f : Nat} (hr : Rising freq)
    (hprop : (DTree.node l r f).proper) (hperm : (DTree.node l r f).leaves.Perm freq) :
    codeCost freq (codeOf (deriveCodes (decodeTree (.node l r f)) [])) = (DTree.node l r f).pathCost := by
  rw [decodeTree, codeCost_eq hperm hr _ rfl, pathCost_eq _ hprop]

/-- The code of a single key costs one bit per occurrence. -/
theorem codeCost_leaf (x f : Nat) : codeCost [(x, f)] (codeOf (deriveCodes (decodeTree (.leaf x f)) [])) = f := by
  simp [codeCost, codeOf, decodeTree, deriveCodes]

/-- Settles O41: a leaf is the tree of one key, and a node's code costs what the tree does. -/
theorem codeIsOptimal : Obligations.CodeIsOptimal := by
  intro text c hc
  obtain ⟨t, ht, hprop, hperm, -, rfl⟩ := buildCodec_structure hc
  have hlen := hperm.length_eq
  obtain ⟨x, f, rfl⟩ | ⟨l, r, f, rfl, h2⟩ := hprop.leaf_or_node
  · have hfreq : frequencies text = [(x, f)] := (List.singleton_perm.1 hperm).symm
    refine ⟨fun _ h2 _ => absurd h2 (by simp [hfreq]), fun _ => ?_⟩
    rw [← frequencies_sum, hfreq, codeCost_leaf]
    simp
  · refine ⟨fun g _ hg => ?_, fun h1 => absurd h1 (by simp only; omega)⟩
    have hr := frequencies_rising text
    have hkey : ∀ e ∈ frequencies text, e.1 ∈ text := fun e he => (mem_frequencies_iff text e.1).1 ⟨e.2, he⟩
    rw [codeCost_node hr hprop hperm]
    exact buildTree_optimal ht hr fun d hd e he hne => hg _ (hkey d hd) _ (hkey e he) hne

end Sys2Proof.Machine

namespace Sys2Proof.Machine

/-! ### HBUILD (spec/41_huffman.md R101, R105) -/

/-- The symbol reported as too long is the least key with a code above 64 bits. -/
theorem tooLongSymbol_least {freq : List (Nat × Nat)} {code : List (Nat × Bits)} {x : Nat} (hr : Rising freq)
    (h : tooLongSymbol freq code = some x) : x ∈ freq.map (fun e => e.1) ∧ 64 < (codeOf code x).length ∧
      ∀ e ∈ freq, 64 < (codeOf code e.1).length → x ≤ e.1 := by
  obtain ⟨d, hd, rfl⟩ := Option.map_eq_some_iff.1 h
  obtain ⟨hlong, before, after, rfl, hbefore⟩ := List.find?_eq_some_iff_append.1 hd
  refine ⟨List.mem_map_of_mem (by simp), of_decide_eq_true hlong, fun e he h64 => ?_⟩
  rcases List.mem_append.1 he with he | he
  · simpa [maxCodeLen, h64] using hbefore e he
  · rcases List.mem_cons.1 he with rfl | he
    · exact le_refl _
    · exact ((List.pairwise_cons.1 (List.pairwise_append.1 hr).2.1).1 e he).le

theorem tooLongSymbol_eq_some_iff {freq : List (Nat × Nat)} (hr : Rising freq) (code : List (Nat × Bits)) (x : Nat) :
    tooLongSymbol freq code = some x ↔ x ∈ freq.map (fun e => e.1) ∧ 64 < (codeOf code x).length ∧
      ∀ e ∈ freq, 64 < (codeOf code e.1).length → x ≤ e.1 := by
  refine ⟨tooLongSymbol_least hr, fun ⟨hx, h64, hleast⟩ => ?_⟩
  obtain ⟨e, he, rfl⟩ := List.mem_map.1 hx
  cases hy : tooLongSymbol freq code with
  | none =>
    simp only [tooLongSymbol, Option.map_eq_none_iff, List.find?_eq_none] at hy
    exact absurd (decide_eq_true h64) (hy e he)
  | some y =>
    obtain ⟨hkey, hy64, hyleast⟩ := tooLongSymbol_least hr hy
    obtain ⟨d, hd, rfl⟩ := List.mem_map.1 hkey
    rw [le_antisymm (hyleast e he h64) (hleast d hd hy64)]

@[simp] theorem length_sourceText (s : State) : (sourceText s).length = s.srcLen.toNat := length_readText _ _ _

theorem sourceText_ne_nil {s : State} (h : s.srcLen ≠ 0#32) : sourceText s ≠ [] := by
  refine fun h0 => h (BitVec.eq_of_toNat_eq ?_)
  rw [← length_sourceText, h0]
  rfl

theorem sourceText_of_empty {s : State} (h : s.srcLen = 0#32) : sourceText s = [] :=
  List.length_eq_zero_iff.1 (by simp [h])

/-- What HBUILD leaves when the text has a codec. -/
theorem exec_hbuild_ok {s : State} {c : Codec} (hp : ChecksPass .hbuild s) (hc : buildCodec (sourceText s) = .ok c) :
    exec .hbuild s = .next { s with codec := some c, resultLen := 0#32, done := true, phase := .idle } :=
  exec_ok hp (by simp only [bodyOf, hbuildBody, hc]; rfl)

/-- Settles O43: each outcome of the builder through its lemma. -/
theorem hbuildBuildsCodec : Obligations.HbuildBuildsCodec := by
  refine ⟨fun s hp h0 => ?_, fun s hp hne => ?_, fun _ code x hr => tooLongSymbol_eq_some_iff hr code x,
    fun text t ht => ?_⟩
  · have hb : bodyOf .hbuild s = .error .emptyInput := by
      simp only [bodyOf, hbuildBody, sourceText_of_empty h0]
      rfl
    exact exec_bodyError hp hb rfl
  · obtain ⟨t, ht⟩ := exists_buildTree (mt (frequencies_eq_nil_iff _).1 (sourceText_ne_nil hne))
    refine ⟨t, ht, fun hshort => ?_⟩
    rw [← length_sourceText]
    exact exec_hbuild_ok hp (buildCodec_of_short ht hshort)
  · cases h : tooLongSymbol (frequencies text) (deriveCodes (decodeTree t) []) with
    | none => exact buildCodec_of_noneTooLong ht h
    | some x => exact buildCodec_of_tooLong ht h

/-- A code above 64 bits takes a tree as heavy as the Fibonacci number 67. -/
theorem exists_codec {text : List Nat} (hne : text ≠ []) (hlen : text.length < 2 ^ 31) :
    ∃ c, buildCodec text = .ok c := by
  obtain ⟨t, ht⟩ := exists_buildTree (mt (frequencies_eq_nil_iff text).1 hne)
  have hfib : 2 ^ 31 < Nat.fib 67 := by norm_num
  have hsum : ((frequencies text).map (fun e => e.2)).sum < Nat.fib 67 := by
    rw [frequencies_sum]
    omega
  exact ⟨_, buildCodec_of_short ht (codes_short (frequencies_positive text) ht hsum)⟩

/-- A source text whose checks pass fits the buffer, which holds at most 2^28 bytes. -/
theorem ChecksPass.sourceText_length_lt {s : State} (hp : ChecksPass .hbuild s) : (sourceText s).length < 2 ^ 31 := by
  have hfits := hp.sourceInRange rfl
  have hbuf := bufSize_le s.params
  have hsb := Nat.le_mul_of_pos_right s.srcLen.toNat (sb_pos s.params)
  rw [length_sourceText]
  simp only [sourceBytes] at hfits
  omega

/-- Settles O44: a text that fits the buffer is too light for a code above 64 bits. -/
theorem codeTooLongNeverOccurs : Obligations.CodeTooLongNeverOccurs := by
  refine ⟨fun text hne hlen => exists_codec hne hlen, fun s hp hne => ?_⟩
  obtain ⟨c, hc⟩ := exists_codec (sourceText_ne_nil hne) hp.sourceText_length_lt
  exact ⟨c, exec_hbuild_ok hp hc⟩

/-- After a successful HBUILD the engine holds a codec of its build. -/
theorem codec_of_exec_hbuild {b a : State} (h : exec .hbuild b = .next a) (he : a.err = false) :
    ∃ c, a.codec = some c ∧ CodecOk b.params c := by
  obtain ⟨hp, hb⟩ := exec_noError h he
  have hok := hbuild_codec hp hb
  simp only [bodyOf, hbuildBody] at hb
  split at hb
  · cases hb
  · cases hb
    exact ⟨_, rfl, hok _ rfl⟩

/-! ### HENC and HDEC without a codec, and HDISCARD (spec/41_huffman.md R106, R110) -/

/-- Settles O45: NO_CODEC is the first test of both bodies. -/
theorem noCodecFails : Obligations.NoCodecFails := by
  rintro i s (rfl | rfl) hp hc
  · exact exec_bodyErrorDrawn (e := .noCodec) hp (by simp only [bodyOf, hencBody, hc]) rfl
  · exact exec_bodyErrorDrawn (e := .noCodec) hp (by simp only [bodyOf, hdecBody, hc]) rfl

theorem FailsDrawn.errCode {i : Instr} {s t : State} {code : ErrCode} {info : Word} (h : FailsDrawn i s code info t) :
    t.errCode = code := by
  rw [h.record]
  rfl

theorem FailsDrawn.errInfo {i : Instr} {s t : State} {code : ErrCode} {info : Word} (h : FailsDrawn i s code info t) :
    t.errInfo = info := by
  rw [h.record]
  rfl

/-- Settles O49: HDISCARD leaves an IDLE engine without a codec. -/
theorem hdiscardClearsCodec : Obligations.HdiscardClearsCodec := by
  refine ⟨decodeWord_encode .hdiscard, fun s => ⟨_, exec_hdiscard s, rfl, ?_, fun i hi hp => ?_⟩⟩
  · exact hostTxn_read_zeros rfl (by decide) (regValue_of_no_codec rfl)
  · obtain ⟨u, hu, hf⟩ := noCodecFails i _ hi hp rfl
    exact ⟨u, hu, hf.errCode, hf.errInfo⟩

/-! ### HENC (spec/41_huffman.md R107) -/

theorem bodyOf_henc {s : State} {c : Codec} (hc : s.codec = some c) :
    bodyOf .henc s = (encodeText c (8 * s.dstCap.toNat) 0 0 (sourceText s)).map
      (fun bits => complete bits.length (writeBits s.dstAddr.toNat bits s)) := by
  simp only [bodyOf, hencBody, hc]
  cases encodeText c (8 * s.dstCap.toNat) 0 0 (sourceText s) <;> rfl

theorem wroteOutput_bits (s : State) (bits : Bits) :
    WroteOutput s bits.length ((bits.length + 7) / 8) (complete bits.length (writeBits s.dstAddr.toNat bits s)) where
  fields := rfl
  kept _ ha := readByte_writeBits_outside (s := s) ha

/-- HENC's loop stops at the first symbol that is unknown. -/
theorem encodeText_unknown {c : Codec} {limit : Nat} {pre post : List Nat} {x : Nat}
    (hk : ∀ y ∈ pre, freqOf c.freq y ≠ 0) (hl : (pre.flatMap (codeOf c.code)).length ≤ limit)
    (hx : freqOf c.freq x = 0) : encodeText c limit 0 0 (pre ++ x :: post) = .error (.unknownSymbol pre.length) := by
  rw [encodeText_append c limit pre _ 0 0 hk (by omega), encodeText, if_pos hx, Nat.zero_add]
  rfl

/-- HENC's loop stops at the first symbol whose code does not fit. -/
theorem encodeText_overflow {c : Codec} {limit : Nat} {pre post : List Nat} {x : Nat}
    (hk : ∀ y ∈ pre, freqOf c.freq y ≠ 0) (hl : (pre.flatMap (codeOf c.code)).length ≤ limit)
    (hx : freqOf c.freq x ≠ 0) (ho : limit < (pre.flatMap (codeOf c.code)).length + (codeOf c.code x).length) :
    encodeText c limit 0 0 (pre ++ x :: post) = .error (.dstOverflow pre.length) := by
  rw [encodeText_append c limit pre _ 0 0 hk (by omega), encodeText, if_neg hx, if_pos (by omega), Nat.zero_add]
  rfl

/-- An error of HENC's loop is the command's error. -/
theorem exec_henc_error {s : State} {c : Codec} {e : CmdError} (hp : ChecksPass .henc s) (hc : s.codec = some c)
    (h : encodeText c (8 * s.dstCap.toNat) 0 0 (sourceText s) = .error e) :
    ∃ t, exec .henc s = .next t ∧ FailsDrawn .henc s e.code e.info t :=
  exec_bodyErrorDrawn hp (by rw [bodyOf_henc hc, h]; rfl) rfl

/-- Settles O46: the loop's three outcomes, each by its lemma. -/
theorem hencEncodes : Obligations.HencEncodes := by
  refine ⟨fun s c hp hc hk hl => ?_, fun s c pre post x hp hc ht hk hl => ⟨fun hx => ?_, fun hx ho => ?_⟩⟩
  · have hok := encodeText_ok c (8 * s.dstCap.toNat) (sourceText s) 0 0 hk (by omega)
    exact ⟨_, exec_ok hp (by rw [bodyOf_henc hc, hok]; rfl), wroteOutput_bits s _,
      fun j hj => bitRead_writeBits (s := s) hj⟩
  · exact exec_henc_error (e := .unknownSymbol pre.length) hp hc (ht ▸ encodeText_unknown hk hl hx)
  · exact exec_henc_error (e := .dstOverflow pre.length) hp hc (ht ▸ encodeText_overflow hk hl hx ho)

/-- A successful HENC wrote the codes of its text, whose symbols are all keys. -/
theorem exec_henc_inv {s t : State} {c : Codec} (h : exec .henc s = .next t) (he : t.err = false)
    (hc : s.codec = some c) : (∀ x ∈ sourceText s, freqOf c.freq x ≠ 0) ∧
      ∃ bits, bits = (sourceText s).flatMap (codeOf c.code) ∧ bits.length < 2 ^ 32 ∧
        t = complete bits.length (writeBits s.dstAddr.toNat bits s) := by
  obtain ⟨hp, hb⟩ := exec_noError h he
  rw [bodyOf_henc hc] at hb
  obtain ⟨bits, hbits, rfl⟩ := map_eq_ok hb
  obtain ⟨hk, hl, heq⟩ := encodeText_inv hbits (Nat.zero_le _)
  refine ⟨hk, bits, heq, ?_, rfl⟩
  have hfits := hp.destinationInRange rfl
  have hbuf := bufSize_le s.params
  omega

/-! ### HDEC (spec/41_huffman.md R108) -/

theorem bodyOf_hdec {s : State} {c : Codec} (hc : s.codec = some c) :
    bodyOf .hdec s = (decodeBits c.dtree (symbolCapacity s) c.dtree none 0 0 (sourceBits s)).map
      (fun text => complete text.length (writeText s.dstAddr.toNat text s)) := by
  simp only [bodyOf, hdecBody, hc]
  cases decodeBits c.dtree (symbolCapacity s) c.dtree none 0 0 (sourceBits s) <;> rfl

theorem wroteOutput_text (s : State) (text : List Nat) :
    WroteOutput s text.length (text.length * s.params.sb)
      (complete text.length (writeText s.dstAddr.toNat text s)) where
  fields := rfl
  kept _ ha := readByte_writeText_outside (s := s) ha

/-- An error of HDEC's loop is the command's error. -/
theorem exec_hdec_error {s : State} {c : Codec} {e : CmdError} (hp : ChecksPass .hdec s) (hc : s.codec = some c)
    (h : decodeBits c.dtree (symbolCapacity s) c.dtree none 0 0 (sourceBits s) = .error e) :
    ∃ t, exec .hdec s = .next t ∧ FailsDrawn .hdec s e.code e.info t :=
  exec_bodyErrorDrawn hp (by rw [bodyOf_hdec hc, h]; rfl) rfl

/-- The code of a key is a path of the decode tree. -/
theorem CodecOk.code_mem_walk {p : Params} {c : Codec} (h : CodecOk p c) {x : Nat} (hx : freqOf c.freq x ≠ 0) :
    (x, codeOf c.code x) ∈ deriveCodes c.dtree [] := by
  rw [← h.codeIsPath]
  exact h.code_mem hx

/-- With one key, the decode tree is the virtual root over its leaf. -/
theorem CodecOk.dtree_lone {p : Params} {c : Codec} (h : CodecOk p c) (h1 : c.distinct = 1) :
    ∃ l f, c.dtree = .lone l f := by
  have hshape := h.treeShape
  have hlen := h.treeLeaves.length_eq
  rw [← h.distinctCounts, h1] at hlen
  cases hd : c.dtree with
  | leaf s f =>
    rw [hd] at hshape
    exact hshape.elim
  | node l r f =>
    rw [hd] at hshape hlen
    obtain ⟨s, f', ht⟩ | ⟨-, -, -, -, h2⟩ := DTree.proper.leaf_or_node hshape
    · cases ht
    · omega
  | lone l f => exact ⟨l, f, rfl⟩

section
variable {p : Params} {c : Codec} {cap : Nat} {text : List Nat} (hok : CodecOk p c)
  (hk : ∀ x ∈ text, freqOf c.freq x ≠ 0) (hcap : text.length ≤ cap)
include hok hk hcap

/-- HDEC's loop gives back the symbols of the codes at the front of the bits and goes on at the root. -/
theorem decodeBits_text (rest : Bits) :
    decodeBits c.dtree cap c.dtree none 0 0 (text.flatMap (codeOf c.code) ++ rest) =
      (decodeBits c.dtree cap c.dtree none (text.flatMap (codeOf c.code)).length text.length rest).map
        (text ++ ·) := by
  have hes : ∀ e ∈ text.map (fun x => (x, codeOf c.code x)), e ∈ deriveCodes c.dtree [] := by
    intro e he
    obtain ⟨x, hx, rfl⟩ := List.mem_map.1 he
    exact hok.code_mem_walk (hk x hx)
  have h := decodeBits_codes c.dtree cap _ hes hok.treeShape 0 0 rest (by simpa using hcap)
  rw [← flatMap_codes] at h
  simpa [Function.comp_def] using h

theorem decodeBits_whole :
    decodeBits c.dtree cap c.dtree none 0 0 (text.flatMap (codeOf c.code)) = .ok text := by
  rw [← List.append_nil (text.flatMap _), decodeBits_text hok hk hcap, decodeBits]
  simp [Except.map]

/-- Bits that end inside a code. -/
theorem decodeBits_inside {x : Nat} {part : Bits} (hx : freqOf c.freq x ≠ 0) (hpre : part <+: codeOf c.code x)
    (hne : part ≠ codeOf c.code x) (hnil : part ≠ []) :
    decodeBits c.dtree cap c.dtree none 0 0 (text.flatMap (codeOf c.code) ++ part) =
      .error (.malformedEncoding (text.flatMap (codeOf c.code)).length) := by
  rw [decodeBits_text hok hk hcap,
    decodeBits_incomplete c.dtree cap c.dtree _ (hok.code_mem_walk hx) part none _ _ hpre hne hnil]
  rfl

/-- A 1 at the virtual root has no child. -/
theorem decodeBits_noChild {rest : Bits} (h1 : c.distinct = 1) :
    decodeBits c.dtree cap c.dtree none 0 0 (text.flatMap (codeOf c.code) ++ true :: rest) =
      .error (.malformedEncoding (text.flatMap (codeOf c.code)).length) := by
  obtain ⟨l, f, hl⟩ := hok.dtree_lone h1
  have hch : c.dtree.child true = none := by rw [hl]; rfl
  rw [decodeBits_text hok hk hcap, decodeBits, hch]
  rfl

/-- A symbol that does not fit. -/
theorem decodeBits_overflow {x : Nat} {rest : Bits} (hx : freqOf c.freq x ≠ 0) (ho : cap < text.length + 1) :
    decodeBits c.dtree cap c.dtree none 0 0 (text.flatMap (codeOf c.code) ++ (codeOf c.code x ++ rest)) =
      .error (.dstOverflow (text.flatMap (codeOf c.code)).length) := by
  rw [decodeBits_text hok hk hcap,
    decodeBits_code c.dtree cap c.dtree _ (hok.code_mem_walk hx) (hok.code_ne_nil hx), if_pos ho]
  rfl

end

/-- HDEC of the codes of a text writes the text; the codec may have been made in another build. -/
theorem exec_hdec_ok {p : Params} {s : State} {c : Codec} {text : List Nat} (hp : ChecksPass .hdec s)
    (hc : s.codec = some c) (hok : CodecOk p c) (hk : ∀ x ∈ text, freqOf c.freq x ≠ 0)
    (hcap : text.length ≤ symbolCapacity s) (hb : sourceBits s = text.flatMap (codeOf c.code)) :
    exec .hdec s = .next (complete text.length (writeText s.dstAddr.toNat text s)) :=
  exec_ok hp (by rw [bodyOf_hdec hc, hb, decodeBits_whole hok hk hcap]; rfl)

/-- What HDEC wrote reads back. -/
theorem readText_completed (s : State) {text : List Nat} (h : ∀ x ∈ text, x < s.params.alphabetMax) :
    readText (complete text.length (writeText s.dstAddr.toNat text s)) s.dstAddr.toNat text.length = text :=
  readText_writeText (s := s) h

/-- Settles O47: the loop's four outcomes, each by its lemma. -/
theorem hdecDecodes : Obligations.HdecDecodes := by
  refine fun s c text hp hc hok hk hcap => ⟨fun hb => ?_, fun x part hx hpre hne hnil hb => ?_, fun rest h1 hb => ?_,
    fun x rest hx ho hb => ?_⟩
  · have hlt : ∀ x ∈ text, x < s.params.alphabetMax := fun x hx => hok.keysAreSymbols _ (mem_of_freqOf (hk x hx))
    exact ⟨_, exec_hdec_ok hp hc hok hk hcap hb, wroteOutput_text s text, readText_completed s hlt⟩
  · exact exec_hdec_error (e := .malformedEncoding _) hp hc (hb ▸ decodeBits_inside hok hk hcap hx hpre hne hnil)
  · exact exec_hdec_error (e := .malformedEncoding _) hp hc (hb ▸ decodeBits_noChild hok hk hcap h1)
  · exact exec_hdec_error (e := .dstOverflow _) hp hc (hb ▸ decodeBits_overflow hok hk hcap hx ho)

/-! ### The round trip (spec/41_huffman.md R109) -/

/-- Settles O48: HDEC's source bits are the codes HENC wrote, so its loop gives back HENC's text. -/
theorem huffmanRoundTrip : Obligations.HuffmanRoundTrip := by
  intro b a s t u hbuild ha hcodec henc ht hu hp hcap
  obtain ⟨c, hca, hok⟩ := codec_of_exec_hbuild hbuild ha
  obtain ⟨hk, bits, hbits, hlen, rfl⟩ := exec_henc_inv henc ht (hcodec.trans hca)
  have hpar : u.params = s.params := by rw [hu]; rfl
  have hcu : u.codec = some c := by rw [hu]; exact hcodec.trans hca
  have herr : u.err = false := by rw [hu]; exact ht
  have hsrc : sourceBits u = (sourceText s).flatMap (codeOf c.code) := by
    have hread : sourceBits u =
        readBits (writeBits s.dstAddr.toNat bits s) s.dstAddr.toNat (BitVec.ofNat 32 bits.length).toNat := by
      rw [hu]
      rfl
    rw [hread, BitVec.toNat_ofNat, Nat.mod_eq_of_lt hlen, readBits_writeBits, hbits]
  have hfit : (sourceText s).length ≤ symbolCapacity u := by
    rw [symbolCapacity, hpar, Nat.le_div_iff_mul_le (sb_pos s.params), length_sourceText]
    exact hcap
  have hlt : ∀ x ∈ sourceText s, x < u.params.alphabetMax := fun x hx => hpar ▸ readText_lt hx
  refine ⟨_, exec_hdec_ok hp hcu hok hk hfit hsrc, herr, by simp, ?_⟩
  rw [← length_sourceText]
  exact readText_completed u hlt

end Sys2Proof.Machine

namespace Sys2Proof.Machine

/-! ### What an LZ command computes and stores (spec/42_lz.md R117, R119, R122) -/

/-- A command whose body ends by writing a text of symbols leaves that text at the destination. -/
theorem exec_writesText {i : Instr} {s : State} {text : List Nat} (hp : ChecksPass i s)
    (hb : bodyOf i s = .ok (complete text.length (writeText s.dstAddr.toNat text s)))
    (hlt : ∀ x ∈ text, x < s.params.alphabetMax) :
    ∃ t, exec i s = .next t ∧ WroteOutput s text.length (text.length * s.params.sb) t ∧
      readText t s.dstAddr.toNat text.length = text :=
  ⟨_, exec_ok hp hb, wroteOutput_text s text, readText_completed s hlt⟩

theorem bodyOf_lzc (s : State) :
    bodyOf .lzc s = (writeRecords (symbolCapacity s) 0 (compress (sourceText s) (window s) (lookahead s))).map
      (fun stream => complete stream.length (writeText s.dstAddr.toNat stream s)) := by
  simp only [bodyOf, lzcBody]
  cases writeRecords (symbolCapacity s) 0 (compress (sourceText s) (window s) (lookahead s)) <;> rfl

theorem bodyOf_lzd (s : State) :
    bodyOf .lzd s = (decompress (symbolCapacity s) (sourceText s)).map
      (fun text => complete text.length (writeText s.dstAddr.toNat text s)) := by
  simp only [bodyOf, lzdBody]
  cases decompress (symbolCapacity s) (sourceText s) <;> rfl

theorem bodyOf_lzc_ok {s : State} {stream : List Nat}
    (h : writeRecords (symbolCapacity s) 0 (compress (sourceText s) (window s) (lookahead s)) = .ok stream) :
    bodyOf .lzc s = .ok (complete stream.length (writeText s.dstAddr.toNat stream s)) := by
  rw [bodyOf_lzc, h]
  rfl

theorem bodyOf_lzd_ok {s : State} {text : List Nat} (h : decompress (symbolCapacity s) (sourceText s) = .ok text) :
    bodyOf .lzd s = .ok (complete text.length (writeText s.dstAddr.toNat text s)) := by
  rw [bodyOf_lzd, h]
  rfl

/-- An error of LZC's output loop is the command's error. -/
theorem exec_lzc_error {s : State} {e : CmdError} (hp : ChecksPass .lzc s)
    (h : writeRecords (symbolCapacity s) 0 (compress (sourceText s) (window s) (lookahead s)) = .error e) :
    ∃ t, exec .lzc s = .next t ∧ FailsDrawn .lzc s e.code e.info t :=
  exec_bodyErrorDrawn hp (by rw [bodyOf_lzc, h]; rfl) rfl

/-- An error of LZD's two phases is the command's error. -/
theorem exec_lzd_error {s : State} {e : CmdError} (hp : ChecksPass .lzd s)
    (h : decompress (symbolCapacity s) (sourceText s) = .error e) :
    ∃ t, exec .lzd s = .next t ∧ FailsDrawn .lzd s e.code e.info t :=
  exec_bodyErrorDrawn hp (by rw [bodyOf_lzd, h]; rfl) rfl

theorem sourceText_lt (s : State) : ∀ x ∈ sourceText s, x < s.params.alphabetMax := fun _ hx => readText_lt hx

theorem window_lt (s : State) : window s < 2 ^ 32 := by
  rw [window_eq]
  omega

theorem lookahead_lt (s : State) : lookahead s < 2 ^ 32 := by
  rw [lookahead_eq]
  omega

/-! ### Compress, then decompress (spec/42_lz.md R124) -/

/-- A successful LZC wrote the records of its text's tokens, as many symbols as RESULT_LEN says. -/
theorem exec_lzc_inv {s t : State} (h : exec .lzc s = .next t) (he : t.err = false) :
    ∃ stream, stream = (compress (sourceText s) (window s) (lookahead s)).flatMap (fun e => record e.1) ∧
      stream.length < 2 ^ 32 ∧ t = complete stream.length (writeText s.dstAddr.toNat stream s) := by
  obtain ⟨-, hb⟩ := exec_noError h he
  rw [bodyOf_lzc] at hb
  obtain ⟨stream, hw, rfl⟩ := map_eq_ok hb
  obtain ⟨heq, hfits⟩ := writeRecords_inv hw (Nat.zero_le _)
  have hcap : symbolCapacity s ≤ s.dstCap.toNat := Nat.div_le_self _ _
  have hword := s.dstCap.isLt
  exact ⟨stream, heq, by omega, rfl⟩

/-- Settles O57: LZD's source text is the records LZC wrote, which decompress to LZC's source text. -/
theorem lzRoundTrip : Obligations.LzRoundTrip := by
  intro s t u hlzc ht hu hp hcap
  obtain ⟨stream, hstream, hlen, rfl⟩ := exec_lzc_inv hlzc ht
  have hpar : u.params = s.params := by rw [hu]; rfl
  have herr : u.err = false := by rw [hu]; exact ht
  have hsrc : sourceText u = stream := by
    have hread : sourceText u = readText (complete stream.length (writeText s.dstAddr.toNat stream s)) s.dstAddr.toNat
        (BitVec.ofNat 32 stream.length).toNat := by
      rw [hu]
      rfl
    rw [hread, BitVec.toNat_ofNat, Nat.mod_eq_of_lt hlen]
    exact readText_completed s (hstream ▸ records_lt (sourceText_lt s))
  have hfit : (sourceText s).length ≤ symbolCapacity u := by
    rw [symbolCapacity, hpar, Nat.le_div_iff_mul_le (sb_pos s.params), length_sourceText]
    exact hcap
  have hdec : decompress (symbolCapacity u) (sourceText u) = .ok (sourceText s) := by
    rw [hsrc, hstream]
    exact decompress_compress (window_lt s) (lookahead_lt s) hfit
  refine ⟨_, exec_ok hp (bodyOf_lzd_ok hdec), herr, by simp, ?_⟩
  rw [← length_sourceText]
  exact readText_completed u (hpar ▸ sourceText_lt s)

/-! ### LZMATCH (spec/42_lz.md R116, R117) -/

theorem exec_lzmatch_badCursor {s : State} (hp : ChecksPass .lzmatch s) (hc : s.srcLen.toNat ≤ s.cursor.toNat) :
    exec .lzmatch s = .next (failedState .badCursor s.cursor s) :=
  exec_bodyError (e := .badCursor s.cursor) hp (if_pos hc) rfl

/-- LZMATCH with a cursor inside the text stores what `longestMatch` finds there. -/
theorem exec_lzmatch_ok {s : State} (hp : ChecksPass .lzmatch s) (hc : s.cursor.toNat < s.srcLen.toNat) {m : Nat × Nat}
    (hm : longestMatch (sourceText s) (window s) (lookahead s) s.cursor.toNat = m) :
    exec .lzmatch s = .next { s with
      resultLen := BitVec.ofNat 32 m.1, matchOff := BitVec.ofNat 32 (matchOffset s.cursor.toNat m), done := true,
      phase := .idle } := by
  subst hm
  exact exec_ok hp (if_neg (Nat.not_le.2 hc))

/-- Settles O50: the growth loop finds the longest match, and both values are below the text's length. -/
theorem lzmatchFindsLongest : Obligations.LzmatchFindsLongest := by
  refine ⟨fun s hp hc => exec_lzmatch_badCursor hp hc, fun s hp hc => ?_⟩
  obtain ⟨hlen, hoff⟩ := longestMatch_spec (sourceText s) (window s) (lookahead s) s.cursor.toNat
  refine ⟨_, _, exec_lzmatch_ok hp hc rfl, ?_⟩
  rw [← window_eq, ← lookahead_eq]
  refine ⟨hlen, hoff, ?_, ?_⟩
  · have hk := hlen.2.1
    have hn := s.srcLen.isLt
    rw [length_sourceText] at hk
    omega
  · have hcur := s.cursor.isLt
    obtain ⟨-, ho⟩ | ⟨-, -, -, ho⟩ := hoff.bounds <;> omega

/-! ### LZC (spec/42_lz.md R118, R119) -/

/-- Settles O52: the loop's sequence meets the rule, which determines it. -/
theorem compressIsTotalAndBounded : Obligations.CompressIsTotalAndBounded := by
  intro text w l
  have hspec := compress_spec text w l
  exact ⟨hspec, fun _ h => h.unique hspec, hspec.bounds⟩

/-- Settles O51: the tokens are those of LZC's loop, and its output loop has two outcomes, each by its lemma. -/
theorem lzcWritesRecords : Obligations.LzcWritesRecords := by
  refine ⟨fun _ => rfl, fun _ _ _ => rfl, fun s toks hp hc => ?_⟩
  rw [← window_eq, ← lookahead_eq] at hc
  obtain rfl := hc.unique (compress_spec _ _ _)
  refine ⟨fun hfit => ?_, fun pre post x c hsplit hfit hover => ?_⟩
  · have hok := writeRecords_ok (cap := symbolCapacity s) (out := 0) (by rwa [Nat.zero_add])
    exact exec_writesText hp (bodyOf_lzc_ok hok) (records_lt (sourceText_lt s))
  · refine exec_lzc_error (e := .dstOverflow c) hp ?_
    rw [hsplit]
    exact writeRecords_overflow (by rwa [Nat.zero_add]) (by rwa [Nat.zero_add])

/-! ### LZD: the parse phase (spec/42_lz.md R120) -/

theorem parseStream_malformed {good rest : List Nat} {toks : List (Token × Nat)} (h : IsStream 0 good toks)
    (hne : rest ≠ []) (hno : ∀ r t rest', IsRecord r t → rest ≠ r ++ rest') :
    parseStream (good ++ rest).length 0 (good ++ rest) = .error (.malformedToken good.length) := by
  rw [parseStream_stops h rest hne (parseRecord_eq_none hno) (by simp), Nat.zero_add]

/-- Settles O54: each direction by its lemma, and the stop of the parse. -/
theorem parseMatchesGrammar : Obligations.ParseMatchesGrammar :=
  ⟨fun _ _ => ⟨parseStream_inv, fun h => parseStream_isStream h (le_refl _)⟩,
    fun _ _ _ h hne hno => parseStream_malformed h hne hno⟩

/-! ### LZD: the apply phase (spec/42_lz.md R121, R122) -/

/-- A stream of the grammar parses, so only the apply phase can fail. -/
theorem decompress_isStream {stream : List Nat} {toks : List (Token × Nat)} (h : IsStream 0 stream toks) (cap : Nat) :
    decompress cap stream = applyTokens cap [] toks := by
  rw [decompress, parseStream_isStream h (le_refl _)]

/-- A malformed record is reported before any token is applied. -/
theorem decompress_malformed {good rest : List Nat} {toks : List (Token × Nat)} (h : IsStream 0 good toks)
    (hne : rest ≠ []) (hno : ∀ r t rest', IsRecord r t → rest ≠ r ++ rest') (cap : Nat) :
    decompress cap (good ++ rest) = .error (.malformedToken good.length) := by
  rw [decompress, parseStream_malformed h hne hno]

theorem exists_expands {out : List Nat} {t : Token}
    (h : (t.offset = 0 ∧ t.length = 0) ∨ (1 ≤ t.offset ∧ t.offset ≤ out.length)) : ∃ next, Expands out t next := by
  obtain ⟨h0, h1⟩ | ⟨h0, h1⟩ := h
  · exact ⟨_, expands_raw h0 h1⟩
  · exact ⟨_, expands_copyLive h0 h1⟩

theorem applyTokens_illegal {cap : Nat} {out : List Nat} {t : Token} (t0 : Nat) (toks : List (Token × Nat))
    (h : (t.offset = 0 ∧ t.length ≠ 0) ∨ out.length < t.offset) :
    applyTokens cap out ((t, t0) :: toks) = .error (.malformedToken t0) := by
  rw [applyTokens, if_neg (by omega), if_pos (by omega)]

theorem applyTokens_overflow {cap : Nat} {out : List Nat} {t : Token} (t0 : Nat) (toks : List (Token × Nat))
    (h : (t.offset = 0 ∧ t.length = 0) ∨ (1 ≤ t.offset ∧ t.offset ≤ out.length))
    (ho : cap < out.length + t.length + 1) : applyTokens cap out ((t, t0) :: toks) = .error (.dstOverflow t0) := by
  obtain ⟨next, hn⟩ := exists_expands h
  rw [applyTokens_cons hn, hn.newLength, if_pos ho]

/-- What tokens parsed from a source text expand to are symbols again: each is a literal or a copy of one. -/
theorem expanded_lt {s : State} {toks : List (Token × Nat)} {final : List Nat} (h : IsStream 0 (sourceText s) toks)
    (hd : Decompresses [] toks final) : ∀ x ∈ final, x < s.params.alphabetMax :=
  hd.symbols_lt (by simp) fun e he => sourceText_lt s _ (h.literal_mem e he)

/-- Settles O55: the two phases' outcomes, each by its lemma. -/
theorem lzdExpandsTokens : Obligations.LzdExpandsTokens := by
  refine ⟨fun s toks final hp hs hd hfit => ?_, fun s pre post x p mid hp hs hd hfit => ?_,
    fun s good rest toks hp hs hgood hne hno => ?_⟩
  · have hok : decompress (symbolCapacity s) (sourceText s) = .ok final := by
      rw [decompress_isStream hs]
      exact applyTokens_ok hd hfit
    exact exec_writesText hp (bodyOf_lzd_ok hok) (expanded_lt hs hd)
  · have hpre : decompress (symbolCapacity s) (sourceText s) = applyTokens (symbolCapacity s) mid ((x, p) :: post) := by
      rw [decompress_isStream hs]
      exact applyTokens_append hd hfit
    refine ⟨fun hillegal => ?_, fun hlegal hover => ?_⟩
    · exact exec_lzd_error (e := .malformedToken p) hp (hpre.trans (applyTokens_illegal p post hillegal))
    · exact exec_lzd_error (e := .dstOverflow p) hp (hpre.trans (applyTokens_overflow p post hlegal hover))
  · exact exec_lzd_error (e := .malformedToken good.length) hp (by rw [hs, decompress_malformed hgood hne hno])

/-- Settles O56: LZD is one of the commands that do not read LZ_CFG (spec/42_lz.md R123). -/
theorem lzdIgnoresLzCfg : Obligations.LzdIgnoresLzCfg :=
  fun _ _ v h => exec_withLzCfg v (by decide) (by decide) h

end Sys2Proof.Machine

namespace Sys2Proof.Machine

/-! ### The interrupt level (spec/60_exceptions.md R131) -/

theorem irq_eq_true_iff (s : State) : s.irq = true ↔ s.done = true ∧ s.irqEn = true := Bool.and_eq_true_iff

@[simp] theorem respond_irq (v : Option Word) (s : State) : (respond v s).irq = s.irq := rfl

@[simp] theorem accept_irq (w : Word) (k : Nat) (s : State) : (accept w k s).irq = false := rfl

@[simp] theorem recordError_irq (e : CmdError) (s : State) : (recordError e s).irq = s.irqEn := rfl

@[simp] theorem softReset_irq (s : State) : (softReset s).irq = false := rfl

@[simp] theorem powerOnReset_irq (line : Bool) (s : State) : (powerOnReset line s).irq = false := rfl

@[simp] theorem writeStatus_irq (v : Word) (s : State) : (writeStatus v s).irq = (s.irq && !v.getLsbD 1) :=
  Bool.and_right_comm _ _ _

theorem writeCtrl_irq (v : Word) (s : State) : (writeCtrl v s).irq = (s.done && v.getLsbD 0 && !v.getLsbD 1) := by
  cases hv : v.getLsbD 1 with
  | true => rw [writeCtrl_softReset hv, softReset_irq, Bool.not_true, Bool.and_false]
  | false => rw [writeCtrl_irqEn hv, Bool.not_false, Bool.and_true, State.irq]

theorem Ends.irq {i : Instr} {s t : State} (h : Ends i s t) : t.irq = s.irqEn := by
  rw [h.fields]
  rfl

theorem completionStep_irq {w : Word} {s t : State} (h : completionStep exec w s = .next t) : t.irq = s.irqEn := by
  unfold completionStep at h
  split at h
  · exact (exec_next h).irq
  · cases h
    rfl

theorem takeTransaction_phase_idle_iff (rest : List HostTxn) (s : State) :
    (takeTransaction rest s).phase = .idle ↔ s.phase = .idle := by
  unfold takeTransaction
  split <;> simp [*]

/-- Of the host transactions, only a write to CTRL that sets IRQ_EN while DONE raises the level. -/
theorem TxnNext.raisesIrq {s t : State} {x : HostTxn} (h : TxnNext s x t) (hs : s.irq = false) (ht : t.irq = true) :
    ∃ v, x = .regWrite 0x008 4 v ∧ v.getLsbD 0 = true ∧ v.getLsbD 1 = false ∧ s.done = true := by
  cases h with
  | ctrl v hv =>
    obtain ⟨hd, hen⟩ := (irq_eq_true_iff _).1 ht
    exact ⟨v, rfl, hen, hv, hd⟩
  | status v => simp [hs] at ht
  | softReset | accepted | resetAssert => cases ht
  | _ => exact absurd (hs.symm.trans ht) Bool.false_ne_true

/-- The host transactions that drop the level. -/
theorem TxnNext.dropsIrq {s t : State} {x : HostTxn} (h : TxnNext s x t) (hs : s.irq = true) (ht : t.irq = false) :
    (∃ v, x = .regWrite 0x00C 4 v ∧ v.getLsbD 1 = true) ∨
      (∃ v, x = .regWrite 0x008 4 v ∧ (v.getLsbD 0 = false ∨ v.getLsbD 1 = true)) ∨
      (∃ w, x = .regWrite 0x010 4 w ∧ s.phase = .idle) ∨ x = .resetAssert := by
  cases h with
  | status v => exact .inl ⟨v, rfl, by simpa [hs] using ht⟩
  | ctrl v _ =>
    obtain ⟨hd, -⟩ := (irq_eq_true_iff s).1 hs
    exact .inr (.inl ⟨v, rfl, .inl (by simpa [State.irq, hd] using ht)⟩)
  | softReset v hv => exact .inr (.inl ⟨v, rfl, .inr hv⟩)
  | accepted w hp => exact .inr (.inr (.inl ⟨w, rfl, hp⟩))
  | resetAssert => exact .inr (.inr (.inr rfl))
  | _ => exact absurd (hs.symm.trans ht).symm Bool.false_ne_true

theorem StepNext.raisesIrq {s t : State} (h : StepNext s t) (hs : s.irq = false) (ht : t.irq = true) :
    (∃ w, EngineMoves s w ∧ s.irqEn = true) ∨
      (∃ v rest, s.pending = .regWrite 0x008 4 v :: rest ∧ v.getLsbD 0 = true ∧ v.getLsbD 1 = false ∧ s.done = true) := by
  cases h with
  | stays _ => exact absurd (hs.symm.trans ht) Bool.false_ne_true
  | @ignoredInReset _ rest _ _ _ =>
    obtain ⟨hirq, -, -⟩ := takeTransaction_irq rest s
    rw [respond_irq, hirq, hs] at ht
    cases ht
  | released _ _ => cases ht
  | @host x rest _ _ hq hx =>
    obtain ⟨hirq, hdone, -⟩ := takeTransaction_irq rest s
    obtain ⟨v, rfl, h0, h1, hd⟩ := hx.raisesIrq (hirq.trans hs) ht
    exact .inr ⟨v, rest, hq, h0, h1, hdone.symm.trans hd⟩
  | illegal hm _ => exact .inl ⟨_, hm, ht⟩
  | command hm _ he => exact .inl ⟨_, hm, he.irq.symm.trans ht⟩

theorem StepNext.dropsIrq {s t : State} (h : StepNext s t) (hs : s.irq = true) (ht : t.irq = false) :
    (∃ v rest, s.pending = .regWrite 0x00C 4 v :: rest ∧ v.getLsbD 1 = true) ∨
      (∃ v rest, s.pending = .regWrite 0x008 4 v :: rest ∧ (v.getLsbD 0 = false ∨ v.getLsbD 1 = true)) ∨
      (∃ w rest, s.pending = .regWrite 0x010 4 w :: rest ∧ s.phase = .idle) ∨
      (∃ rest, s.pending = .resetAssert :: rest) ∨ (∃ rest, s.pending = .resetRelease :: rest) := by
  obtain ⟨-, hen⟩ := (irq_eq_true_iff s).1 hs
  cases h with
  | stays _ => exact absurd (hs.symm.trans ht).symm Bool.false_ne_true
  | @ignoredInReset _ rest _ _ _ =>
    obtain ⟨hirq, -, -⟩ := takeTransaction_irq rest s
    rw [respond_irq, hirq, hs] at ht
    cases ht
  | @released rest _ hq => exact .inr (.inr (.inr (.inr ⟨rest, hq⟩)))
  | @host x rest _ _ hq hx =>
    obtain ⟨hirq, -, -⟩ := takeTransaction_irq rest s
    rcases hx.dropsIrq (hirq.trans hs) ht with ⟨v, rfl, hv⟩ | ⟨v, rfl, hv⟩ | ⟨w, rfl, hp⟩ | rfl
    · exact .inl ⟨v, rest, hq, hv⟩
    · exact .inr (.inl ⟨v, rest, hq, hv⟩)
    · exact .inr (.inr (.inl ⟨w, rest, hq, (takeTransaction_phase_idle_iff rest s).1 hp⟩))
    · exact .inr (.inr (.inr (.inl ⟨rest, hq⟩)))
  | illegal _ _ => exact absurd (hen.symm.trans ht).symm Bool.false_ne_true
  | command _ _ he => exact absurd (hen.symm.trans (he.irq.symm.trans ht)).symm Bool.false_ne_true

/-- Settles O18: the two edges by the cases of what a step can do, then the level after each event. -/
theorem irqRisesAndFalls : Obligations.IrqRisesAndFalls := by
  refine ⟨irq_eq_true_iff, fun _ _ h => (step_next h).raisesIrq, fun _ _ h => (step_next h).dropsIrq, fun s w hm => ?_,
    fun s t v h => ?_, fun s t v h => ?_, fun s t w hp h => ?_, fun s t h => ?_⟩
  · rw [step_engineMoves hm]
    obtain ⟨t, ht⟩ := completionStep_next w s
    exact ⟨t, ht, completionStep_irq ht⟩
  · rw [hostTxn_write_ctrl] at h
    cases h
    exact writeCtrl_irq v s
  · rw [hostTxn_regWrite_reg s 0x00C v .status rfl rfl] at h
    cases h
    exact writeStatus_irq v s
  · rw [hostTxn_write_cmd_idle hp] at h
    cases h
    rfl
  · cases h
    rfl

end Sys2Proof.Machine

namespace Sys2Proof.Machine

/-! ### Host protocol violations (spec/60_exceptions.md R132) -/

/-- A transaction faults exactly when it is a violation. -/
theorem hostTxn_fault_iff (x : HostTxn) (s : State) : (∃ f, hostTxn x s = .fault f) ↔ Violates s x := by
  cases x with
  | regRead off width =>
    rw [hostTxn_regRead, Violates, ← legalRegAccess_iff]
    split_ifs with hl <;> simp [hl]
  | regWrite off width v =>
    rw [hostTxn_regWrite, Violates, ← legalRegAccess_iff]
    split_ifs with hl <;> simp [hl]
  | bufRead addr width =>
    rw [hostTxn_bufRead, Violates, ← legalBufAccess_iff]
    split_ifs with hl <;> simp [hl]
  | bufWrite addr width v =>
    simp only [Violates, ← activeRegion_iff, ← touches_iff, ← legalBufAccess_iff]
    rw [hostTxn_bufWrite, bufWrite]
    split_ifs <;> simp [*]
  | resetAssert | resetRelease => simp [hostTxn, Violates]

/-- Taking a transaction shortens the wait and keeps the running command. -/
theorem takeTransaction_runningCommand (rest : List HostTxn) (s : State) :
    runningCommand (takeTransaction rest s) = runningCommand s := by
  cases hp : s.phase with
  | idle => simp [takeTransaction_idle hp, runningCommand]
  | busy w k => simp [takeTransaction_busy hp, runningCommand, hp]

theorem takeTransaction_activeByte (rest : List HostTxn) (s : State) (a : Nat) :
    ActiveByte (takeTransaction rest s) a ↔ ActiveByte s a := by
  rw [← activeRegion_iff, ← activeRegion_iff, activeRegion, activeRegion, takeTransaction_runningCommand]
  cases hp : s.phase with
  | idle => rw [takeTransaction_idle hp]; rfl
  | busy w k => rw [takeTransaction_busy hp]; rfl

theorem takeTransaction_violates (rest : List HostTxn) (s : State) (x : HostTxn) :
    Violates (takeTransaction rest s) x ↔ Violates s x := by
  cases x with
  | bufRead | bufWrite => simp only [Violates, takeTransaction_params, takeTransaction_activeByte]
  | _ => rfl

/-- A step is the host's transaction, or it answers a next state: nothing but a host's transaction can stop the machine. -/
theorem step_hostTxn_or_next (s : State) :
    (∃ x rest, HostMoves s ∧ s.pending = x :: rest ∧ step s = hostTxn x (takeTransaction rest s)) ∨
      ∃ t, step s = .next t := by
  cases hr : s.resetLine with
  | true =>
    right
    simp only [step, stepWith, hr]
    cases s.pending with
    | nil => exact ⟨s, rfl⟩
    | cons x rest => cases x <;> exact ⟨_, rfl⟩
  | false =>
    rcases moves_cases hr with ⟨hm, x, rest, hq⟩ | ⟨w, hm⟩ | ⟨hp, hq⟩
    · exact .inl ⟨x, rest, hm, hq, step_hostMoves hm hq⟩
    · rw [step_engineMoves hm]
      exact .inr (completionStep_next w s)
    · exact .inr ⟨s, by simp only [step, stepWith, hr, hp, hq]⟩

/-- Settles O20: only the host's transaction can fault, and it faults on a violation. -/
theorem faultsExactlyOnViolations : Obligations.FaultsExactlyOnViolations := by
  refine ⟨fun s => ⟨?_, ?_⟩, fun s r hr => ?_⟩
  · rintro ⟨f, hf⟩
    rcases step_hostTxn_or_next s with ⟨x, rest, hm, hq, hstep⟩ | ⟨t, ht⟩
    · have hv := (hostTxn_fault_iff x _).1 ⟨f, hstep ▸ hf⟩
      exact ⟨hm, x, rest, hq, (takeTransaction_violates rest s x).1 hv⟩
    · rw [ht] at hf
      cases hf
  · rintro ⟨hm, x, rest, hq, hv⟩
    rw [step_hostMoves hm hq]
    exact (hostTxn_fault_iff x _).2 ((takeTransaction_violates rest s x).2 hv)
  · rcases step_hostTxn_or_next s with ⟨x, rest, -, -, hstep⟩ | ⟨t, ht⟩
    · exact hostTxn_not_refused x _ r (hstep ▸ hr)
    · rw [ht] at hr
      cases hr

end Sys2Proof.Machine

namespace Sys2Proof.Machine

/-! ### Errors of a command (spec/60_exceptions.md R125, R127 to R129) -/

/-- Command `i` in state `s` raises `e`: a common check fails, or its body does (spec/60_exceptions.md R127). -/
def Raises (i : Instr) (s : State) (e : CmdError) : Prop :=
  commonError i s = some e ∨ (ChecksPass i s ∧ bodyOf i s = .error e)

/-- The error record of `t` is the one of `e`. -/
structure Reports (e : CmdError) (t : State) : Prop where
  err : t.err = true
  errCode : t.errCode = e.code
  errInfo : t.errInfo = e.info

/-- The error record of `t` is the one of `s`. -/
structure KeepsError (s t : State) : Prop where
  err : t.err = s.err
  errCode : t.errCode = s.errCode
  errInfo : t.errInfo = s.errInfo

theorem reports_recordError (e : CmdError) (s : State) : Reports e (recordError e s) := ⟨rfl, rfl, rfl⟩

theorem BodyFrame.keepsError {i : Instr} {s t : State} (h : BodyFrame i s t) : KeepsError s t := by
  rw [h.fields]
  exact ⟨rfl, rfl, rfl⟩

/-- A command keeps the error record, or reports the error it raises. -/
theorem Ends.keepsError_or_reports {i : Instr} {s t : State} (h : Ends i s t) :
    KeepsError s t ∨ ∃ e, Raises i s e ∧ Reports e t := by
  cases h with
  | checkFailed he => exact .inr ⟨_, .inl he, reports_recordError _ _⟩
  | succeeded _ _ hf => exact .inl hf.keepsError
  | failed hp hb _ | failedDrawn hp hb _ => exact .inr ⟨_, .inr ⟨hp, hb⟩, reports_recordError _ _⟩

/-- A command that raises an error reports it. -/
theorem Raises.exec {i : Instr} {s : State} {e : CmdError} (h : Raises i s e) : ∃ t, exec i s = .next t ∧ Reports e t := by
  rw [exec_eq_execute]
  rcases h with he | ⟨hp, hb⟩
  · exact ⟨_, execute_commonError he, reports_recordError _ _⟩
  · exact ⟨_, execute_error hp hb, reports_recordError _ _⟩

theorem exists_commonError {i : Instr} {s : State} (h : ¬ChecksPass i s) : ∃ e, commonError i s = some e := by
  rw [← commonError_eq_none_iff] at h
  exact Option.ne_none_iff_exists'.1 h

theorem hasDestination_iff (i : Instr) : hasDestination i = true ↔ i ∈ [Instr.henc, .hdec, .lzc, .lzd] := by
  cases i <;> decide

/-- Settles O29, by the outcome of the common checks and then of the body. -/
theorem errorRecording : Obligations.ErrorRecording := by
  refine ⟨fun _ _ => rfl, hasDestination_iff, fun i s => ⟨fun hc => ?_, fun hp => ?_⟩⟩
  · obtain ⟨e, he⟩ := exists_commonError hc
    exact ⟨e.code, e.info, commonError_code he, exec_commonError he⟩
  · cases hb : bodyOf i s with
    | ok t =>
      have hk := (bodyOf_frame hb).keepsError
      exact ⟨t, exec_ok hp hb, .inl ⟨hk.err, hk.errCode, hk.errInfo⟩⟩
    | error e =>
      have hcode := bodyError_code (bodyOf_error_inBody hb)
      cases hd : hasDestination i with
      | false => exact ⟨_, exec_bodyError hp hb hd, .inr ⟨e.code, e.info, hcode, .inr ⟨rfl, rfl⟩⟩⟩
      | true =>
        obtain ⟨t, ht, hf⟩ := exec_bodyErrorDrawn hp hb hd
        exact ⟨t, ht, .inr ⟨e.code, e.info, hcode, .inl ⟨rfl, hf⟩⟩⟩

/-! ### Which errors a command can raise (spec/60_exceptions.md R125) -/

/-- The errors of a command's common checks: none without operands, and OVERLAP only with two regions. -/
def checkErrors : Instr → List ErrCode
  | .nop | .hdiscard => []
  | .hbuild | .lzmatch => [.misaligned, .addrRange]
  | .henc | .hdec | .lzc | .lzd => [.misaligned, .addrRange, .overlap]

/-- A command without a destination region never raises OVERLAP. -/
theorem commonError_ne_overlap {i : Instr} {s : State} {e : CmdError} (hd : hasDestination i = false)
    (h : commonError i s = some e) : e.code ≠ .overlap := by
  intro hc
  have ho : checkOverlap i s = some e := by
    have := checkOf_of_commonError h
    rwa [hc] at this
  have hn : checkOverlap i s = none := (checkOverlap_eq_none_iff i s).2 fun _ hd' => absurd (hd.symm.trans hd') (by simp)
  rw [hn] at ho
  cases ho

theorem commonError_mem_checkErrors {i : Instr} {s : State} {e : CmdError} (h : commonError i s = some e) :
    e.code ∈ checkErrors i := by
  have hcode := commonError_code h
  cases i with
  | nop | hdiscard => cases h
  | hbuild | lzmatch =>
    have hne := commonError_ne_overlap rfl h
    simpa [checkErrors, hne] using hcode
  | henc | hdec | lzc | lzd => exact hcode

theorem Raises.code_mem {i : Instr} {s : State} {e : CmdError} (h : Raises i s e) :
    e.code ∈ checkErrors i ++ bodyErrors i := by
  rw [List.mem_append]
  rcases h with he | ⟨-, hb⟩
  · exact .inl (commonError_mem_checkErrors he)
  · exact .inr (bodyOf_error_code hb)

/-- A command leaves ERR_CODE as it was, or one of the codes it can raise. -/
theorem exec_errCode_mem {i : Instr} {s t : State} (h : exec i s = .next t) :
    t.errCode ∈ s.errCode :: (checkErrors i ++ bodyErrors i) := by
  rw [List.mem_cons]
  rcases (exec_next h).keepsError_or_reports with hk | ⟨e, he, hr⟩
  · exact .inl hk.errCode
  · exact .inr (hr.errCode ▸ he.code_mem)

/-- Settles O59: the codes of the common checks and those of the body make up the table's row. -/
theorem errorsOfEachCommand : Obligations.ErrorsOfEachCommand := by
  intro i s t h hs
  have hmem := exec_errCode_mem h
  rw [hs] at hmem
  cases i with
  | nop | hdiscard => exact List.mem_singleton.1 hmem
  | _ => exact hmem

/-! ### Issuing a failed command again (spec/60_exceptions.md R129) -/

/-- A command's destination holds no byte of its source (spec/40_commands_common.md R89). -/
theorem ChecksPass.not_inDestination {i : Instr} {s : State} {a : Nat} (hp : ChecksPass i s)
    (ha : inSource i s a = true) : inDestination i s a = false := by
  have hno := (checkOverlap_eq_none_iff_disjoint i s).1 ((checkOverlap_eq_none_iff i s).2 hp.noOverlap)
  exact Bool.eq_false_iff.2 fun hd => hno ⟨a, ha, hd⟩

theorem Ends.keepsOperands {i : Instr} {s t : State} (h : Ends i s t) : KeepsOperands s t := by
  rw [h.fields]
  exact ⟨rfl, rfl, rfl, rfl, rfl, rfl, rfl⟩

/-- A command whose checks passed has not written its source. -/
theorem Ends.readByte_source {i : Instr} {s t : State} (h : Ends i s t) (hp : ChecksPass i s) {a : Nat}
    (ha : inSource i s a = true) : { s with mem := t.mem }.readByte a = s.readByte a := by
  have hdraw : t.memDraw = s.memDraw := by rw [h.fields]
  rw [← h.readByte_outside (hp.not_inDestination ha), State.readByte, State.readByte, hdraw]

/-- A body whose source region is as before fails as before. -/
theorem bodyOf_error_withMem {i : Instr} {s : State} {m : Memory} {e : CmdError}
    (hm : ∀ a, inSource i s a = true → { s with mem := m }.readByte a = s.readByte a) (h : bodyOf i s = .error e) :
    bodyOf i { s with mem := m } = .error e := by
  rcases bodyOf_congr_mem hm with ⟨e', he, he'⟩ | ⟨t, bs, hok, -, -⟩
  · rw [he] at h
    cases h
    exact he'
  · rw [hok] at h
    cases h

theorem accept_codec_of_reader {i : Instr} (hi : i = .henc ∨ i = .hdec) (k : Nat) (s : State) :
    (accept (encode i) k s).codec = s.codec := by
  rcases hi with rfl | rfl <;> rfl

theorem Ends.sourceText {i : Instr} {s t : State} (h : Ends i s t) :
    sourceText t = sourceText { s with mem := t.mem } := by
  conv_lhs => rw [h.fields]
  rfl

theorem Ends.sourceBits {i : Instr} {s t : State} (h : Ends i s t) :
    sourceBits t = sourceBits { s with mem := t.mem } := by
  conv_lhs => rw [h.fields]
  rfl

/-- The next acceptance finds the operands, the source and the codec that the failed body read. -/
theorem Ends.bodyError_again {i : Instr} {s t : State} {e : CmdError} (h : Ends i s t) (hp : ChecksPass i s)
    (hb : bodyOf i s = .error e) (k : Nat) : bodyOf i (accept (encode i) k t) = .error e := by
  obtain ⟨-, hlen, -, hcap, hlz, hcur, -⟩ := h.keepsOperands
  have hmem : bodyOf i { s with mem := t.mem } = .error e := bodyOf_error_withMem (fun _ ha => h.readByte_source hp ha) hb
  refine bodyOf_error_congr (s := { s with mem := t.mem }) h.params.symm hlen.symm hcap.symm hlz.symm hcur.symm
    (fun hi => ?_) (fun _ => h.sourceText.symm) (fun _ => h.sourceBits.symm) hmem
  rw [accept_codec_of_reader hi]
  refine (h.codec ?_ ?_).symm <;> rcases hi with rfl | rfl <;> decide

/-- A failed command, accepted again, raises its error again. -/
theorem Ends.raises_again {i : Instr} {s t : State} {e : CmdError} (h : Ends i s t) (he : Raises i s e) (k : Nat) :
    Raises i (accept (encode i) k t) e := by
  obtain ⟨hsrc, hlen, hdst, hcap, -, -, -⟩ := h.keepsOperands
  have hc : commonError i (accept (encode i) k t) = commonError i s := commonError_congr h.params hsrc hlen hdst hcap
  rcases he with he | ⟨hp, hb⟩
  · exact .inl (hc.trans he)
  · have hp' := (commonError_eq_none_iff _ _).1 (hc.trans ((commonError_eq_none_iff i s).2 hp))
    exact .inr ⟨hp', h.bodyError_again hp hb k⟩

/-- Settles O30: a failed command raises the same error again, and reports what it raises. -/
theorem reissueReproducesError : Obligations.ReissueReproducesError := by
  intro i s t k hs h ht
  have hends := exec_next h
  rcases hends.keepsError_or_reports with hk | ⟨e, he, hr⟩
  · rw [hk.err, hs] at ht
    cases ht
  · obtain ⟨t', ht', hr'⟩ := (hends.raises_again he k).exec
    exact ⟨t', ht', hr'.err, hr'.errCode.trans hr.errCode.symm, hr'.errInfo.trans hr.errInfo.symm⟩

end Sys2Proof.Machine

namespace Sys2Proof.Machine

/-! ### The resets (spec/70_reset_and_hazards.md R137, R138) -/

/-- The power-on state is a power-on reset with RESET released, taken as draw 0. -/
theorem powerOn_eq_powerOnReset (p : Params) :
    State.powerOn p = powerOnReset false { State.powerOn p with draws := 0 } := rfl

/-- Settles O21: the power-on state is a power-on reset, and that leaves the invariant whatever was before. -/
theorem powerOnMeetsInvariant : Obligations.PowerOnMeetsInvariant := by
  intro p
  rw [powerOn_eq_powerOnReset]
  exact powerOnReset_inv false _

theorem poweredOn_powerOnReset (line : Bool) (s : State) : PoweredOn s (respond none (powerOnReset line s)) :=
  ⟨rfl, fun _ => rfl⟩

theorem statusWord_powerOn (p : Params) : statusWord (State.powerOn p) = 0#32 := by
  simp [statusWord_eq, State.powerOn, ErrCode.value]

/-- While RESET is asserted only the host moves. -/
theorem step_inReset {s : State} {x : HostTxn} {rest : List HostTxn} (hr : s.resetLine = true)
    (hq : s.pending = x :: rest) : step s = hostTxnInReset x (takeTransaction rest s) := by
  simp only [step, stepWith, hr, hq]

theorem hostTxnInReset_ignored {x : HostTxn} (hx : x ≠ .resetRelease) (s : State) :
    hostTxnInReset x s = .next (respond none s) := by
  cases x with
  | resetRelease => exact absurd rfl hx
  | _ => rfl

theorem hostTxnInReset_release (s : State) :
    hostTxnInReset .resetRelease s = .next (respond none (powerOnReset false s)) := rfl

/-- Settles O8: both edges are a power-on reset, and the table of reset values is read off the power-on state. -/
theorem powerOnResetEffect : Obligations.PowerOnReset := by
  refine ⟨fun s => ⟨_, rfl, rfl, poweredOn_powerOnReset true s⟩, fun s x rest hr hp hq hx => ?_,
    fun s rest hr hp hq => ⟨respond none (powerOnReset false { s with pending := rest }), ?_, rfl,
      poweredOn_powerOnReset false _⟩, fun s hr hq => ?_, fun p => ?_⟩
  · rw [step_inReset hr hq, hostTxnInReset_ignored hx, takeTransaction_idle hp]
    rfl
  · rw [step_inReset hr hq, hostTxnInReset_release, takeTransaction_idle hp]
  · simp only [step, stepWith, hr, hq]
  · exact ⟨rfl, rfl, rfl, rfl, rfl, rfl, rfl, statusWord_powerOn p, rfl, rfl, rfl, rfl, rfl, rfl, rfl, rfl, rfl, rfl, rfl, rfl,
      rfl, regValue_of_no_codec rfl, fun _ => rfl⟩

/-- A soft reset abandons the output of a running command that has a destination and whose checks pass. -/
theorem abandonsOutput_iff (s : State) : abandonsOutput s = true ↔
    ∃ w k i, s.phase = .busy w k ∧ decodeWord w = .ok i ∧ hasDestination i = true ∧ ChecksPass i s := by
  unfold abandonsOutput
  cases h : runningCommand s with
  | none =>
    simp only [Bool.false_eq_true, false_iff]
    rintro ⟨w, k, i, hp, hd, -⟩
    rw [runningCommand_eq_some.2 ⟨w, k, hp, hd⟩] at h
    cases h
  | some i =>
    obtain ⟨w, k, hp, hd⟩ := runningCommand_eq_some.1 h
    simp [hp, hd, commonError_eq_none_iff]

/-- A soft reset leaves the state of R137, but for the buffer, the RESET input and the model's own fields. -/
theorem softReset_fields (s : State) : softReset s = { State.powerOn s.params with
    resetLine := s.resetLine, mem := (softReset s).mem, memDraw := s.memDraw, draws := (softReset s).draws,
    pending := s.pending, answer := s.answer } := by
  unfold softReset
  split <;> rfl

theorem readByte_softReset_abandoned {s : State} (h : abandonsOutput s = true) (a : Nat) :
    (softReset s).readByte a = (drawDestination s).readByte a := by
  rw [softReset, if_pos h]
  rfl

theorem readByte_softReset_kept {s : State} (h : abandonsOutput s = false) (a : Nat) :
    (softReset s).readByte a = s.readByte a := by
  rw [softReset, h]
  rfl

/-- Settles O9: the registers from the shape of a soft reset, the bytes by whether it abandons an output. -/
theorem softResetEffect : Obligations.SoftResetEffect := by
  intro s v hv
  refine ⟨respond none (softReset s), by rw [hostTxn_write_ctrl, writeCtrl_softReset hv],
    congrArg (respond none) (softReset_fields s), fun w k i hp hd hdst hc a ha => ?_, fun a ha => ?_⟩
  · obtain ⟨-, hlo, hhi⟩ := inDestination_eq_true.1 ha
    have hab := (abandonsOutput_iff s).2 ⟨w, k, i, hp, hd, hdst, hc⟩
    exact (readByte_softReset_abandoned hab a).trans (readByte_drawDestination_inside hlo hhi)
  · cases hab : abandonsOutput s with
    | false => exact readByte_softReset_kept hab a
    | true =>
      obtain ⟨w, k, i, hp, hd, hdst, hc⟩ := (abandonsOutput_iff s).1 hab
      have hout : inDestination i s a = false := Bool.eq_false_iff.2 fun h => ha ⟨w, k, i, hp, hd, hc, h⟩
      exact (readByte_softReset_abandoned hab a).trans (readByte_drawDestination_outside (not_inDestination hdst hout))

end Sys2Proof.Machine

namespace Sys2Proof.Machine

/-! ### Completion (spec/40_commands_common.md R85, spec/70_reset_and_hazards.md R140, R143) -/

/-- Settles O26: every command ends, and only the fields of a completion differ. -/
theorem everyCommandEndsIdle : Obligations.EveryCommandEndsIdle := by
  intro i s
  obtain ⟨t, ht, hends⟩ := exec_ends i s
  refine ⟨t, ht, ?_⟩
  rw [hends.fields]
  exact ⟨rfl, rfl, rfl, rfl, rfl, rfl, rfl, rfl, rfl, rfl, rfl, rfl, rfl, rfl, rfl, rfl, rfl⟩

/-- The run from `s` reaches an IDLE state or a fault within `n` steps. -/
def IdleOrFaultWithin (n : Nat) (s : State) : Prop :=
  ∃ m, m ≤ n ∧ ((∃ t, Sys2Proof.core.run m s = .next t ∧ t.phase = .idle) ∨ (∃ f, Sys2Proof.core.run m s = .fault f))

theorem IdleOrFaultWithin.of_idle {s : State} (h : s.phase = .idle) (n : Nat) : IdleOrFaultWithin n s :=
  ⟨0, Nat.zero_le n, .inl ⟨s, rfl, h⟩⟩

/-- A run stops at the fault of its first step. -/
theorem run_fault {M : Host.Core} {s : M.State} {f : M.Fault} (h : M.step s = .fault f) (n : Nat) :
    M.run (n + 1) s = .fault f := by
  rw [Host.Core.run, h]

theorem IdleOrFaultWithin.of_fault {s : State} {f : Fault} (h : step s = .fault f) (n : Nat) :
    IdleOrFaultWithin (n + 1) s :=
  ⟨1, Nat.succ_le_succ (Nat.zero_le n), .inr ⟨f, run_fault (M := Sys2Proof.core) h 0⟩⟩

theorem IdleOrFaultWithin.of_next {s t : State} {n : Nat} (h : step s = .next t) (ht : IdleOrFaultWithin n t) :
    IdleOrFaultWithin (n + 1) s := by
  obtain ⟨m, hm, hrun⟩ := ht
  refine ⟨m + 1, Nat.succ_le_succ hm, ?_⟩
  rw [core_run_succ h]
  exact hrun

/-- A completion step ends IDLE. -/
theorem completionStep_idle (w : Word) (s : State) : ∃ t, completionStep exec w s = .next t ∧ t.phase = .idle := by
  unfold completionStep
  split
  · obtain ⟨t, ht, hends⟩ := exec_ends _ s
    exact ⟨t, ht, hends.phase⟩
  · exact ⟨_, rfl, rfl⟩

/-- A transaction makes a BUSY engine IDLE, or keeps the running command and the RESET input. -/
theorem TxnNext.idle_or_keeps {s t : State} {x : HostTxn} (h : TxnNext s x t) (hb : s.busy = true) :
    t.phase = .idle ∨ (t.phase = s.phase ∧ t.resetLine = s.resetLine) := by
  cases h with
  | accepted _ hp => exact absurd (hb.symm.trans ((busy_eq_false_iff s).2 hp)) (by simp)
  | softReset | resetAssert => exact .inl rfl
  | _ => exact .inr ⟨rfl, rfl⟩

/-- The step of a host that moves while BUSY faults, or ends IDLE, or makes the wait one shorter. -/
theorem step_waiting {s : State} {w : Word} {k : Nat} {x : HostTxn} {rest : List HostTxn} (hr : s.resetLine = false)
    (hp : s.phase = .busy w (k + 1)) (hq : s.pending = x :: rest) :
    (∃ f, step s = .fault f) ∨
      ∃ t, step s = .next t ∧ (t.phase = .idle ∨ (t.phase = .busy w k ∧ t.resetLine = false)) := by
  rw [step_hostMoves ⟨hr, .inr ⟨w, k, hp⟩⟩ hq, takeTransaction_busy hp, Nat.add_sub_cancel]
  cases ht : hostTxn x { s with pending := rest, phase := .busy w k } with
  | fault f => exact .inl ⟨f, rfl⟩
  | refused r => exact absurd ht (hostTxn_not_refused _ _ r)
  | next t =>
    exact .inr ⟨t, rfl, ((hostTxn_next ht).idle_or_keeps rfl).imp_right fun ⟨hphase, hline⟩ => ⟨hphase, hline.trans hr⟩⟩

theorem idleOrFaultWithin_of_engineMoves {s : State} {w : Word} (h : EngineMoves s w) (n : Nat) :
    IdleOrFaultWithin (n + 1) s := by
  obtain ⟨t, ht, hidle⟩ := completionStep_idle w s
  exact .of_next ((step_engineMoves h).trans ht) (.of_idle hidle n)

/-- Every step of a BUSY engine faults, ends IDLE, or makes the wait one shorter. -/
theorem idleOrFaultWithin_of_busy {w : Word} {wait : Nat} {s : State} (hr : s.resetLine = false)
    (hp : s.phase = .busy w wait) : IdleOrFaultWithin (wait + 1) s := by
  induction wait generalizing s with
  | zero => exact idleOrFaultWithin_of_engineMoves ⟨hr, 0, hp, .inl rfl⟩ 0
  | succ k ih =>
    cases hq : s.pending with
    | nil => exact idleOrFaultWithin_of_engineMoves ⟨hr, k + 1, hp, .inr hq⟩ (k + 1)
    | cons x rest =>
      rcases step_waiting hr hp hq with ⟨f, hf⟩ | ⟨t, ht, hidle | ⟨hbusy, hline⟩⟩
      · exact .of_fault hf (k + 1)
      · exact .of_next ht (.of_idle hidle (k + 1))
      · exact .of_next ht (ih hline hbusy)

/-- Settles O7, by induction on the wait. -/
theorem busyEngineCompletes : Obligations.BusyEngineCompletes :=
  fun _ _ _ hr hp => idleOrFaultWithin_of_busy hr hp

end Sys2Proof.Machine
